-- ==== Sys2Proof/Word.lean ====
section
/-!
DEFINITION. The engine's word types: a byte, the 32-bit word every access moves (20_memory.md R72, R73), the 20-bit aperture offset
(R70), and the block-size flag (00_scope.md R17).
-/

namespace Sys2Proof

/-- One byte of the aperture. -/
abbrev Byte := BitVec 8

/-- The 32-bit word that every legal access moves (R73) and that a command is (R100). -/
abbrev Word := BitVec 32

/-- A byte offset in the 1 MiB aperture: exactly the offsets 0x00000 to 0xFFFFF exist (R70). -/
abbrev Offset := BitVec 20

/-- A block-size flag (R17): 0 is the short block, 1 the long block. -/
inductive BlockFlag where
  | short
  | long
deriving DecidableEq, Repr

end Sys2Proof
end

