-- ==== Sys2Proof/Syntax.lean ====
section
/-!
DEFINITION. The nine commands (00_scope.md R2, 30_encoding.md R103), one constructor for each row of the opcode table.
Operands are those of R102: the packed block-size byte stays a byte, since `CONFIG` takes its two nibbles apart (40_setup.md R135);
channel counts and indices are numbers, bounded by the field that carries them (WellFormed.lean).
-/

namespace Sys2Proof

inductive Instr where
  /-- `NOP` (R220). -/
  | nop
  /-- `CONFIG b8, nch` (R130). -/
  | config (b8 : Byte) (nch : Nat)
  /-- `ZERO_COEF c<ch>` (R221). -/
  | zeroCoef (ch : Nat)
  /-- `ZERO_ALL` (R222). -/
  | zeroAll
  /-- `IMDCT c<ch>, <f>` (R160). -/
  | imdct (ch : Nat) (f : BlockFlag)
  /-- `OLA` (R190). -/
  | ola
  /-- `BLOCK <f>` (R200). -/
  | block (f : BlockFlag)
  /-- `RESTART` (R223). -/
  | restart
  /-- `SOFT_RESET` (R224). -/
  | softReset
deriving DecidableEq, Repr

end Sys2Proof
end

