-- ==== Sys2Proof/WellFormed.lean ====
section
/-!
DEFINITION. When a command is one that a 32-bit word can spell: its channel count or index fits the 4-bit field `ARG4`
(30_encoding.md R101, R102). A value that fits the field but is out of range for the engine is well formed: it raises the command's
own error (R104).
-/

namespace Sys2Proof

/-- The number of values of the field `ARG4` (R101). -/
def arg4Values : Nat := 16

/-- A command some 32-bit word spells (R102). -/
abbrev Instr.WellFormed : Instr → Prop
  | .nop | .zeroAll | .ola | .block _ | .restart | .softReset => True
  | .config _ nch => nch < arg4Values
  | .zeroCoef ch => ch < arg4Values
  | .imdct ch _ => ch < arg4Values

end Sys2Proof
end

