-- ==== Sys2Proof/Decode.lean ====
section
/-!
DEFINITION. Decoding a command word (30_encoding.md R100 to R107) and, after it, encoding a command from the same tables.
Decoding is total: every word is a command or is rejected with the reason by name; every rejected word is the spec's `Illegal`, which
raises `ILLEGAL_CMD` when it is executed (R107).
-/

namespace Sys2Proof

/-! ### The fields of a command word (R101) -/

/-- `OP`, bits 7:0. -/
def opField (w : Word) : Byte := w.extractLsb' 0 8
/-- `ARG8`, bits 15:8. -/
def arg8Field (w : Word) : Byte := w.extractLsb' 8 8
/-- `ARG4`, bits 19:16. -/
def arg4Field (w : Word) : BitVec 4 := w.extractLsb' 16 4
/-- `F`, bit 20. -/
def flagField (w : Word) : BitVec 1 := w.extractLsb' 20 1
/-- `RSV`, bits 31:21. -/
def rsvField (w : Word) : BitVec 11 := w.extractLsb' 21 11

/-- The block-size flag a bit stands for (R17, R101): 0 short, 1 long. -/
def BlockFlag.ofBit (b : BitVec 1) : BlockFlag := if b = 0 then .short else .long

/-- The bit of a block-size flag (R17, R101). -/
def BlockFlag.bit : BlockFlag → BitVec 1
  | .short => 0
  | .long => 1

/-! ### Decoding -/

/-- Why a word is no command. All of them are the spec's `Illegal` (R107); the last is not a word at all. -/
inductive DecodeError where
  /-- The opcode is one of 0x08 to 0x0E or 0x10 to 0xFF (R105). -/
  | reservedOpcode (op : Byte)
  /-- The opcode is defined and a bit outside its row's free bits is 1 (R104). -/
  | reservedField (op : Byte)
  /-- A command is exactly four bytes long (R100). -/
  | notOneWord
deriving DecidableEq, Repr

/-- The bits a command may not set are zero, or the word spells no command (R104). -/
def guardReserved (w : Word) (zero : Bool) (i : Instr) : Except DecodeError Instr :=
  if zero then .ok i else .error (.reservedField (opField w))

/-- `decode` of R107. -/
def decode (w : Word) : Except DecodeError Instr :=
  let noRsv := rsvField w = 0
  let noF := flagField w = 0
  let noArg4 := arg4Field w = 0
  let noArg8 := arg8Field w = 0
  let ch := (arg4Field w).toNat
  let f := BlockFlag.ofBit (flagField w)
  match (opField w).toNat with
  | 0x00 => guardReserved w (noRsv ∧ noF ∧ noArg4 ∧ noArg8) .nop
  | 0x01 => guardReserved w (noRsv ∧ noF) (.config (arg8Field w) ch)
  | 0x02 => guardReserved w (noRsv ∧ noF ∧ noArg8) (.zeroCoef ch)
  | 0x03 => guardReserved w (noRsv ∧ noF ∧ noArg4 ∧ noArg8) .zeroAll
  | 0x04 => guardReserved w (noRsv ∧ noArg8) (.imdct ch f)
  | 0x05 => guardReserved w (noRsv ∧ noF ∧ noArg4 ∧ noArg8) .ola
  | 0x06 => guardReserved w (noRsv ∧ noArg4 ∧ noArg8) (.block f)
  | 0x07 => guardReserved w (noRsv ∧ noF ∧ noArg4 ∧ noArg8) .restart
  | 0x0F => guardReserved w (noRsv ∧ noF ∧ noArg4 ∧ noArg8) .softReset
  | _ => .error (.reservedOpcode (opField w))

/-- A little-endian word from its four bytes, the first at the lowest offset (20_memory.md R72). -/
def wordOfBytes (b0 b1 b2 b3 : Byte) : Word := b3 ++ b2 ++ b1 ++ b0

/-- The four bytes of a word in increasing offsets (20_memory.md R72). -/
def bytesOfWord (w : Word) : List Byte :=
  [w.extractLsb' 0 8, w.extractLsb' 8 8, w.extractLsb' 16 8, w.extractLsb' 24 8]

/-- Decode the bytes of one command; total on any list of bytes (R100). -/
def decodeBytes : List Byte → Except DecodeError Instr
  | [b0, b1, b2, b3] => decode (wordOfBytes b0 b1 b2 b3)
  | _ => .error .notOneWord

/-- The command the decoder reads from the bits of an opcode-table row: the bits above `nbits` are zero, and the four bytes lie as the
hardware stores a word (R72, R100). -/
def decodeTableWord (nbits w : Nat) : Option Instr :=
  (decodeBytes (bytesOfWord (BitVec.ofNat 32 (w % 2 ^ nbits)))).toOption

/-! ### Encoding -/

/-- A command word from its fields (R101); `RSV` is 0. -/
def commandWord (op arg8 : Byte) (arg4 : BitVec 4) (f : BitVec 1) : Word :=
  (0 : BitVec 11) ++ f ++ arg4 ++ arg8 ++ op

/-- The word of a command (R102, R103, R108). A number that does not fit `ARG4` loses its high bits; a well-formed command has none. -/
def encode : Instr → Word
  | .nop => commandWord 0x00 0 0 0
  | .config b8 nch => commandWord 0x01 b8 (BitVec.ofNat 4 nch) 0
  | .zeroCoef ch => commandWord 0x02 0 (BitVec.ofNat 4 ch) 0
  | .zeroAll => commandWord 0x03 0 0 0
  | .imdct ch f => commandWord 0x04 0 (BitVec.ofNat 4 ch) f.bit
  | .ola => commandWord 0x05 0 0 0
  | .block f => commandWord 0x06 0 0 f.bit
  | .restart => commandWord 0x07 0 0 0
  | .softReset => commandWord 0x0F 0 0 0

end Sys2Proof
end

