-- ==== Sys2Proof/Config.lean ====
section
/-!
DEFINITION. What is fixed for the machine (00_scope.md R9) and what the spec leaves open (R10).

Fixed parameters are plain definitions. Open values are opaque constants without a body, so that no proof can use what they are.
The parameters `IMDCT_IMPL`, `IMDCT_TOL`, `LUT_VALUES`, `PCM_CONVERT` and `BUS_ERROR_EFFECT` are arguments of the machine, with the spec's
defaults (Machine/Params.lean; assumption log 4, 5, 6, 10, 13). `IMDCT_TOL` has no default: its value is a constant without a body here.
`ENGINE_BASE` has none either: it is an argument of the address map (Machine/Operands.lean), and each instance of a platform has its own
(Machine/Platform.lean; log 9, 22).
-/

namespace Sys2Proof.Config

/-- `NCH_MAX` (R9). -/
def nchMax : Nat := 8
/-- The exponent of `BS_MIN` = 64 (R9). -/
def expMin : Nat := 6
/-- The exponent of `BS_MAX` = 8192 (R9). -/
def expMax : Nat := 13
/-- `COEF_DEPTH` (R9): spectral words per channel. -/
def coefDepth : Nat := 4096
/-- `BLK_DEPTH` (R9): time-domain words per channel. -/
def blkDepth : Nat := 8192
/-- `PREV_DEPTH` (R9): retained words per channel. -/
def prevDepth : Nat := 4096
/-- `PCM_DEPTH` (R9): 16-bit samples. -/
def pcmDepth : Nat := 32768
/-- The aperture's size in bytes (R9, R70). -/
def apertureBytes : Nat := 0x100000

/-- Which primitive of R15 produced a NaN. -/
inductive NanOp where
  | mul
  | add
  | sub
deriving DecidableEq, Repr

/-- FREE VALUE (log 7). The sign of the quiet NaN that an operation returns: part of the parameter `NAN_RESULT` (R10, R15). -/
opaque nanSign : NanOp → Word → Word → Bool

/-- FREE VALUE (log 7). The payload, below the quiet bit, of the NaN that an operation returns: part of `NAN_RESULT` (R10, R15). -/
opaque nanPayload : NanOp → Word → Word → BitVec 22

/-- FREE VALUE (log 8). The byte that the RAM cell of an instance, given by its number, holds at an aperture offset after the power-on with
a given number, until something writes it (10_state.md R57, 20_memory.md R90 and R91, 93_implementation_defined.md U1): the arguments are
the instance, the power-on and the offset. -/
opaque powerOnByte : Nat → Nat → Nat → Byte

/-- FREE VALUE (log 13). `IMDCT_TOL`, which the spec gives no default: the error bound of a transform of block size `n` on the coefficients
with these patterns, `none` being no bound (R10, 41_imdct.md R171). -/
opaque imdctTol : Nat → List Word → Option Rat

end Sys2Proof.Config
end

