-- ==== Sys2Proof/Machine/State.lean ====
section
/-!
DEFINITION. The engine's state as plain data (10_state.md R30 to R57): the register file, the one byte memory that holds every RAM and
LUT at its aperture offset, and the model's own fields for what the host has asked and has been told (log 1, 2).
-/

namespace Sys2Proof.Machine

/-- The error codes of 60_exceptions.md R250. Codes 0x07 to 0xFF are never written (93_implementation_defined.md U12). -/
inductive ErrCode where
  | none
  | illegalCmd
  | malformedHeader
  | unsupportedFeature
  | notConfigured
  | badChannel
  | sequence
deriving DecidableEq, Repr

/-- The fields of `STATUS` (R36). The reserved bits have no storage: they read 0 (R48). -/
structure Status where
  /-- bit 0 (R37) -/
  busy : Bool
  /-- bit 1 (R38) -/
  configured : Bool
  /-- bit 2 (R39) -/
  failed : Bool
  /-- bit 3 (R40) -/
  prevValid : Bool
  /-- bit 4 (R40) -/
  prevFlag : BlockFlag
  /-- bit 5 (R41) -/
  xfFlag : BlockFlag
  /-- bits 15:8 (R41) -/
  xfDone : BitVec 8
  /-- bits 23:16 (R42) -/
  err : ErrCode
deriving DecidableEq, Repr

/-- The fields of `CONFIG_RB` (R43): the short exponent, the long exponent, the channel count. Bits 31:12 read 0. -/
structure ConfigRb where
  e0 : BitVec 4
  e1 : BitVec 4
  nch : BitVec 4
deriving DecidableEq, Repr

/-- What a byte of RAM that the cell list does not name holds (log 14): what it powered up with, when nothing has written it since
power-on number `generation` of instance number `unit` (R56, R57; 20_memory.md R91); or zero, once a `CONFIG` has cleared the RAMs
(40_setup.md R133). -/
inductive Fill where
  | powerOn (unit generation : Nat)
  | zero
deriving DecidableEq, Repr

/-- Every RAM and LUT of the engine as one byte memory keyed by aperture offset (20_memory.md R71, R76 to R81; log 14). The canonical
form is `Memory.Wf` in Machine/Ops.lean. -/
structure Memory where
  fill : Fill
  cells : List Host.Cell
deriving DecidableEq, Repr

/-- What the outside world can do to one instance. -/
inductive HostEvent where
  /-- A read of `width` bytes at an offset (00_scope.md R13). -/
  | read (off : Offset) (width : Nat)
  /-- A write of `width` bytes at an offset (R13). -/
  | write (off : Offset) (width : Nat) (value : Word)
  /-- A 32-bit write of `CMD` during whose execution the host reads `STATUS` `polls` times (10_state.md R37, 20_memory.md R82; log 3). -/
  | command (w : Word) (polls : Nat)
  /-- The hardware reset input (70_reset_and_hazards.md R280; log 12). -/
  | hardReset
  /-- An access by a second bus master (20_memory.md R86; log 11). -/
  | otherMaster
deriving DecidableEq, Repr

/-- Why the machine stops with a fault. All three are bus errors (20_memory.md R74), raised by the bus interface and by no command: no
engine state changes, and the host takes a fault (log 10). Safe: the engine's side is the spec's, and the model says nothing of what
the host does next. -/
inductive Fault where
  /-- R74 (a): the access is not 32 bits wide. Raised by a host read or write. Safe. -/
  | busErrorWidth
  /-- R74 (b): the offset is not a multiple of 4. Raised by a host read or write. Safe. -/
  | busErrorAlignment
  /-- R74 (c): the offset lies in an unmapped range of R71. Raised by a host read or write. Safe. -/
  | busErrorUnmapped
deriving DecidableEq, Repr

/-- Why the model gives a step no meaning. -/
inductive Refusal where
  /-- An instruction without a meaning yet, by its mnemonic. Raised by `exec` alone. Safe. -/
  | notModelled (mnemonic : String)
  /-- R86: "a model refuses a run in which two agents access one instance". Raised by the step that meets a second master's access. Safe. -/
  | secondMaster
deriving DecidableEq, Repr

/-- One instance (10_state.md R30). Several of them, which share nothing, are a `Platform` (20_memory.md R91; Machine/Platform.lean). -/
structure State where
  /-- `STATUS` (R36) -/
  status : Status
  /-- `CONFIG_RB` (R43) -/
  configRb : ConfigRb
  /-- `OUT_COUNT`, bits 12:0 (R44) -/
  outCount : BitVec 13
  /-- `ERR_CMD` (R47) -/
  errCmd : Word
  /-- `COEF`, `BLK`, `PREV`, `PCM`, the twiddle LUT and the window LUT (R49 to R54) -/
  mem : Memory
  /-- the model's own (log 22): the number that tells this instance's free values from another's; no read returns it -/
  unit : Nat
  /-- the model's own (log 12): how many hardware resets have happened -/
  resets : Nat
  /-- the model's own (log 1): what the host will do, oldest first -/
  pending : List HostEvent
  /-- the model's own (log 2): what the host's reads have returned, oldest first (00_scope.md R8) -/
  reads : List Word
deriving DecidableEq, Repr

/-- `STATUS` after either reset (R57). -/
def Status.reset : Status where
  busy := false
  configured := false
  failed := false
  prevValid := false
  prevFlag := .short
  xfFlag := .short
  xfDone := 0
  err := .none

/-- `CONFIG_RB` after either reset (R57). -/
def ConfigRb.reset : ConfigRb where
  e0 := 0
  e1 := 0
  nch := 0

/-- The machine right after hardware reset (R57, 70_reset_and_hazards.md R280): every register 0, every RAM and LUT word unspecified,
waiting for the host. It is instance number 0; `State.powerOn` in Machine/Platform.lean is any other's. -/
def State.reset : State where
  status := Status.reset
  configRb := ConfigRb.reset
  outCount := 0
  errCmd := 0
  mem := { fill := .powerOn 0 0, cells := [] }
  unit := 0
  resets := 0
  pending := []
  reads := []

end Sys2Proof.Machine
end

