-- ==== Sys2Proof/Machine/Ops.lean ====
section
/-!
DEFINITION. The named operations over memory and registers that every meaning is written with: reading and writing the byte memory,
the addresses of the RAM windows (20_memory.md R76 to R81), raising a command error (60_exceptions.md R252) and returning the registers
to their reset values (10_state.md R57), which is the only way out of an error (R255).
-/

namespace Sys2Proof.Machine

/-! ### The byte memory -/

/-- The value an unlisted byte is known to hold, if anything has written it (log 14). -/
def Fill.written? : Fill → Option Byte
  | .powerOn _ _ => none
  | .zero => some 0

/-- What a read of an unlisted byte at offset `a` returns: the free value of its power-on (R90), or the zero of the last clearing. -/
def Fill.byteAt (f : Fill) (a : Nat) : Byte :=
  match f with
  | .powerOn u g => Config.powerOnByte u g a
  | .zero => 0

/-- The canonical form: offsets strictly rising and inside the aperture, and no listed byte equal to what the list already says of an
unlisted one. Equal memories are then equal data. -/
abbrev Memory.Wf (m : Memory) : Prop :=
  m.cells.Pairwise (fun c d => c.1 < d.1) ∧
    ∀ c ∈ m.cells, c.1 < Config.apertureBytes ∧ some c.2 ≠ m.fill.written?

/-- The byte a cell list gives for an offset. -/
def findCell (a : Nat) : List Host.Cell → Option Byte
  | [] => none
  | c :: cs => if c.1 = a then some c.2 else findCell a cs

/-- Read one byte. -/
def Memory.readByte (m : Memory) (a : Nat) : Byte :=
  (findCell a m.cells).getD (m.fill.byteAt a)

/-- Read one word, little-endian (R72). -/
def Memory.readWord (m : Memory) (a : Nat) : Word :=
  wordOfBytes (m.readByte a) (m.readByte (a + 1)) (m.readByte (a + 2)) (m.readByte (a + 3))

/-- Walk the cells, which rise from an offset of at least `a`, and give the next bytes from `a` on. -/
def walkBytes (f : Fill) : Nat → Nat → List Host.Cell → List Byte
  | 0, _, _ => []
  | n + 1, a, [] => f.byteAt a :: walkBytes f n (a + 1) []
  | n + 1, a, c :: cs =>
    if c.1 = a then c.2 :: walkBytes f n (a + 1) cs
    else f.byteAt a :: walkBytes f n (a + 1) (c :: cs)

/-- The `len` bytes from `lo` on, in one pass over the cells. In a canonical memory it is `readByte` at each offset
(`readBytes_eq_map_readByte` in Laws/Memory.lean). -/
def Memory.readBytes (m : Memory) (lo len : Nat) : List Byte :=
  walkBytes m.fill len lo (m.cells.dropWhile (fun c => c.1 < lo))

/-- Group bytes into little-endian words (R72). -/
def wordsOfBytes : List Byte → List Word
  | b0 :: b1 :: b2 :: b3 :: rest => wordOfBytes b0 b1 b2 b3 :: wordsOfBytes rest
  | _ => []

/-- The `count` words from `lo` on. -/
def Memory.readWords (m : Memory) (lo count : Nat) : List Word :=
  wordsOfBytes (m.readBytes lo (4 * count))

/-- The cells that hold `bs` from offset `a` on, leaving out each byte that an unlisted offset is known to hold already. -/
def cellsOf (known : Option Byte) : Nat → List Byte → List Host.Cell
  | _, [] => []
  | a, b :: bs => if some b = known then cellsOf known (a + 1) bs else (a, b) :: cellsOf known (a + 1) bs

/-- The cells below `lo`. -/
def cellsBelow (lo : Nat) (cs : List Host.Cell) : List Host.Cell := cs.filter (fun c => c.1 < lo)

/-- The cells from `hi` on. -/
def cellsFrom (hi : Nat) (cs : List Host.Cell) : List Host.Cell := cs.filter (fun c => hi ≤ c.1)

/-- Write the bytes `bs` from `lo` on. -/
def Memory.writeBytes (m : Memory) (lo : Nat) (bs : List Byte) : Memory :=
  { m with
    cells := cellsBelow lo m.cells ++ cellsOf m.fill.written? lo bs ++ cellsFrom (lo + bs.length) m.cells }

/-- The bytes of words in increasing offsets (R72). -/
def bytesOfWords (ws : List Word) : List Byte := ws.flatMap bytesOfWord

/-- Write words from `lo` on. -/
def Memory.writeWords (m : Memory) (lo : Nat) (ws : List Word) : Memory :=
  m.writeBytes lo (bytesOfWords ws)

/-- Write zero to the `len` bytes from `lo` on: what `writeBytes` of so many zeros does (`clearBytes_eq_writeBytes` in
Laws/Memory.lean), without listing a zero that need not be listed. -/
def Memory.clearBytes (m : Memory) (lo len : Nat) : Memory :=
  match m.fill with
  | .zero => { m with cells := cellsBelow lo m.cells ++ cellsFrom (lo + len) m.cells }
  | .powerOn _ _ => m.writeBytes lo (List.replicate len 0)

/-- The memory a `CONFIG` starts from: every RAM word cleared (40_setup.md R133). -/
def Memory.cleared : Memory := { fill := .zero, cells := [] }

/-! ### Where the RAM windows lie -/

/-- The offset of `COEF[c][k]` (R76). -/
def coefAddr (c k : Nat) : Nat := 0x10000 + 4 * (c * Config.coefDepth + k)
/-- The offset of `BLK[c][j]` (R77). -/
def blkAddr (c j : Nat) : Nat := 0x40000 + 4 * (c * Config.blkDepth + j)
/-- The offset of `PCM[s]`: sample `2w` is the low half of word `w` and sample `2w + 1` the high half (R78, R72). -/
def pcmAddr (s : Nat) : Nat := 0x80000 + 2 * s
/-- The number of a block-size flag (R17). -/
def flagNumber : BlockFlag → Nat
  | .short => 0
  | .long => 1
/-- `T_f`, where twiddle bank `f` begins (R79). -/
def bankAddr (f : BlockFlag) : Nat := 0x90000 + flagNumber f * 0x8000
/-- The offset of `ROTC[f][m]` (R79). -/
def rotcAddr (f : BlockFlag) (m : Nat) : Nat := bankAddr f + 8 * m
/-- The offset of `ROTS[f][m]` (R79). -/
def rotsAddr (f : BlockFlag) (m : Nat) : Nat := bankAddr f + 8 * m + 4
/-- The offset of `TWC[f][k]` (R79). -/
def twcAddr (f : BlockFlag) (k : Nat) : Nat := bankAddr f + 0x4000 + 8 * k
/-- The offset of `TWS[f][k]` (R79). -/
def twsAddr (f : BlockFlag) (k : Nat) : Nat := bankAddr f + 0x4000 + 8 * k + 4
/-- The offset of `BR[f][i]` (R79). -/
def brAddr (f : BlockFlag) (i : Nat) : Nat := bankAddr f + 0x6000 + 4 * i
/-- The number of window shape `s = 2 pf + cf` (10_state.md R54). -/
def shapeNumber (pf cf : BlockFlag) : Nat := 2 * flagNumber pf + flagNumber cf
/-- The offset of `WIN[s][k]` (R80). -/
def winAddr (s k : Nat) : Nat := 0xA0000 + s * 0x4000 + 4 * k
/-- The offset of `PREV[c][i]` (R81). -/
def prevAddr (c i : Nat) : Nat := 0xC0000 + 4 * (c * Config.prevDepth + i)

/-! ### Errors, and the way out of them -/

/-- Error entry (60_exceptions.md R252): the code, `FAILED` and the command word are recorded, and nothing else changes. -/
def raiseError (code : ErrCode) (w : Word) (s : State) : State :=
  { s with status := { s.status with err := code, failed := true }, errCmd := w }

/-- Every register to its reset value, every RAM and LUT word unchanged (10_state.md R57, 70_reset_and_hazards.md R281). No
return-from-error command exists: this, by `SOFT_RESET` or the hardware reset, is what leaves `FAILED` (60_exceptions.md R255). -/
def resetRegisters (s : State) : State :=
  { s with status := Status.reset, configRb := ConfigRb.reset, outCount := 0, errCmd := 0 }

/-- The hardware reset (70_reset_and_hazards.md R280): every register to its reset value, and every RAM and LUT word left unspecified,
which is a new power-on's free contents. What the host has asked and been told is not the engine's (log 12). -/
def hardwareReset (s : State) : State :=
  { resetRegisters s with
    mem := { fill := .powerOn s.unit (s.resets + 1), cells := [] }
    resets := s.resets + 1 }

end Sys2Proof.Machine
end

