-- ==== Sys2Proof/Machine/Operands.lean ====
section
/-!
DEFINITION. What the commands' operands and the configuration stand for: the nibbles of the packed byte (40_setup.md R135), the sizes a
flag selects (00_scope.md R17), the geometry of an overlap (42_window_ola.md R193), and the regions of the aperture (20_memory.md R71).
-/

namespace Sys2Proof.Machine

/-! ### The packed block-size byte (R135) -/

/-- The short-block exponent, `b8[3:0]`. -/
def shortExp (b8 : Byte) : BitVec 4 := b8.extractLsb' 0 4
/-- The long-block exponent, `b8[7:4]`. -/
def longExp (b8 : Byte) : BitVec 4 := b8.extractLsb' 4 4

/-! ### The configuration (10_state.md R43, 00_scope.md R17) -/

/-- `E[f]` -/
def State.exponent (s : State) : BlockFlag → Nat
  | .short => s.configRb.e0.toNat
  | .long => s.configRb.e1.toNat

/-- `NCH` -/
def State.nch (s : State) : Nat := s.configRb.nch.toNat

/-- `BS[f] = 2^E[f]`: the number `n` of time-domain samples of a block of flag `f`. -/
def State.blockSize (s : State) (f : BlockFlag) : Nat := 2 ^ s.exponent f

/-- `B = E[f] - 2`: the number of radix-2 passes. -/
def State.passCount (s : State) (f : BlockFlag) : Nat := s.exponent f - 2

/-- `N = n/2`: the number of spectral coefficients. -/
def State.spectrumSize (s : State) (f : BlockFlag) : Nat := s.blockSize f / 2

/-- `2^NCH - 1`: the value of `XF_DONE` when every configured channel has been transformed (42_window_ola.md R191). -/
def State.allChannels (s : State) : Nat := 2 ^ s.nch - 1

/-! ### The geometry of an overlap (42_window_ola.md R193) -/

/-- The sizes and indices of R193, for a previous block of `P` samples and a current block of `C` samples. -/
structure Overlap where
  /-- previous block size -/
  P : Nat
  /-- current block size -/
  C : Nat
deriving DecidableEq, Repr

/-- `L`, the slope length: half of the smaller block (R193, and 40_setup.md R145). -/
def Overlap.slope (o : Overlap) : Nat := min o.P o.C / 2
/-- `s0`, the first output index of the overlap. -/
def Overlap.first (o : Overlap) : Nat := o.P / 4 - o.slope / 2
/-- `s1`, the first output index after the overlap. -/
def Overlap.past (o : Overlap) : Nat := o.P / 4 + o.slope / 2
/-- `T`, the output samples per channel. -/
def Overlap.count (o : Overlap) : Nat := o.P / 4 + o.C / 4
/-- `ic(t)`, the current-block sample of output index `t`. -/
def Overlap.current (o : Overlap) (t : Nat) : Nat := t + o.C / 4 - o.P / 4

/-- The overlap of a block of flag `cf` that follows a block of flag `pf`. -/
def State.overlap (s : State) (pf cf : BlockFlag) : Overlap := { P := s.blockSize pf, C := s.blockSize cf }

/-! ### The aperture (20_memory.md R71) -/

/-- The regions of the address map. -/
inductive Region where
  | registers
  | coef
  | blk
  | pcm
  | twiddle
  | window
  | prev
  | unmapped
deriving DecidableEq, Repr

/-- The region an offset lies in (R71). -/
def regionOf (off : Offset) : Region :=
  let a := off.toNat
  if a < 0x00100 then .registers
  else if a < 0x10000 then .unmapped
  else if a < 0x30000 then .coef
  else if a < 0x40000 then .unmapped
  else if a < 0x80000 then .blk
  else if a < 0x90000 then .pcm
  else if a < 0xA0000 then .twiddle
  else if a < 0xB0000 then .window
  else if a < 0xC0000 then .unmapped
  else if a < 0xE0000 then .prev
  else .unmapped

/-- Which bus error an access takes, if any (R74). An access with several defects takes one bus error; which name the model gives it is
its own choice (log 10). -/
def busError? (off : Offset) (width : Nat) : Option Fault :=
  if width ≠ 4 then some .busErrorWidth
  else if off.toNat % 4 ≠ 0 then some .busErrorAlignment
  else if regionOf off = .unmapped then some .busErrorUnmapped
  else none

/-- The host address of an aperture offset, for an aperture at `ENGINE_BASE` = `base` (R70; log 9). -/
def hostAddress (base : Nat) (off : Offset) : Nat := base + off.toNat

/-- The aperture offset of a host address, for the addresses that fall in the aperture at `ENGINE_BASE` = `base` (R70). -/
def offsetOfHost? (base address : Nat) : Option Offset :=
  if base ≤ address ∧ address < base + Config.apertureBytes then some (BitVec.ofNat 20 (address - base))
  else none

end Sys2Proof.Machine
end

