-- ==== Sys2Proof/Machine/Flags.lean ====
section
/-!
DEFINITION. The status flags and the registers the host reads: the layout of `STATUS` (10_state.md R36), the updates of its fields that
commands make (R38 to R42), and the value of every register (R33 to R48).
-/

namespace Sys2Proof.Machine

/-- The 8-bit code of an error (60_exceptions.md R250). -/
def ErrCode.code : ErrCode → BitVec 8
  | .none => 0x00
  | .illegalCmd => 0x01
  | .malformedHeader => 0x02
  | .unsupportedFeature => 0x03
  | .notConfigured => 0x04
  | .badChannel => 0x05
  | .sequence => 0x06

/-- `STATUS` as the host reads it (R36). -/
def Status.word (st : Status) : Word :=
  (0 : BitVec 8) ++ st.err.code ++ st.xfDone ++ (0 : BitVec 2) ++ st.xfFlag.bit ++ st.prevFlag.bit ++
    BitVec.ofBool st.prevValid ++ BitVec.ofBool st.failed ++ BitVec.ofBool st.configured ++ BitVec.ofBool st.busy

/-- `CONFIG_RB` as the host reads it (R43). -/
def ConfigRb.word (c : ConfigRb) : Word := (0 : BitVec 20) ++ c.nch ++ c.e1 ++ c.e0

/-! ### Field updates -/

/-- `XF_DONE[ch] <- 1; XF_FLAG <- f` (R41). -/
def Status.markTransformed (st : Status) (ch : Nat) (f : BlockFlag) : Status :=
  { st with xfDone := st.xfDone ||| (1 <<< ch), xfFlag := f }

/-- `XF_DONE <- done; XF_FLAG <- f`: `BLOCK`'s bookkeeping before the overlap (42_window_ola.md R200). -/
def Status.markAll (st : Status) (done : Nat) (f : BlockFlag) : Status :=
  { st with xfDone := BitVec.ofNat 8 done, xfFlag := f }

/-- The end of a packet of flag `cf` (42_window_ola.md R197): its block is retained and the bookkeeping begins anew. -/
def Status.endPacket (st : Status) (cf : BlockFlag) : Status :=
  { st with prevFlag := cf, prevValid := true, xfDone := 0, xfFlag := .short }

/-- No retained block and no packet begun (R40, R41): what `CONFIG` and `RESTART` write. -/
def Status.forget (st : Status) : Status :=
  { st with prevValid := false, prevFlag := .short, xfDone := 0, xfFlag := .short }

/-! ### The register file as the host reads it (R33) -/

/-- `ID` (R34). -/
def idWord : Word := 0x43444D49

/-- `OUT_TOTAL` (R45): 16 bits, `OUT_COUNT * NCH`. -/
def State.outTotal (s : State) : BitVec 16 := BitVec.ofNat 16 (s.outCount.toNat * s.nch)

/-- `BLOCKSIZE0` and `BLOCKSIZE1` (R46). -/
def State.blockSizeWord (s : State) (f : BlockFlag) : Word :=
  if s.status.configured then BitVec.ofNat 32 (s.blockSize f) else 0

/-- The value of the register at an offset below 0x100 (R33 to R48). `CMD` is write-only and the offsets from 0x024 on are reserved: both
read 0 (R35, R48). -/
def State.readRegister (s : State) (off : Offset) : Word :=
  match off.toNat with
  | 0x000 => idWord
  | 0x004 => 0
  | 0x008 => s.status.word
  | 0x00C => s.configRb.word
  | 0x010 => s.outCount.zeroExtend 32
  | 0x014 => s.outTotal.zeroExtend 32
  | 0x018 => s.blockSizeWord .short
  | 0x01C => s.blockSizeWord .long
  | 0x020 => s.errCmd
  | _ => 0

end Sys2Proof.Machine
end

