-- ==== Sys2Proof/Machine/BufferControl.lean ====
section
/-!
DEFINITION. The buffer and control commands (43_buffer_control.md R220 to R224).
-/

namespace Sys2Proof.Machine

/-- `NOP` (R220): nothing. -/
def execNop (s : State) : Host.Outcome State Fault Refusal := .next s

/-- The error `ZERO_COEF` raises, if any, in the order of R221. -/
def zeroCoefError? (ch : Nat) (s : State) : Option ErrCode :=
  if ¬ s.status.configured then some .notConfigured
  else if s.nch ≤ ch then some .badChannel
  else none

/-- `COEF[ch][k] <- +0.0` for every `k`, whatever the block size (R221). -/
def clearCoef (ch : Nat) (s : State) : State :=
  { s with mem := s.mem.clearBytes (coefAddr ch 0) (4 * Config.coefDepth) }

/-- `ZERO_COEF c<ch>` (R221). -/
def execZeroCoef (ch : Nat) (s : State) : Host.Outcome State Fault Refusal :=
  match zeroCoefError? ch s with
  | some code => .next (raiseError code (encode (.zeroCoef ch)) s)
  | none => .next (clearCoef ch s)

/-- `COEF[c][k] <- +0.0` for all 8 channel rows, which lie side by side (R222, 20_memory.md R76). -/
def clearAllCoef (s : State) : State :=
  { s with mem := s.mem.clearBytes (coefAddr 0 0) (Config.nchMax * (4 * Config.coefDepth)) }

/-- `ZERO_ALL` (R222). -/
def execZeroAll (s : State) : Host.Outcome State Fault Refusal :=
  if ¬ s.status.configured then .next (raiseError .notConfigured (encode .zeroAll) s)
  else .next (clearAllCoef s)

/-- `RESTART` (R223): the retained block and any partial packet are discarded. -/
def execRestart (s : State) : Host.Outcome State Fault Refusal :=
  if ¬ s.status.configured then .next (raiseError .notConfigured (encode .restart) s)
  else .next { s with status := s.status.forget, outCount := 0 }

/-- `SOFT_RESET` (R224): every register to its reset value. -/
def execSoftReset (s : State) : Host.Outcome State Fault Refusal := .next (resetRegisters s)

end Sys2Proof.Machine
end

