-- ==== Sys2Proof/Machine/Float.lean ====
section
/-!
DEFINITION. Binary32 arithmetic (00_scope.md R15): the data of IEEE 754 binary32, and the primitives `fadd`, `fsub`, `fmul`, `fneg`, each
of which computes its exact result and rounds it once, to nearest with ties to even. Every finite binary32 value is a whole multiple
of 2^-149, so a finite datum is kept as its sign and that multiple, and an exact sum or product is integer arithmetic.
-/

namespace Sys2Proof.Machine

/-- A binary32 datum. `fin neg mag` is the finite value `mag * 2^-149`, negated if `neg`; zeros have both signs. `nan neg frac` keeps the
sign and fraction of the pattern, which the engine stores and negates unchanged (R15, 20_memory.md R76). -/
inductive F32 where
  | nan (neg : Bool) (frac : BitVec 23)
  | inf (neg : Bool)
  | fin (neg : Bool) (mag : Nat)
deriving DecidableEq, Repr

namespace F32

/-- `+0.0` -/
def zero : F32 := .fin false 0

/-- One more than the largest finite magnitude can round to, in units of 2^-149: 2^128. -/
def overflowMag : Nat := 2 ^ 277

/-- The datum of a 32-bit pattern: sign in bit 31, exponent in bits 30:23, fraction in bits 22:0 (20_memory.md R72). -/
def ofBits (w : Word) : F32 :=
  let neg := w.getLsbD 31
  let e := (w.extractLsb' 23 8).toNat
  let frac := w.extractLsb' 0 23
  if e = 255 then (if frac = 0 then .inf neg else .nan neg frac)
  else if e = 0 then .fin neg frac.toNat
  else .fin neg ((frac.toNat + 2 ^ 23) <<< (e - 1))

/-- Exponent and fraction of a representable magnitude, as one number: the exponent counts how far the 24-bit significand is shifted. -/
def magBits (mag : Nat) : Nat :=
  let shift := mag.log2 - 23
  shift * 2 ^ 23 + mag >>> shift

/-- The 32-bit pattern of a datum (20_memory.md R72). -/
def toBits : F32 → Word
  | .nan neg frac => BitVec.ofBool neg ++ (255 : BitVec 8) ++ frac
  | .inf neg => BitVec.ofBool neg ++ (255 : BitVec 8) ++ (0 : BitVec 23)
  | .fin neg mag => BitVec.ofBool neg ++ BitVec.ofNat 31 (magBits mag)

/-- `m / 2^shift` rounded to the nearest integer, ties to even. -/
def roundShift (m shift : Nat) : Nat :=
  let q := m >>> shift
  let r := m % 2 ^ shift
  if 2 * r < 2 ^ shift then q
  else if 2 * r = 2 ^ shift ∧ q % 2 = 0 then q
  else q + 1

/-- `rn32` of `mag * 2^-(149 + k)`, negated if `neg` (R15). The result has 24 significant bits, or is a multiple of 2^-149 where that is
coarser, so that subnormal results are kept; from 2^128 on it is an infinity. -/
def round (neg : Bool) (mag k : Nat) : F32 :=
  let shift := max k (mag.log2 - 23)
  let m := roundShift mag shift <<< (shift - k)
  if m < overflowMag then .fin neg m else .inf neg

/-- The quiet NaN an operation returns: `NAN_RESULT` (R15; log 7). Only the quiet bit is fixed. -/
def quietNaN (op : Config.NanOp) (a b : F32) : F32 :=
  .nan (Config.nanSign op a.toBits b.toBits) ((1 : BitVec 1) ++ Config.nanPayload op a.toBits b.toBits)

/-- `fneg` (R15): the sign bit alone, for zeros and NaNs as well. -/
def neg : F32 → F32
  | .nan s p => .nan (!s) p
  | .inf s => .inf (!s)
  | .fin s m => .fin (!s) m

/-- `fmul` (R15): `inf * 0` is a NaN. -/
def mul (a b : F32) : F32 :=
  match a, b with
  | .nan .., _ => quietNaN .mul a b
  | _, .nan .. => quietNaN .mul a b
  | .inf s, .inf t => .inf (s ^^ t)
  | .inf s, .fin t n => if n = 0 then quietNaN .mul a b else .inf (s ^^ t)
  | .fin s m, .inf t => if m = 0 then quietNaN .mul a b else .inf (s ^^ t)
  | .fin s m, .fin t n => round (s ^^ t) (m * n) 149

/-- The sum of two finite data: a zero sum of opposite signs is `+0` (R15). -/
def addFinite (s : Bool) (m : Nat) (t : Bool) (n : Nat) : F32 :=
  if s = t then round s (m + n) 0
  else if m = n then zero
  else if n < m then round s (m - n) 0
  else round t (n - m) 0

/-- A sum whose NaN, if any, is the one operation `op` returns. -/
def sum (op : Config.NanOp) (a b c : F32) : F32 :=
  match a, c with
  | .nan .., _ => quietNaN op a b
  | _, .nan .. => quietNaN op a b
  | .inf s, .inf t => if s = t then .inf s else quietNaN op a b
  | .inf s, .fin .. => .inf s
  | .fin .., .inf t => .inf t
  | .fin s m, .fin t n => addFinite s m t n

/-- `fadd` (R15). -/
def add (a b : F32) : F32 := sum .add a b b

/-- `fsub` (R15): the exact difference is the exact sum with the negated second operand. -/
def sub (a b : F32) : F32 := sum .sub a b b.neg

/-- Whether a datum is a NaN. -/
def isNaN : F32 → Bool
  | .nan .. => true
  | _ => false

end F32

end Sys2Proof.Machine
end

