-- ==== Sys2Proof/Machine/Lut.lean ====
section
/-!
DEFINITION. The entries of the two LUTs (40_setup.md R140 to R146), each a real number, and each rounded once to binary32: the spec's default
of the parameter `LUT_VALUES` (R140; log 5). The real numbers are sines of an angle between 0 and a quarter turn, evaluated here in
fixed point with 128 fraction bits, far more than the 24 bits of the result need.
-/

namespace Sys2Proof.Machine.Lut

/-! ### Sines in fixed point -/

/-- The fraction bits of a fixed-point number. -/
def fracBits : Nat := 128

/-- The fixed-point number 1. -/
def one : Nat := 2 ^ fracBits

/-- `π/2` in fixed point, rounded down. -/
def halfPi : Nat := 0x1921fb54442d18469898cc51701b839a2

/-- The fixed-point product, rounded down. -/
def times (x y : Nat) : Nat := (x * y) >>> fracBits

/-- `1 - x²/(j(j+1)) · (1 - x²/((j+2)(j+3)) · (1 - ...))` with `terms` factors: the sine's Taylor series in nested form. -/
def series (xx : Nat) : Nat → Nat → Nat
  | 0, _ => one
  | terms + 1, j => one - times xx (series xx terms (j + 2)) / (j * (j + 1))

/-- The sine of a fixed-point angle in `[0, π/2]`. The first term left out is below 2^-137. -/
def sine (x : Nat) : Nat := times x (series (times x x) 20 2)

/-- `sin((π/2) · p/q)`, for `p ≤ q`. -/
def sineOf (p q : Nat) : Nat := sine (halfPi * p / q)

/-- `cos((π/2) · p/q)`, for `p ≤ q`: exactly 0 where `p = q`. -/
def cosineOf (p q : Nat) : Nat := sineOf (q - p) q

/-- `rn32` of a fixed-point number, negated if `neg` (R140): `v * 2^-128 = (v * 2^72) * 2^-(149 + 51)`. -/
def entry (neg : Bool) (v : Nat) : F32 := F32.round neg (v <<< 72) 51

/-! ### The twiddle tables, for block size `n = 2^e` -/

/-- `M = n/4` (00_scope.md R17). -/
def fftSize (e : Nat) : Nat := 2 ^ (e - 2)

/-- `ROTC[m] = cos(2π(m + 1/8)/n)` (R141): a quarter turn times `(8m + 1)/(2n)`. -/
def rotc (e m : Nat) : F32 := entry false (cosineOf (8 * m + 1) (2 * 2 ^ e))

/-- `ROTS[m] = sin(2π(m + 1/8)/n)` (R141). -/
def rots (e m : Nat) : F32 := entry false (sineOf (8 * m + 1) (2 * 2 ^ e))

/-- `TWC[k] = cos(2πk/M)` (R142): a quarter turn times `4k/M`, and beyond the quarter turn minus the sine of what is beyond. -/
def twc (e k : Nat) : F32 :=
  let M := fftSize e
  if 4 * k ≤ M then entry false (cosineOf (4 * k) M) else entry true (sineOf (4 * k - M) M)

/-- `TWS[k] = sin(2πk/M)` (R142): beyond the quarter turn the sine of the supplement. -/
def tws (e k : Nat) : F32 :=
  let M := fftSize e
  if 4 * k ≤ M then entry false (sineOf (4 * k) M) else entry false (sineOf (2 * M - 4 * k) M)

/-- `bitrev_b(i)` (R143): bit `b-1-t` of the result is bit `t` of `i`. -/
def bitrev : Nat → Nat → Nat
  | 0, _ => 0
  | b + 1, i => (i % 2) * 2 ^ b + bitrev b (i / 2)

/-! ### The window shapes -/

/-- `WIN[k] = sin((π/2) · sin²(((k + 1/2)/L) · (π/2)))`, for slope length `L` (R146). -/
def win (L k : Nat) : F32 :=
  let s := sineOf (2 * k + 1) (2 * L)
  entry false (sine (times halfPi (times s s)))

/-! ### The entries by name -/

/-- The real numbers that the tables hold (R141, R142, R146), by name: `e` is the exponent of the block size and `L` the slope length. -/
inductive Entry where
  /-- `cos(2π(m + 1/8)/2^e)` -/
  | rotc (e m : Nat)
  /-- `sin(2π(m + 1/8)/2^e)` -/
  | rots (e m : Nat)
  /-- `cos(2πk/M)`, `M = 2^e/4` -/
  | twc (e k : Nat)
  /-- `sin(2πk/M)`, `M = 2^e/4` -/
  | tws (e k : Nat)
  /-- `sin((π/2) · sin²(((k + 1/2)/L) · (π/2)))` -/
  | win (L k : Nat)
deriving DecidableEq, Repr

/-- The entries whose real number is exactly 0: `sin 0`, and the cosine of a quarter turn (R142). -/
def Entry.isZero : Entry → Bool
  | .twc e k => 4 * k = fftSize e
  | .tws _ k => k = 0
  | _ => false

/-- `rn32` of an entry's real number: the default of `LUT_VALUES` (R140). -/
def rounded : Entry → F32
  | .rotc e m => rotc e m
  | .rots e m => rots e m
  | .twc e k => twc e k
  | .tws e k => tws e k
  | .win L k => win L k

end Sys2Proof.Machine.Lut
end

