-- ==== Sys2Proof/Machine/Pcm.lean ====
section
/-!
DEFINITION. The conversion of a binary32 sample to signed 16-bit PCM (42_window_ola.md R196): the spec's default of the parameter
`PCM_CONVERT` (00_scope.md R10; log 6).
-/

namespace Sys2Proof.Machine

/-- The value 32768.0, in units of 2^-149. -/
def F32.pcmScale : F32 := .fin false (2 ^ 164)

/-- Saturate to the signed 16-bit range (R196). -/
def saturate16 (r : Int) : Int :=
  if r > 32767 then 32767 else if r < -32768 then -32768 else r

/-- `PCM_CONVERT` (R196): a NaN gives 0; otherwise scale by 32768, round to the nearest integer with ties to even, and saturate. -/
def pcmConvert (x : F32) : Int :=
  if x.isNaN then 0
  else
    match x.mul F32.pcmScale with
    | .nan .. => 0
    | .inf neg => if neg then -32768 else 32767
    | .fin neg mag =>
      let r : Int := F32.roundShift mag 149
      saturate16 (if neg then -r else r)

/-- A sample as `PCM` stores it: two's complement, 16 bits (10_state.md R52). -/
def pcmSample (x : F32) : BitVec 16 := BitVec.ofInt 16 (pcmConvert x)

/-- The two bytes of a sample in increasing offsets (20_memory.md R72, R78). -/
def bytesOfSample (v : BitVec 16) : List Byte := [v.extractLsb' 0 8, v.extractLsb' 8 8]

end Sys2Proof.Machine
end

