-- ==== Sys2Proof/Machine/Transform.lean ====
section
/-!
DEFINITION. The butterfly datapath, the spec's default `IMDCT_IMPL` (41_imdct.md R164 to R170; log 4). It is written once over an arithmetic,
so that the same six steps can be read over binary32, which is the machine, and over the real numbers, which is the reference the spec
derives it from (R172).
-/

namespace Sys2Proof.Machine

/-- The primitives the datapath uses (00_scope.md R15). -/
structure Arith (α : Type) where
  zero : α
  add : α → α → α
  sub : α → α → α
  mul : α → α → α
  neg : α → α

/-- The machine's arithmetic: binary32, each operation rounded once (R15). -/
def Arith.binary32 : Arith F32 where
  zero := F32.zero
  add := F32.add
  sub := F32.sub
  mul := F32.mul
  neg := F32.neg

/-- A complex number, or a pair of a cosine and a sine. -/
structure Cplx (α : Type) where
  re : α
  im : α
deriving DecidableEq, Repr

namespace Transform

variable {α : Type}

/-- The complex zero, which no index in range ever gives. -/
def czero (A : Arith α) : Cplx α := ⟨A.zero, A.zero⟩

/-- `x · (w.re - i·w.im)`: the multiplication of the pre-rotation (R165), of a butterfly (R167) and of the post-rotation (R168). -/
def rotate (A : Arith α) (x w : Cplx α) : Cplx α where
  re := A.add (A.mul x.re w.re) (A.mul x.im w.im)
  im := A.sub (A.mul x.im w.re) (A.mul x.re w.im)

/-- Complex sum. -/
def cadd (A : Arith α) (x y : Cplx α) : Cplx α := ⟨A.add x.re y.re, A.add x.im y.im⟩

/-- Complex difference. -/
def csub (A : Arith α) (x y : Cplx α) : Cplx α := ⟨A.sub x.re y.re, A.sub x.im y.im⟩

/-- The twiddle tables a transform of `2^b` complex points reads: the rotation factors, the FFT twiddle factors and the bit-reversal
indices of one bank. -/
structure Bank (α : Type) where
  rot : List (Cplx α)
  tw : List (Cplx α)
  br : List Nat
deriving DecidableEq, Repr

/-- Step 1, pre-rotation (R165): `z_m = X[2m] + i·X[N-1-2m]`, rotated by `ω_m`. -/
def preRotate (A : Arith α) (T : Bank α) (M : Nat) (X : List α) : List (Cplx α) :=
  (List.range M).map fun m =>
    rotate A ⟨X.getD (2 * m) A.zero, X.getD (2 * M - 1 - 2 * m) A.zero⟩ (T.rot.getD m (czero A))

/-- Step 2, the bit-reversal permutation (R166). -/
def permute (A : Arith α) (T : Bank α) (M : Nat) (v : List (Cplx α)) : List (Cplx α) :=
  (List.range M).map fun i => v.getD (T.br.getD i 0) (czero A)

/-- One pass of span `h` (R167): in each group of `2h` values, value `j` of the lower half and its partner in the upper half, multiplied by
twiddle `j`, give their sum and difference. Both are read before either is written. -/
def pass (A : Arith α) (h : Nat) (twiddles : List (Cplx α)) : Nat → List (Cplx α) → List (Cplx α)
  | 0, _ => []
  | groups + 1, v =>
    let u := v.take h
    let t := List.zipWith (rotate A) ((v.drop h).take h) twiddles
    List.zipWith (cadd A) u t ++ List.zipWith (csub A) u t ++ pass A h twiddles groups (v.drop (2 * h))

/-- The twiddles a pass of span `h` uses: `k = j · stride` for `j ∈ [0, h)` (R167). -/
def strided (A : Arith α) (T : Bank α) (h stride : Nat) : List (Cplx α) :=
  (List.range h).map fun j => T.tw.getD (j * stride) (czero A)

/-- Step 3, the radix-2 passes from span `h` on (R167); there are `M / (2h)` groups, which is also the stride. -/
def passes (A : Arith α) (T : Bank α) (M : Nat) : Nat → Nat → List (Cplx α) → List (Cplx α)
  | 0, _, v => v
  | count + 1, h, v =>
    let stride := M / (2 * h)
    passes A T M count (2 * h) (pass A h (strided A T h stride) stride v)

/-- Step 4, post-rotation (R168). -/
def postRotate (A : Arith α) (T : Bank α) (M : Nat) (v : List (Cplx α)) : List (Cplx α) :=
  (List.range M).map fun q => rotate A (v.getD q (czero A)) (T.rot.getD q (czero A))

/-- Step 5, unfolding to the DCT-IV vector (R169): `u[2q] = Zr[q]` and `u[N-1-2q] = -Zi[q]`, so that the odd element `2q + 1` comes from
`Z[M-1-q]`. -/
def dct4 (A : Arith α) (M : Nat) (Z : List (Cplx α)) : List α :=
  (List.range M).flatMap fun q =>
    [(Z.getD q (czero A)).re, A.neg (Z.getD (M - 1 - q) (czero A)).im]

/-- Step 6, unfolding to the block (R170), where `N/2 = M`: the second half of `u`, then all of `u` reversed and negated, then the first half
negated. -/
def unfoldBlock (A : Arith α) (M : Nat) (u : List α) : List α :=
  u.drop M ++ (u.reverse.map A.neg ++ (u.take M).map A.neg)

/-- The whole datapath for `M = 2^b` complex points (R164): `N = 2M` coefficients in, `n = 4M` samples out. -/
def imdct (A : Arith α) (T : Bank α) (b : Nat) (X : List α) : List α :=
  let M := 2 ^ b
  let v := preRotate A T M X
  let w := passes A T M b 1 (permute A T M v)
  unfoldBlock A M (dct4 A M (postRotate A T M w))

end Transform

end Sys2Proof.Machine
end

