-- ==== Sys2Proof/Machine/Params.lean ====
section
/-!
DEFINITION. The parameters that the spec's model takes as arguments (00_scope.md R10, 93_implementation_defined.md U4 to U7 and U9), with the
defaults the spec gives. Every operation that depends on one takes `P : Params` as its last argument, which is `Params.default` where none
is written. `ENGINE_BASE` is an argument of the address map (Machine/Operands.lean; log 9), and `NAN_RESULT` a constant without a body (Config.lean;
log 7).
-/

namespace Sys2Proof.Machine

/-- The parameters of R10. -/
structure Params where
  /-- `IMDCT_IMPL`: from the exponent of the block size, the tables of its bank and the `N` coefficients, the `n` samples (41_imdct.md R160,
  R171; log 4) -/
  imdctImpl : Nat → Transform.Bank F32 → List F32 → List F32
  /-- `IMDCT_TOL`: the bound on what `imdctImpl` may differ from the exact sum, from the block size and the coefficients' patterns; `none` is
  no bound (R171; log 13) -/
  imdctTol : Nat → List Word → Option Rat
  /-- `LUT_VALUES`: the binary32 value of each real LUT entry (40_setup.md R140; log 5) -/
  lutValues : Lut.Entry → F32
  /-- `PCM_CONVERT`: from binary32 to a signed 16-bit sample (42_window_ola.md R196; log 6) -/
  pcmConvert : F32 → BitVec 16
  /-- `BUS_ERROR_EFFECT`: what the host does after a bus error, from the error and the accesses it had still to make: `none` is the host's own
  fault, and `some` the accesses it goes on with (20_memory.md R74; log 10) -/
  busErrorEffect : Fault → List HostEvent → Option (List HostEvent)

/-- The spec's defaults (R10): the datapath of 41_imdct.md R164 to R170, correct rounding, the conversion of 42_window_ola.md R196, and a host
that faults. For `IMDCT_TOL` the spec gives none: a free value (log 13). -/
def Params.default : Params where
  imdctImpl := fun e T X => Transform.imdct Arith.binary32 T (e - 2) X
  imdctTol := Config.imdctTol
  lutValues := Lut.rounded
  pcmConvert := pcmSample
  busErrorEffect := fun _ _ => none

namespace Lut

/-! ### The words of the tables -/

/-- The word stored for an entry: `+0.0` where the real number is exactly 0, whatever `LUT_VALUES` is (40_setup.md R140). -/
def word (x : Entry) (P : Params := .default) : Word := if x.isZero then 0x00000000 else (P.lutValues x).toBits

/-- The words of a rotation table as a bank holds them, `ROTC[m]` before `ROTS[m]` (20_memory.md R79). -/
def rotWords (e : Nat) (P : Params := .default) : List Word :=
  (List.range (fftSize e)).flatMap fun m => [word (.rotc e m) P, word (.rots e m) P]

/-- The words of an FFT twiddle table, `TWC[k]` before `TWS[k]` (20_memory.md R79). -/
def twWords (e : Nat) (P : Params := .default) : List Word :=
  (List.range (fftSize e / 2)).flatMap fun k => [word (.twc e k) P, word (.tws e k) P]

/-- The words of a bit-reversal table, each index zero-extended (20_memory.md R79). -/
def brWords (e : Nat) : List Word :=
  (List.range (fftSize e)).map fun i => BitVec.ofNat 32 (bitrev (e - 2) i)

/-- The words of a window shape of slope length `L` (20_memory.md R80). -/
def winWords (L : Nat) (P : Params := .default) : List Word := (List.range L).map fun k => word (.win L k) P

end Lut

end Sys2Proof.Machine
end

