-- ==== Sys2Proof/Machine/Setup.lean ====
section
/-!
DEFINITION. `CONFIG` (40_setup.md R130 to R149): its checks, the two twiddle banks, the four window shapes, and the cleared RAMs.
-/

namespace Sys2Proof.Machine

/-- The exponents `CONFIG` accepts (R131). -/
def legalExponents (e0 e1 : Nat) : Bool :=
  Config.expMin ≤ e0 ∧ e0 ≤ Config.expMax ∧ Config.expMin ≤ e1 ∧ e1 ≤ Config.expMax ∧ e0 ≤ e1

/-- The error `CONFIG` raises, if any: the first check that fails, in the order of R130. -/
def configError? (b8 : Byte) (nch : Nat) : Option ErrCode :=
  if ¬ legalExponents (shortExp b8).toNat (longExp b8).toNat then some .malformedHeader
  else if nch = 0 then some .malformedHeader
  else if nch > Config.nchMax then some .unsupportedFeature
  else none

/-- Write one twiddle bank for block size `2^e` (R141 to R143). -/
def writeBank (f : BlockFlag) (e : Nat) (m : Memory) (P : Params := .default) : Memory :=
  ((m.writeWords (bankAddr f) (Lut.rotWords e P)).writeWords (bankAddr f + 0x4000) (Lut.twWords e P)).writeWords
    (bankAddr f + 0x6000) (Lut.brWords e)

/-- Write one window shape for blocks of sizes `2^ep` and `2^ec` (R145, R146). -/
def writeShape (pf cf : BlockFlag) (ep ec : Nat) (m : Memory) (P : Params := .default) : Memory :=
  m.writeWords (winAddr (shapeNumber pf cf) 0) (Lut.winWords (Overlap.slope { P := 2 ^ ep, C := 2 ^ ec }) P)

/-- Every RAM and LUT word after a successful `CONFIG`: the RAMs cleared (R133), the tables built, and the entries beyond the configured
sizes zero (R144, R149), which in a cleared memory are the ones no table names. -/
def setupMemory (e0 e1 : Nat) (P : Params := .default) : Memory :=
  let banks := writeBank .long e1 (writeBank .short e0 Memory.cleared P) P
  let first := writeShape .short .long e0 e1 (writeShape .short .short e0 e0 banks P) P
  writeShape .long .long e1 e1 (writeShape .long .short e1 e0 first P) P

/-- The state after a successful `CONFIG` (R130, R132). -/
def configure (b8 : Byte) (nch : Nat) (s : State) (P : Params := .default) : State :=
  { s with
    configRb := { e0 := shortExp b8, e1 := longExp b8, nch := BitVec.ofNat 4 nch }
    mem := setupMemory (shortExp b8).toNat (longExp b8).toNat P
    status := { s.status.forget with configured := true }
    outCount := 0 }

/-- `CONFIG b8, nch` (R130), for given parameters. -/
def execConfigWith (P : Params) (b8 : Byte) (nch : Nat) (s : State) : Host.Outcome State Fault Refusal :=
  match configError? b8 nch with
  | some code => .next (raiseError code (encode (.config b8 nch)) s)
  | none => .next (configure b8 nch s P)

/-- `CONFIG b8, nch` (R130). -/
def execConfig (b8 : Byte) (nch : Nat) (s : State) : Host.Outcome State Fault Refusal := execConfigWith .default b8 nch s

end Sys2Proof.Machine
end

