-- ==== Sys2Proof/Machine/Imdct.lean ====
section
/-!
DEFINITION. `IMDCT` (41_imdct.md R160 to R162): the inverse MDCT of one channel's coefficients, with the tables the LUT holds, into that
channel's block.
-/

namespace Sys2Proof.Machine

/-- Words in pairs, a real part or cosine before an imaginary part or sine (20_memory.md R79). -/
def pairsOfWords : List Word → List (Cplx F32)
  | a :: b :: rest => ⟨F32.ofBits a, F32.ofBits b⟩ :: pairsOfWords rest
  | _ => []

/-- What the transform of flag `f` reads of twiddle bank `f` (10_state.md R53, 20_memory.md R79). -/
def State.bank (s : State) (f : BlockFlag) : Transform.Bank F32 :=
  let M := 2 ^ s.passCount f
  { rot := pairsOfWords (s.mem.readWords (bankAddr f) (2 * M))
    tw := pairsOfWords (s.mem.readWords (bankAddr f + 0x4000) M)
    br := (s.mem.readWords (bankAddr f + 0x6000) M).map BitVec.toNat }

/-- `COEF[ch][0 .. N-1]`, all that the transform reads of `COEF` (R177). -/
def State.spectrum (s : State) (ch : Nat) (f : BlockFlag) : List F32 :=
  (s.mem.readWords (coefAddr ch 0) (s.spectrumSize f)).map F32.ofBits

/-- The `n` samples of a block, from what an `IMDCT_IMPL` returns: the engine stores exactly `n` (R160). The default returns that many. -/
def fitBlock : Nat → List F32 → List F32
  | 0, _ => []
  | n + 1, [] => F32.zero :: fitBlock n []
  | n + 1, y :: ys => y :: fitBlock n ys

/-- `IMDCT_IMPL(f, COEF[ch][0..N-1])` (R160, R164). -/
def State.transformed (s : State) (ch : Nat) (f : BlockFlag) (P : Params := .default) : List F32 :=
  fitBlock (s.blockSize f) (P.imdctImpl (s.exponent f) (s.bank f) (s.spectrum ch f))

/-- `BLK[ch][j] <- y[j]` for the whole block (R162). -/
def transformChannel (ch : Nat) (f : BlockFlag) (s : State) (P : Params := .default) : State :=
  { s with mem := s.mem.writeWords (blkAddr ch 0) ((s.transformed ch f P).map F32.toBits) }

/-- The error `IMDCT` raises, if any, in the order of R160 and R161. -/
def imdctError? (ch : Nat) (f : BlockFlag) (s : State) : Option ErrCode :=
  if ¬ s.status.configured then some .notConfigured
  else if s.nch ≤ ch then some .badChannel
  else if s.status.xfDone ≠ 0 ∧ s.status.xfFlag ≠ f then some .sequence
  else none

/-- `IMDCT c<ch>, <f>` (R160), for given parameters. -/
def execImdctWith (P : Params) (ch : Nat) (f : BlockFlag) (s : State) : Host.Outcome State Fault Refusal :=
  match imdctError? ch f s with
  | some code => .next (raiseError code (encode (.imdct ch f)) s)
  | none =>
    let t := transformChannel ch f s P
    .next { t with status := t.status.markTransformed ch f }

/-- `IMDCT c<ch>, <f>` (R160). -/
def execImdct (ch : Nat) (f : BlockFlag) (s : State) : Host.Outcome State Fault Refusal := execImdctWith .default ch f s

end Sys2Proof.Machine
end

