-- ==== Sys2Proof/Machine/WindowOla.lean ====
section
/-!
DEFINITION. `OLA` and `BLOCK` (42_window_ola.md R190 to R200): the window slopes, the overlap-add, the interleaved PCM, and the retained block.
-/

namespace Sys2Proof.Machine

/-- What the overlap reads for one channel: the retained half block and the first half of the current block (R193). -/
structure ChannelRows where
  prev : Array F32
  blk : Array F32
deriving DecidableEq, Repr

/-- `PREV[c][0 .. P/2-1]` and `BLK[c][0 .. C/2-1]`. -/
def State.rows (s : State) (o : Overlap) (c : Nat) : ChannelRows where
  prev := ((s.mem.readWords (prevAddr c 0) (o.P / 2)).map F32.ofBits).toArray
  blk := ((s.mem.readWords (blkAddr c 0) (o.C / 2)).map F32.ofBits).toArray

/-- `WIN[s][0 .. L-1]` for the pair's shape (R193, 40_setup.md R145). -/
def State.slopeTable (s : State) (pf cf : BlockFlag) : Array F32 :=
  ((s.mem.readWords (winAddr (shapeNumber pf cf) 0) (s.overlap pf cf).slope).map F32.ofBits).toArray

/-- `olaSample` (R194): the previous block alone, then the falling slope times the previous block plus the rising slope times the current
one, then the current block alone. -/
def olaSample (o : Overlap) (win : Array F32) (r : ChannelRows) (t : Nat) : F32 :=
  if t < o.first then r.prev.getD t F32.zero
  else if t < o.past then
    let k := t - o.first
    let falling := win.getD (o.slope - 1 - k) F32.zero
    let rising := win.getD k F32.zero
    ((r.prev.getD t F32.zero).mul falling).add ((r.blk.getD (o.current t) F32.zero).mul rising)
  else r.blk.getD (o.current t) F32.zero

/-- The samples of one overlap in the order `PCM` holds them: sample `t` of channel `c` at index `t * NCH + c` (R195). -/
def State.outputSamples (s : State) (pf cf : BlockFlag) (P : Params := .default) : List (BitVec 16) :=
  let o := s.overlap pf cf
  let win := s.slopeTable pf cf
  let rows := (List.range s.nch).map (s.rows o)
  (List.range o.count).flatMap fun t => rows.map fun r => P.pcmConvert (olaSample o win r t)

/-- The output step (R190, R192, R195): nothing but `OUT_COUNT <- 0` on a first packet, and the samples and their count otherwise. -/
def emitPcm (cf : BlockFlag) (s : State) (P : Params := .default) : State :=
  if s.status.prevValid then
    let pf := s.status.prevFlag
    { s with
      mem := s.mem.writeBytes (pcmAddr 0) ((s.outputSamples pf cf P).flatMap bytesOfSample)
      outCount := BitVec.ofNat 13 (s.overlap pf cf).count }
  else { s with outCount := 0 }

/-- `PREV[c][i] <- BLK[c][C/2 + i]` for `i ∈ [0, C/2)` (R197). -/
def retainChannel (C : Nat) (m : Memory) (c : Nat) : Memory :=
  m.writeBytes (prevAddr c 0) (m.readBytes (blkAddr c (C / 2)) (4 * (C / 2)))

/-- Retention and the end of the packet (R197). -/
def retainBlocks (cf : BlockFlag) (s : State) : State :=
  { s with
    mem := (List.range s.nch).foldl (retainChannel (s.blockSize cf)) s.mem
    status := s.status.endPacket cf }

/-- `olaCore` (R190). -/
def olaCore (s : State) (P : Params := .default) : State :=
  let cf := s.status.xfFlag
  retainBlocks cf (emitPcm cf s P)

/-- The error `OLA` raises, if any, in the order of R190 and R191. -/
def olaError? (s : State) : Option ErrCode :=
  if ¬ s.status.configured then some .notConfigured
  else if s.status.xfDone.toNat ≠ s.allChannels then some .sequence
  else none

/-- `OLA` (R190), for given parameters. -/
def execOlaWith (P : Params) (s : State) : Host.Outcome State Fault Refusal :=
  match olaError? s with
  | some code => .next (raiseError code (encode .ola) s)
  | none => .next (olaCore s P)

/-- `OLA` (R190). -/
def execOla (s : State) : Host.Outcome State Fault Refusal := execOlaWith .default s

/-- Every configured channel's transform, in channel order, and the bookkeeping of a whole packet (R200). -/
def transformAll (f : BlockFlag) (s : State) (P : Params := .default) : State :=
  let t := (List.range s.nch).foldl (fun s c => transformChannel c f s P) s
  { t with status := t.status.markAll t.allChannels f }

/-- `BLOCK <f>` (R200), for given parameters. -/
def execBlockWith (P : Params) (f : BlockFlag) (s : State) : Host.Outcome State Fault Refusal :=
  if ¬ s.status.configured then .next (raiseError .notConfigured (encode (.block f)) s)
  else .next (olaCore (transformAll f s P) P)

/-- `BLOCK <f>` (R200). -/
def execBlock (f : BlockFlag) (s : State) : Host.Outcome State Fault Refusal := execBlockWith .default f s

end Sys2Proof.Machine
end

