-- ==== Sys2Proof/Machine/Dispatch.lean ====
section
/-! DEFINITION. One arm per command: the command's meaning. Errors that decoding finds, and commands ignored while `FAILED` = 1, never come
here: Machine/Issue.lean decides them (30_encoding.md R110, 60_exceptions.md R254). -/

namespace Sys2Proof.Machine

def exec (i : Instr) (s : State) : Host.Outcome State Fault Refusal :=
  match i with
  | .nop => Sys2Proof.Machine.execNop s
  | .config b8 nch => Sys2Proof.Machine.execConfig b8 nch s
  | .zeroCoef ch => Sys2Proof.Machine.execZeroCoef ch s
  | .zeroAll => Sys2Proof.Machine.execZeroAll s
  | .imdct ch f => Sys2Proof.Machine.execImdct ch f s
  | .ola => Sys2Proof.Machine.execOla s
  | .block f => Sys2Proof.Machine.execBlock f s
  | .restart => Sys2Proof.Machine.execRestart s
  | .softReset => Sys2Proof.Machine.execSoftReset s

end Sys2Proof.Machine
end

