-- ==== Sys2Proof/Machine/Issue.lean ====
section
/-!
DEFINITION. The engine's side of one host event: reading and writing the aperture (20_memory.md R70 to R83), issuing a command word
(30_encoding.md R110, 60_exceptions.md R254, 10_state.md R37), and the hardware reset (70_reset_and_hazards.md R280). What commands do is the
argument `run`, and what the host does after a bus error is the argument `effect` (the parameter `BUS_ERROR_EFFECT`, 00_scope.md R10): they are
`exec` and the spec's default where none is written.
-/

namespace Sys2Proof.Machine

/-- The word a legal read returns (R76 to R81; 10_state.md R33): a register, or the word of a RAM or LUT window. A read changes nothing
(R83). -/
def State.readAperture (s : State) (off : Offset) : Word :=
  match regionOf off with
  | .registers => s.readRegister off
  | _ => s.mem.readWord off.toNat

/-- What reads have returned so far, with one more (log 2). -/
def State.answer (s : State) (v : Word) : State := { s with reads := s.reads ++ [v] }

/-- Whether a word written to `CMD` is executed: always while `FAILED` = 0, and only the exact word of `SOFT_RESET` while `FAILED` = 1
(60_exceptions.md R254). -/
def State.accepts (s : State) (w : Word) : Bool := ¬ s.status.failed ∨ w = encode .softReset

/-- The execution of an accepted word (R110): the decoded command's meaning, or `ILLEGAL_CMD` for a word that spells none. -/
def execWord (w : Word) (s : State) (run : Instr → State → Host.Outcome State Fault Refusal := exec) :
    Host.Outcome State Fault Refusal :=
  match decode w with
  | .ok i => run i s
  | .error _ => .next (raiseError .illegalCmd w s)

/-- `polls` reads of `STATUS` (10_state.md R37). -/
def State.pollStatus (s : State) (polls : Nat) : State :=
  { s with reads := s.reads ++ List.replicate polls s.status.word }

/-- A command is accepted: `BUSY <- 1` (R37). -/
def State.accept (s : State) : State := { s with status := { s.status with busy := true } }

/-- A command completes: `BUSY <- 0` (R37). -/
def State.complete (s : State) : State := { s with status := { s.status with busy := false } }

/-- The completion of whatever a command's execution answered. -/
def completed : Host.Outcome State Fault Refusal → Host.Outcome State Fault Refusal
  | .next s => .next s.complete
  | .fault r => .fault r
  | .refused r => .refused r

/-- A 32-bit write of `CMD` (10_state.md R35, R37; 30_encoding.md R110). An accepted command sets `BUSY`, runs as one atomic transition, and
clears `BUSY`; the `STATUS` reads placed during it see `BUSY` = 1 and every other field as it was before (log 3). A word that is
ignored changes nothing (60_exceptions.md R254), and the reads placed after it see an idle engine (log 19). -/
def issue (w : Word) (polls : Nat) (s : State) (run : Instr → State → Host.Outcome State Fault Refusal := exec) :
    Host.Outcome State Fault Refusal :=
  if s.accepts w then completed (execWord w (s.accept.pollStatus polls) run)
  else .next (s.pollStatus polls)

/-- The offset of `CMD` (10_state.md R33). -/
def cmdOffset : Offset := 0x004

/-- A legal write that is not of `CMD` (R75, R76): `COEF` stores the word whatever its pattern, and every other place ignores it. -/
def State.writeAperture (s : State) (off : Offset) (v : Word) : State :=
  match regionOf off with
  | .coef => { s with mem := s.mem.writeWords off.toNat [v] }
  | _ => s

/-- A bus error changes no engine state (R74): the host faults, or goes on with other accesses (`BUS_ERROR_EFFECT`; log 10). Where it faults,
nothing that stands behind the access is performed, a hardware reset among it, which is the model's choice (DESIGN CHOICE, log 12). -/
def busErrorOutcome (r : Fault) (s : State)
    (effect : Fault → List HostEvent → Option (List HostEvent) := Params.default.busErrorEffect) :
    Host.Outcome State Fault Refusal :=
  match effect r s.pending with
  | none => .fault r
  | some rest => .next { s with pending := rest }

/-- One event of the outside world; `s.pending` is what the host does after it. -/
def perform (e : HostEvent) (s : State) (run : Instr → State → Host.Outcome State Fault Refusal := exec)
    (effect : Fault → List HostEvent → Option (List HostEvent) := Params.default.busErrorEffect) :
    Host.Outcome State Fault Refusal :=
  match e with
  | .read off width =>
    match busError? off width with
    | some r => busErrorOutcome r s effect
    | none => .next (s.answer (s.readAperture off))
  | .write off width v =>
    match busError? off width with
    | some r => busErrorOutcome r s effect
    | none => if off = cmdOffset then issue v 0 s run else .next (s.writeAperture off v)
  | .command w polls => issue w polls s run
  | .hardReset => .next (hardwareReset s)
  | .otherMaster => .refused .secondMaster

/-- The next event the host has asked for, in issue order (20_memory.md R84); with none left the engine waits (70_reset_and_hazards.md
R280, 60_exceptions.md R264; log 1). -/
def performNext (s : State) (run : Instr → State → Host.Outcome State Fault Refusal := exec)
    (effect : Fault → List HostEvent → Option (List HostEvent) := Params.default.busErrorEffect) :
    Host.Outcome State Fault Refusal :=
  match s.pending with
  | [] => .next s
  | e :: rest => perform e { s with pending := rest } run effect

/-- The host event that writes a table row's word to `CMD`. -/
def tableWordEvent (nbits w : Nat) : HostEvent := .command (BitVec.ofNat 32 (w % 2 ^ nbits)) 0

end Sys2Proof.Machine
end

