-- ==== Sys2Proof/Machine/Parametric.lean ====
section
/-!
DEFINITION. The commands for given values of the parameters of 00_scope.md R10. `exec` of Machine/Dispatch.lean is this at the spec's defaults
(`exec_eq_execWith` in Laws/Step.lean).
-/

namespace Sys2Proof.Machine

/-- The meaning of every command, for given parameters. -/
def execWith (P : Params) (i : Instr) (s : State) : Host.Outcome State Fault Refusal :=
  match i with
  | .nop => execNop s
  | .config b8 nch => execConfigWith P b8 nch s
  | .zeroCoef ch => execZeroCoef ch s
  | .zeroAll => execZeroAll s
  | .imdct ch f => execImdctWith P ch f s
  | .ola => execOlaWith P s
  | .block f => execBlockWith P f s
  | .restart => execRestart s
  | .softReset => execSoftReset s

end Sys2Proof.Machine
end

