-- ==== Sys2Proof/Machine/Step.lean ====
section
/-! DEFINITION. One step of the machine: the next event of the outside world is performed, a command being one atomic transition
(00_scope.md R7). -/

namespace Sys2Proof.Machine

/-- One step (R7, 20_memory.md R84). -/
def step (s : State) : Host.Outcome State Fault Refusal := performNext s

/-- One step for given parameters of 00_scope.md R10; `step` is this at the spec's defaults. -/
def stepWith (P : Params) (s : State) : Host.Outcome State Fault Refusal := performNext s (execWith P) P.busErrorEffect

/-- The state whose next step runs one command word: the engine fetches nothing (10_state.md R32), so this is the host's write of that word
to `CMD`, put before whatever the host does next (log 1). -/
def State.withFetchWord (s : State) (nbits w : Nat) : State :=
  { s with pending := tableWordEvent nbits w :: s.pending }

end Sys2Proof.Machine
end

