-- ==== Sys2Proof/Machine/Platform.lean ====
section
/-!
DEFINITION. Several instances (20_memory.md R91, 60_exceptions.md R262): each has its own aperture, its own state with its own LUTs, and its own
host (20_memory.md R86). Plain data says whose host moves next (log 22).
-/

namespace Sys2Proof.Machine

/-- The state of instance number `unit` right after hardware reset: that of `State.reset`, with unspecified RAM and LUT contents of its own
(10_state.md R57, 20_memory.md R91). -/
def State.powerOn (unit : Nat) : State :=
  { State.reset with mem := { fill := .powerOn unit 0, cells := [] }, unit := unit }

/-- One instance of a platform. -/
structure Instance where
  /-- its `ENGINE_BASE` (00_scope.md R10, 20_memory.md R70) -/
  base : Nat
  /-- its whole state, and what its host has still to do and has been told -/
  engine : State
  /-- the fault its host took, after which no event of this instance is performed, neither an access nor a hardware reset (20_memory.md R74;
  DESIGN CHOICE, log 10, 22) -/
  hostFault : Option Fault
deriving DecidableEq, Repr

/-- The instances, by number, and whose hosts perform the next accesses, oldest first. -/
structure Platform where
  instances : List Instance
  schedule : List Nat
deriving DecidableEq, Repr

/-- Instances with the given `ENGINE_BASE`s right after hardware reset, from number `unit` on. -/
def instancesFrom : Nat → List Nat → List Instance
  | _, [] => []
  | unit, base :: rest => { base := base, engine := State.powerOn unit, hostFault := none } :: instancesFrom (unit + 1) rest

/-- The platform with the given `ENGINE_BASE`s right after hardware reset. -/
def Platform.reset (bases : List Nat) : Platform := { instances := instancesFrom 0 bases, schedule := [] }

/-! ### Steps -/

/-- The next access of one instance's host, for given parameters of 00_scope.md R10. A host that has faulted makes none,
and nothing else that stands behind the faulting access is performed either, a hardware reset (70_reset_and_hazards.md R280) among it: the spec
leaves open whether a reset reaches such an instance, and this is the model's choice (DESIGN CHOICE, log 22). A platform on which it does is
a value of `BUS_ERROR_EFFECT` that goes on with the reset. -/
def Instance.stepWith (P : Params) (i : Instance) : Host.Outcome Instance Empty Refusal :=
  match i.hostFault with
  | some _ => .next i
  | none =>
    match Sys2Proof.Machine.stepWith P i.engine with
    | .next t => .next { i with engine := t }
    | .fault r => .next { i with hostFault := some r }
    | .refused r => .refused r

/-- One step of the platform: the host whose turn it is makes its next access. The fault of one host stops no other (R91). -/
def Platform.stepWith (P : Params) (p : Platform) : Host.Outcome Platform Empty Refusal :=
  match p.schedule with
  | [] => .next p
  | k :: rest =>
    match p.instances[k]? with
    | none => .next { p with schedule := rest }
    | some i =>
      match i.stepWith P with
      | .next j => .next { instances := p.instances.set k j, schedule := rest }
      | .fault r => .fault r
      | .refused r => .refused r

/-- `n` steps of one instance. -/
def Instance.runWith (P : Params) : Nat → Instance → Host.Outcome Instance Empty Refusal
  | 0, i => .next i
  | n + 1, i =>
    match i.stepWith P with
    | .next j => Instance.runWith P n j
    | .fault r => .fault r
    | .refused r => .refused r

/-- `n` steps of the platform. -/
def Platform.runWith (P : Params) : Nat → Platform → Host.Outcome Platform Empty Refusal
  | 0, p => .next p
  | n + 1, p =>
    match p.stepWith P with
    | .next q => Platform.runWith P n q
    | .fault r => .fault r
    | .refused r => .refused r

/-! ### Accesses by host address -/

/-- An access of `width` bytes as a host makes it, at a host address (R70). -/
inductive HostAccess where
  | read (address width : Nat)
  | write (address width : Nat) (value : Word)
deriving DecidableEq, Repr

/-- The address of an access. -/
def HostAccess.address : HostAccess → Nat
  | .read address _ => address
  | .write address _ _ => address

/-- The event an access is for the instance whose aperture it falls in, at an offset. -/
def HostAccess.event (off : Offset) : HostAccess → HostEvent
  | .read _ width => .read off width
  | .write _ width value => .write off width value

/-- The instance whose aperture a host address lies in, and the offset there (R70, R91). -/
def locate? (address : Nat) : List Instance → Option (Nat × Offset)
  | [] => none
  | i :: rest =>
    match offsetOfHost? i.base address with
    | some off => some (0, off)
    | none => (locate? address rest).map fun (k, off) => (k + 1, off)

/-- One more event for an instance. -/
def Instance.enqueue (e : HostEvent) (i : Instance) : Instance :=
  { i with engine := { i.engine with pending := i.engine.pending ++ [e] } }

/-- A host access, to be made after those already asked for: it goes to the instance whose aperture it falls in, and an access to no aperture
reaches no engine (R70; log 9). -/
def Platform.request (p : Platform) (a : HostAccess) : Platform :=
  match locate? a.address p.instances with
  | none => p
  | some (k, off) =>
    { instances := p.instances.modify k (Instance.enqueue (a.event off)), schedule := p.schedule ++ [k] }

end Sys2Proof.Machine
end

