-- ==== Sys2Proof/Safety.lean ====
section
/-!
DEFINITION. The terms claims are stated in: the RAM arrays of 10_state.md read through the byte memory, the invariants of R43 and R58, what
the LUT storage holds while the engine is configured, the invariants of several instances, and good and bad runs
(70_reset_and_hazards.md R293).
-/

namespace Sys2Proof.Machine

/-! ### The RAM arrays of 10_state.md R49 to R54 -/

/-- `COEF[c][k]` -/
def State.coefWord (s : State) (c k : Nat) : Word := s.mem.readWord (coefAddr c k)
/-- `BLK[c][j]` -/
def State.blkWord (s : State) (c j : Nat) : Word := s.mem.readWord (blkAddr c j)
/-- `PREV[c][i]` -/
def State.prevWord (s : State) (c i : Nat) : Word := s.mem.readWord (prevAddr c i)
/-- `WIN[s][k]` of the shape of a pair of flags -/
def State.winWord (s : State) (pf cf : BlockFlag) (k : Nat) : Word := s.mem.readWord (winAddr (shapeNumber pf cf) k)
/-- `PCM[i]` -/
def State.pcm (s : State) (i : Nat) : BitVec 16 := s.mem.readByte (pcmAddr i + 1) ++ s.mem.readByte (pcmAddr i)

/-- Offset `a` lies in the window of a RAM or LUT (20_memory.md R71). -/
abbrev InRam (a : Nat) : Prop :=
  (0x10000 ≤ a ∧ a < 0x30000) ∨ (0x40000 ≤ a ∧ a < 0xB0000) ∨ (0xC0000 ≤ a ∧ a < 0xE0000)

/-! ### Invariants -/

/-- What R43 says of `CONFIG_RB` while the engine is configured: `6 ≤ E[0] ≤ E[1] ≤ 13` and `1 ≤ NCH ≤ 8`. -/
abbrev State.ConfigLegal (s : State) : Prop :=
  6 ≤ s.exponent .short ∧ s.exponent .short ≤ s.exponent .long ∧ s.exponent .long ≤ 13 ∧ 1 ≤ s.nch ∧ s.nch ≤ 8

/-- The invariants of R58, with those of R43, R37 and R47 and the memory's canonical form. -/
structure State.Inv (s : State) : Prop where
  /-- the memory is canonical -/
  memWf : s.mem.Wf
  /-- no command is executing between two steps (R37) -/
  idle : s.status.busy = false
  /-- R43, configured -/
  legal : s.status.configured = true → s.ConfigLegal
  /-- 40_setup.md R133: after a `CONFIG` no RAM or LUT word is unspecified -/
  specified : s.status.configured = true → s.mem.fill = .zero
  /-- R58 (a) -/
  unconfigured : s.status.configured = false →
    s.status.prevValid = false ∧ s.status.xfDone = 0 ∧ s.status.xfFlag = .short ∧ s.configRb = ConfigRb.reset ∧ s.outCount = 0
  /-- R58 (b) -/
  doneConfigured : ∀ c, s.status.xfDone.getLsbD c = true → c < s.nch
  /-- R58 (c) -/
  noPacket : s.status.xfDone = 0 → s.status.xfFlag = .short
  /-- R58 (d) -/
  failedIffErr : s.status.failed = false ↔ s.status.err = .none
  /-- R58 (e) -/
  outTotal : s.outTotal.toNat = s.outCount.toNat * s.nch
  /-- R58 (f) -/
  outCount : s.outCount.toNat = 0 ∨ ∃ a b, s.outCount.toNat = s.blockSize a / 4 + s.blockSize b / 4
  /-- R58 (g) -/
  noRetained : s.status.prevValid = false → s.status.prevFlag = .short
  /-- R47: `ERR_CMD` is written only with `ERR` -/
  errCmd : s.status.failed = false → s.errCmd = 0

/-- While the engine is configured, the LUT storage holds what the last `CONFIG` built (40_setup.md R134), by the values of `LUT_VALUES`. -/
def State.LutBuilt (s : State) (P : Params := .default) : Prop :=
  s.status.configured = true →
    ∀ a, 0x90000 ≤ a → a < 0xB0000 →
      s.mem.readByte a = (setupMemory (s.exponent .short) (s.exponent .long) P).readByte a

/-! ### Several instances (20_memory.md R91) -/

/-- What powers up in an instance's RAMs is its own: the free contents of its own last power-on. -/
def State.OwnPowerOn (s : State) : Prop := ∀ u g, s.mem.fill = .powerOn u g → u = s.unit ∧ g = s.resets

/-- Two apertures of 1 MiB share no host address. -/
abbrev ApertureApart (b c : Nat) : Prop := b + Config.apertureBytes ≤ c ∨ c + Config.apertureBytes ≤ b

/-- The invariants of a platform: no two instances share an aperture or the number of their free values, and each instance meets its own
invariants. -/
structure Platform.Inv (p : Platform) : Prop where
  /-- each instance has its own aperture (R91) -/
  apertures : p.instances.Pairwise fun i j => ApertureApart i.base j.base
  /-- each instance has its own free values (log 22) -/
  units : p.instances.Pairwise fun i j => i.engine.unit ≠ j.engine.unit
  /-- each instance's registers and memory meet R43 and R58 -/
  engines : ∀ i ∈ p.instances, i.engine.Inv
  /-- while configured, each instance's LUT storage is what its own last `CONFIG` built (40_setup.md R134) -/
  luts : ∀ i ∈ p.instances, i.engine.LutBuilt
  /-- each instance's unspecified contents are its own (R90, R91) -/
  contents : ∀ i ∈ p.instances, i.engine.OwnPowerOn

/-! ### Runs (70_reset_and_hazards.md R293) -/

/-- What a run of all the host's pending events ends in. -/
def runAll (s : State) : Host.Outcome State Fault Refusal := core.run s.pending.length s

/-- A run that is not bad: it took no bus error and does not end `FAILED` (R293). -/
def GoodRun (s : State) : Prop := ∃ t, runAll s = .next t ∧ t.status.failed = false

/-- Commands one after the other, each on the state the one before left, as long as each answers a next state. -/
def execAll : List Instr → State → Host.Outcome State Fault Refusal
  | [], s => .next s
  | i :: rest, s =>
    match exec i s with
    | .next t => execAll rest t
    | .fault r => .fault r
    | .refused r => .refused r

end Sys2Proof.Machine
end

