-- ==== Sys2Proof/Certificates/Slice0/Reference.lean ====
section
/-!
DEFINITION. What the statements compare the machine with: the rows of the opcode table (30_encoding.md R103), the error each command raises
by the check order of 60_exceptions.md R253, the values of binary32 data and correct rounding (00_scope.md R15), and the real-valued
reference of the transform (41_imdct.md R163, R172).
-/

namespace Sys2Proof.Reference

open Sys2Proof.Machine

/-! ### The opcode table (30_encoding.md R103) -/

/-- The match and mask of the row of each mnemonic (R103). -/
def rowOf : Instr → Word × Word
  | .nop => (0x00000000, 0xFFFFFFFF)
  | .config _ _ => (0x00000001, 0xFFF000FF)
  | .zeroCoef _ => (0x00000002, 0xFFF0FFFF)
  | .zeroAll => (0x00000003, 0xFFFFFFFF)
  | .imdct _ _ => (0x00000004, 0xFFE0FFFF)
  | .ola => (0x00000005, 0xFFFFFFFF)
  | .block _ => (0x00000006, 0xFFEFFFFF)
  | .restart => (0x00000007, 0xFFFFFFFF)
  | .softReset => (0x0000000F, 0xFFFFFFFF)

/-- `W` selects the row when `W & mask = match` (R103). -/
def Selects (w : Word) (row : Word × Word) : Prop := w &&& row.2 = row.1

/-- The flag of a bit of a command word (00_scope.md R17). -/
def flagOfBit (b : Bool) : BlockFlag := if b then .long else .short

/-- The decode function as 30_encoding.md R107 writes it: bits by their numbers, `none` for `Illegal`. -/
def tableDecode (w : Word) : Option Instr :=
  let op := w.toNat % 256
  let arg8 := w.toNat / 2 ^ 8 % 256
  let arg4 := w.toNat / 2 ^ 16 % 16
  let above19 := w.toNat / 2 ^ 20
  let above20 := w.toNat / 2 ^ 21
  if op = 0x00 then (if w = 0x00000000 then some .nop else none)
  else if op = 0x01 then (if above19 = 0 then some (.config (BitVec.ofNat 8 arg8) arg4) else none)
  else if op = 0x02 then (if above19 = 0 ∧ arg8 = 0 then some (.zeroCoef arg4) else none)
  else if op = 0x03 then (if w = 0x00000003 then some .zeroAll else none)
  else if op = 0x04 then (if above20 = 0 ∧ arg8 = 0 then some (.imdct arg4 (flagOfBit (w.getLsbD 20))) else none)
  else if op = 0x05 then (if w = 0x00000005 then some .ola else none)
  else if op = 0x06 then (if above20 = 0 ∧ w.toNat / 2 ^ 8 % 2 ^ 12 = 0 then some (.block (flagOfBit (w.getLsbD 20))) else none)
  else if op = 0x07 then (if w = 0x00000007 then some .restart else none)
  else if op = 0x0F then (if w = 0x0000000F then some .softReset else none)
  else none

/-! ### Host accesses (20_memory.md R70 to R74) -/

/-- A legal access: 32 bits wide, aligned, and at a mapped offset (R71, R73). -/
abbrev LegalAccess (off : Offset) (width : Nat) : Prop :=
  width = 4 ∧ off.toNat % 4 = 0 ∧ (off.toNat < 0x100 ∨ InRam off.toNat)

/-- An event of one host that makes legal accesses. -/
def LegalEvent : HostEvent → Prop
  | .read off width => LegalAccess off width
  | .write off width _ => LegalAccess off width
  | .command _ _ => True
  | .hardReset => True
  | .otherMaster => False

/-! ### The check order (60_exceptions.md R253) -/

/-- The error a decoded command raises, if any: the first check of R253 that fails. -/
def firstError (i : Instr) (s : State) : Option ErrCode :=
  match i with
  | .nop | .softReset => none
  | .config b8 nch =>
    let e0 := (b8.extractLsb' 0 4).toNat
    let e1 := (b8.extractLsb' 4 4).toNat
    if ¬ (6 ≤ e0 ∧ e0 ≤ 13 ∧ 6 ≤ e1 ∧ e1 ≤ 13 ∧ e0 ≤ e1) then some .malformedHeader
    else if nch = 0 then some .malformedHeader
    else if 8 < nch then some .unsupportedFeature
    else none
  | .zeroAll | .block _ | .restart => if s.status.configured = false then some .notConfigured else none
  | .zeroCoef ch =>
    if s.status.configured = false then some .notConfigured
    else if s.nch ≤ ch then some .badChannel
    else none
  | .imdct ch f =>
    if s.status.configured = false then some .notConfigured
    else if s.nch ≤ ch then some .badChannel
    else if s.status.xfDone ≠ 0 ∧ s.status.xfFlag ≠ f then some .sequence
    else none
  | .ola =>
    if s.status.configured = false then some .notConfigured
    else if s.status.xfDone.toNat ≠ 2 ^ s.nch - 1 then some .sequence
    else none

/-- The error a command word raises, if any, decoding first (R253). -/
def wordError (w : Word) (s : State) : Option ErrCode :=
  match tableDecode w with
  | none => some .illegalCmd
  | some i => firstError i s

/-! ### The state around a command (10_state.md R37) -/

/-- The state a command word meets: the write is performed, `BUSY` is set, and the `STATUS` reads placed during the command have returned
`STATUS` as it was before, with `BUSY` = 1. -/
def begun (s : State) (rest : List HostEvent) (polls : Nat) : State :=
  let busy : Status := { s.status with busy := true }
  { s with pending := rest, status := busy, reads := s.reads ++ List.replicate polls busy.word }

/-- The state a completed command leaves: `BUSY` is cleared. -/
def ended (s : State) : State := { s with status := { s.status with busy := false } }

/-- Two states agree in everything but the memory. -/
def SameButMemory (s t : State) : Prop := t = { s with mem := t.mem }

/-! ### Memory -/

/-- Every byte outside the `len` bytes from `lo` on reads as before. -/
def SameOutside (lo len : Nat) (before after : Memory) : Prop :=
  ∀ a, a < lo ∨ lo + len ≤ a → after.readByte a = before.readByte a

/-- Every byte of offsets `lo` to `hi - 1` reads as before. -/
def SameWithin (lo hi : Nat) (before after : Memory) : Prop :=
  ∀ a, lo ≤ a → a < hi → after.readByte a = before.readByte a

/-! ### Binary32 data and correct rounding (00_scope.md R15) -/

/-- A finite datum. -/
def IsFinite : F32 → Prop
  | .fin _ _ => True
  | _ => False

/-- The value of a finite datum; 0 for the others. -/
def value : F32 → ℚ
  | .fin neg mag => (if neg then -1 else 1) * (mag : ℚ) / 2 ^ 149
  | _ => 0

/-- `x` is `rn32(r)`: the datum of some pattern, nearest to `r` among all finite ones and even where two are equally near; an infinity of
the sign of `r` where the nearest would be 2^128 or more. -/
def IsRounded (r : ℚ) : F32 → Prop
  | .nan _ _ => False
  | .inf neg => (2 : ℚ) ^ 128 - 2 ^ 103 ≤ |r| ∧ (neg = true ↔ r < 0)
  | .fin neg mag =>
    |r| < (2 : ℚ) ^ 128 - 2 ^ 103 ∧ (∃ w, F32.ofBits w = .fin neg mag) ∧
      ∀ w, IsFinite (F32.ofBits w) →
        |value (.fin neg mag) - r| ≤ |value (F32.ofBits w) - r| ∧
          (|value (.fin neg mag) - r| = |value (F32.ofBits w) - r| →
            value (F32.ofBits w) = value (.fin neg mag) ∨ (F32.fin neg mag).toBits.getLsbD 0 = false)

/-- The sign of a rounded result that is not zero before rounding: that of the exact result, even where it rounds to a zero. -/
def HasSignOf (r : ℚ) : F32 → Prop
  | .nan _ _ => True
  | .inf neg => neg = true ↔ r < 0
  | .fin neg _ => (r < 0 → neg = true) ∧ (0 < r → neg = false)

/-- A quiet NaN: the top bit of the fraction is 1. -/
def IsQuietNaN (x : F32) : Prop := ∃ s p, x = .nan s p ∧ p.getLsbD 22 = true

/-- `r` is the integer nearest to `v`, the even one where two are equally near. -/
def IsNearestEven (v : ℚ) (r : ℤ) : Prop :=
  |(r : ℚ) - v| ≤ 1 / 2 ∧ (|(r : ℚ) - v| = 1 / 2 → r % 2 = 0)

/-- The word is the pattern of the one finite datum nearest to the real number `r`: no other value is as near. -/
def StrictlyNearest (r : ℝ) (w : Word) : Prop :=
  IsFinite (F32.ofBits w) ∧
    ∀ v, IsFinite (F32.ofBits v) → value (F32.ofBits v) ≠ value (F32.ofBits w) →
      |((value (F32.ofBits w) : ℚ) : ℝ) - r| < |((value (F32.ofBits v) : ℚ) : ℝ) - r|

/-! ### The transform over the real numbers (41_imdct.md R163 to R172) -/

/-- The primitives over the real numbers. -/
noncomputable def realArith : Arith ℝ where
  zero := 0
  add := (· + ·)
  sub := (· - ·)
  mul := (· * ·)
  neg := (- ·)

/-- The tables of R141 to R143 without rounding, for `M = 2^b` complex points and block size `n = 4M`. -/
noncomputable def realBank (b : Nat) : Transform.Bank ℝ where
  rot := (List.range (2 ^ b)).map fun m =>
    ⟨Real.cos (2 * Real.pi * (m + 1 / 8) / (4 * 2 ^ b)), Real.sin (2 * Real.pi * (m + 1 / 8) / (4 * 2 ^ b))⟩
  tw := (List.range (2 ^ b / 2)).map fun k =>
    ⟨Real.cos (2 * Real.pi * k / 2 ^ b), Real.sin (2 * Real.pi * k / 2 ^ b)⟩
  br := (List.range (2 ^ b)).map (Lut.bitrev b)

/-- `Y[j]` of R163, for `n` samples from `n/2` coefficients. -/
noncomputable def directImdct (n : Nat) (X : List ℝ) (j : Nat) : ℝ :=
  ∑ k ∈ Finset.range (n / 2),
    X.getD k 0 * Real.cos (2 * Real.pi / n * (j + 1 / 2 + n / 4) * (k + 1 / 2))

/-! ### The datapath as 41_imdct.md R165 to R170 index it

Vectors are functions of their index. `M` is the FFT length, `N = 2M` and `n = 4M`. -/

section Datapath

variable {α : Type} (A : Arith α)

/-- R165 -/
def indexPreRotate (M : Nat) (X : Nat → α) (ω : Nat → Cplx α) (m : Nat) : Cplx α :=
  let a := X (2 * m)
  let b := X (2 * M - 1 - 2 * m)
  let c := (ω m).re
  let s := (ω m).im
  ⟨A.add (A.mul a c) (A.mul b s), A.sub (A.mul b c) (A.mul a s)⟩

/-- `t = x · (tc_k - i·ts_k)` of R167. -/
def twiddled (x w : Cplx α) : Cplx α :=
  ⟨A.add (A.mul x.re w.re) (A.mul x.im w.im), A.sub (A.mul x.im w.re) (A.mul x.re w.im)⟩

/-- One pass of span `h` (R167): index `i` is `base + j` or `base + j + h` of its butterfly, with `k = j · stride`. -/
def indexPass (M h : Nat) (W : Nat → Cplx α) (v : Nat → Cplx α) (i : Nat) : Cplx α :=
  let stride := M / (2 * h)
  let r := i % (2 * h)
  if r < h then
    let t := twiddled A (v (i + h)) (W (r * stride))
    ⟨A.add (v i).re t.re, A.add (v i).im t.im⟩
  else
    let t := twiddled A (v i) (W ((r - h) * stride))
    ⟨A.sub (v (i - h)).re t.re, A.sub (v (i - h)).im t.im⟩

/-- The passes of spans `h`, `2h`, `4h`, ... (R167). -/
def indexPasses (M : Nat) (W : Nat → Cplx α) : Nat → Nat → (Nat → Cplx α) → Nat → Cplx α
  | 0, _, v => v
  | count + 1, h, v => indexPasses M W count (2 * h) (indexPass A M h W v)

/-- R168 -/
def indexPostRotate (v ω : Nat → Cplx α) (q : Nat) : Cplx α := twiddled A (v q) (ω q)

/-- R169: `u[2q] = Zr[q]` and `u[N-1-2q] = -Zi[q]`. -/
def indexUnfold (M : Nat) (Z : Nat → Cplx α) (k : Nat) : α :=
  if k % 2 = 0 then (Z (k / 2)).re else A.neg (Z ((2 * M - 1 - k) / 2)).im

/-- R170, with `N/2 = M` and `3N/2 = 3M`. -/
def indexBlock (M : Nat) (u : Nat → α) (j : Nat) : α :=
  if j < M then u (j + M)
  else if j < 3 * M then A.neg (u (3 * M - 1 - j))
  else A.neg (u (j - 3 * M))

/-- The six steps of R164. -/
def indexImdct (b : Nat) (X : Nat → α) (ω W : Nat → Cplx α) (br : Nat → Nat) (j : Nat) : α :=
  let M := 2 ^ b
  let v := indexPreRotate A M X ω
  let w := indexPasses A M W b 1 (fun i => v (br i))
  indexBlock A M (indexUnfold A M (indexPostRotate A w ω)) j

end Datapath

/-! ### The overlap (42_window_ola.md R193, R194) -/

/-- `olaSample(c, t, pf, cf)` of R194, on the words of `PREV`, `BLK` and `WIN`. -/
def overlapSample (s : State) (pf cf : BlockFlag) (c t : Nat) : F32 :=
  let P := 2 ^ s.exponent pf
  let C := 2 ^ s.exponent cf
  let L := min P C / 2
  let s0 := P / 4 - L / 2
  let s1 := P / 4 + L / 2
  let prev := F32.ofBits (s.prevWord c t)
  let cur := F32.ofBits (s.blkWord c (t + C / 4 - P / 4))
  if t < s0 then prev
  else if t < s1 then
    (prev.mul (F32.ofBits (s.winWord pf cf (L - 1 - (t - s0))))).add (cur.mul (F32.ofBits (s.winWord pf cf (t - s0))))
  else cur

/-- `WIN` of R146 over the real numbers, for slope length `L`. -/
noncomputable def realWindow (L k : Nat) : ℝ :=
  Real.sin (Real.pi / 2 * Real.sin ((k + 1 / 2) / L * (Real.pi / 2)) ^ 2)

/-- The exponent of a block-size byte that a flag selects (40_setup.md R135). -/
def expOf (b8 : Byte) : BlockFlag → Nat
  | .short => b8.toNat % 16
  | .long => b8.toNat / 16

/-- The slope length of R145 for the sizes of a block-size byte. -/
def slopeOf (b8 : Byte) (pf cf : BlockFlag) : Nat := min (2 ^ expOf b8 pf) (2 ^ expOf b8 cf) / 2

/-- Every channel has been transformed in the packet, on a configured engine: when `OLA` raises no error (R191). -/
abbrev PacketComplete (s : State) : Prop :=
  s.status.configured = true ∧ s.status.xfDone.toNat = 2 ^ s.nch - 1

/-! ### The parameters `LUT_VALUES`, `IMDCT_IMPL` and `IMDCT_TOL` (00_scope.md R10, 41_imdct.md R171) -/

/-- The tables of one bank as `CONFIG` builds them for block size `2^e`, by the values of `LUT_VALUES` (40_setup.md R141 to R143). -/
def builtBank (e : Nat) (P : Params) : Transform.Bank F32 where
  rot := (List.range (2 ^ (e - 2))).map fun m => ⟨F32.ofBits (Lut.word (.rotc e m) P), F32.ofBits (Lut.word (.rots e m) P)⟩
  tw := (List.range (2 ^ (e - 2) / 2)).map fun k => ⟨F32.ofBits (Lut.word (.twc e k) P), F32.ofBits (Lut.word (.tws e k) P)⟩
  br := (List.range (2 ^ (e - 2))).map (Lut.bitrev (e - 2))

/-- `|y - Y|` is at most the bound, where there is one. -/
def Within (y : F32) (Y : ℝ) : Option Rat → Prop
  | none => True
  | some tol => IsFinite y ∧ |((value y : ℚ) : ℝ) - Y| ≤ ((tol : ℚ) : ℝ)

/-- `Y[j]` of R163 for `n` samples, from the patterns of the coefficients. -/
noncomputable def exactBlock (n : Nat) (X : List Word) (j : Nat) : ℝ :=
  directImdct n (X.map fun w => ((value (F32.ofBits w) : ℚ) : ℝ)) j

/-- R171: for every finite input of every legal block size, the `IMDCT_IMPL` returns binary32 data within `IMDCT_TOL` of the exact sum. -/
def MeetsTolerance (P : Params) : Prop :=
  ∀ e, 6 ≤ e → e ≤ 13 → ∀ X : List Word, X.length = 2 ^ e / 2 → (∀ w ∈ X, IsFinite (F32.ofBits w)) → ∀ j, j < 2 ^ e →
    ∃ w, (P.imdctImpl e (builtBank e P) (X.map F32.ofBits))[j]? = some (F32.ofBits w) ∧
      Within (F32.ofBits w) (exactBlock (2 ^ e) X j) (P.imdctTol (2 ^ e) X)

/-- A word that is a zero of either sign. -/
def IsZeroWord (w : Word) : Prop := w = 0x00000000 ∨ w = 0x80000000

end Sys2Proof.Reference
end

