-- ==== Sys2Proof/Machine/Assembler.lean ====
section
/-!
DEFINITION. The spec's assembler: the syntax of each command (30_encoding.md R108) and the expansion of the pseudo-commands and host
operations into host accesses (R109). The machine does not use it; it says what the spec's own notation stands for.
-/

namespace Sys2Proof.Machine.Assembler

/-- A non-negative decimal fraction with its sign, `± num / den`. -/
structure Decimal where
  neg : Bool
  num : Nat
  den : Nat
deriving DecidableEq, Repr

/-- The pseudo-commands and host operations of R109. -/
inductive Pseudo where
  | configSz (short long nch : Nat)
  | silent (f : BlockFlag)
  | packet (f : BlockFlag)
  | wrCoef (ch k : Nat) (value : Decimal)
  | rdPcm (w : Nat)
  | rdStatus
deriving DecidableEq, Repr

/-- One line of the assembler. -/
inductive Line where
  | blank
  | command (i : Instr)
  | pseudo (p : Pseudo)
deriving DecidableEq, Repr

/-! ### Expansion (R109) -/

/-- `MemWrite(0x004, 4, encode i)`: the host's issue of a command (30_encoding.md R110). -/
def issueEvent (i : Instr) : HostEvent := .write cmdOffset 4 (encode i)

/-- `log2` of a power of two. -/
def exactLog2? (n : Nat) : Option Nat := if 2 ^ n.log2 = n then some n.log2 else none

/-- `bits32(value)` (R109): the binary32 pattern nearest to a decimal value. Two more bits of quotient than the finest result needs and a
sticky bit for the remainder decide the rounding. -/
def bits32 (v : Decimal) : Word :=
  let q := (v.num <<< 150) / v.den
  let sticky := if (v.num <<< 150) % v.den = 0 then 0 else 1
  (F32.round v.neg (2 * q + sticky) 2).toBits

/-- `CONFIGSZ` (R109): refused unless both sizes are powers of two, and their exponents fit the nibbles of the packed byte (DEDUCED: `b8` is a
byte). -/
def configSz? (short long nch : Nat) : Option Instr := do
  let e0 ← exactLog2? short
  let e1 ← exactLog2? long
  if e0 < 16 ∧ e1 < 16 ∧ nch < arg4Values then some (.config (BitVec.ofNat 8 (e1 <<< 4 ||| e0)) nch) else none

/-- The host accesses a pseudo-command stands for, on an engine configured with `nch` channels (R109). -/
def expand (nch : Nat) : Pseudo → Option (List HostEvent)
  | .configSz short long n => (configSz? short long n).map fun i => [issueEvent i]
  | .silent f => some [issueEvent .zeroAll, issueEvent (.block f)]
  | .packet f => some ((List.range nch).map (fun c => issueEvent (.imdct c f)) ++ [issueEvent .ola])
  | .wrCoef ch k v =>
    if ch < Config.nchMax ∧ k < Config.coefDepth then
      some [.write (BitVec.ofNat 20 (coefAddr ch k)) 4 (bits32 v)]
    else none
  | .rdPcm w => if w < Config.pcmDepth / 2 then some [.read (BitVec.ofNat 20 (0x80000 + 4 * w)) 4] else none
  | .rdStatus => some [.read 0x008 4]

/-! ### Syntax (R108) -/

/-- Split at every occurrence of a character. -/
def splitAt (sep : Char) : List Char → List (List Char)
  | [] => [[]]
  | c :: cs =>
    match splitAt sep cs with
    | [] => [[c]]
    | w :: ws => if c = sep then [] :: w :: ws else (c :: w) :: ws

/-- A space or a tab. -/
def isBlank (c : Char) : Bool := c = ' ' ∨ c = '\t'

/-- Without blanks at both ends. -/
def trim (cs : List Char) : List Char := ((cs.dropWhile isBlank).reverse.dropWhile isBlank).reverse

/-- The value of a digit in base 16, of an upper-case character. -/
def digit? (c : Char) : Option Nat :=
  if '0' ≤ c ∧ c ≤ '9' then some (c.toNat - 48)
  else if 'A' ≤ c ∧ c ≤ 'F' then some (c.toNat - 55)
  else none

/-- A number in a base, from its digits. -/
def digits? (base : Nat) (acc : Nat) : List Char → Option Nat
  | [] => some acc
  | c :: cs =>
    match digit? c with
    | some d => if d < base then digits? base (acc * base + d) cs else none
    | none => none

/-- "Numbers are decimal or `0x` hexadecimal" (R108). -/
def number? : List Char → Option Nat
  | [] => none
  | ['0', 'X'] => none
  | '0' :: 'X' :: cs => digits? 16 0 cs
  | cs => digits? 10 0 cs

/-- `c<ch>` -/
def channel? : List Char → Option Nat
  | 'C' :: cs => number? cs
  | _ => none

/-- `short` or `long` -/
def flag? (cs : List Char) : Option BlockFlag :=
  if cs = "SHORT".toList then some .short
  else if cs = "LONG".toList then some .long
  else none

/-- A decimal value without a sign: digits, or digits on both sides of a point. -/
def unsigned? (cs : List Char) : Option Decimal :=
  match splitAt '.' cs with
  | [whole] => (digits? 10 0 whole).bind fun n => if whole = [] then none else some ⟨false, n, 1⟩
  | [whole, frac] => (digits? 10 0 (whole ++ frac)).bind fun n =>
      if whole = [] ∨ frac = [] then none else some ⟨false, n, 10 ^ frac.length⟩
  | _ => none

/-- A decimal value with an optional minus sign. -/
def decimal? : List Char → Option Decimal
  | '-' :: cs => (unsigned? cs).map fun v => { v with neg := true }
  | cs => unsigned? cs

/-- The line of a mnemonic and its operands. -/
def lineOf (mnemonic : List Char) (operands : List (List Char)) : Option Line :=
  match String.ofList mnemonic, operands with
  | "NOP", [] => some (.command .nop)
  | "CONFIG", [b, n] => do
    let b8 ← number? b
    let nch ← number? n
    if b8 < 256 ∧ nch < arg4Values then some (.command (.config (BitVec.ofNat 8 b8) nch)) else none
  | "ZERO_COEF", [c] => do
    let ch ← channel? c
    if ch < arg4Values then some (.command (.zeroCoef ch)) else none
  | "ZERO_ALL", [] => some (.command .zeroAll)
  | "IMDCT", [c, f] => do
    let ch ← channel? c
    let flag ← flag? f
    if ch < arg4Values then some (.command (.imdct ch flag)) else none
  | "OLA", [] => some (.command .ola)
  | "BLOCK", [f] => (flag? f).map fun flag => .command (.block flag)
  | "RESTART", [] => some (.command .restart)
  | "SOFT_RESET", [] => some (.command .softReset)
  | "CONFIGSZ", [a, b, n] => do return .pseudo (.configSz (← number? a) (← number? b) (← number? n))
  | "SILENT", [f] => (flag? f).map fun flag => .pseudo (.silent flag)
  | "PACKET", [f] => (flag? f).map fun flag => .pseudo (.packet flag)
  | "WRCOEF", [c, k, v] => do return .pseudo (.wrCoef (← channel? c) (← number? k) (← decimal? v))
  | "RDPCM", [w] => (number? w).map fun n => .pseudo (.rdPcm n)
  | "RDSTATUS", [] => some (.pseudo .rdStatus)
  | _, _ => none

/-- Assemble one line (R108): one command per line, case-insensitive, `;` beginning a comment. -/
def assemble (line : String) : Option Line :=
  let code := trim ((line.toList.takeWhile (· ≠ ';')).map Char.toUpper)
  if code = [] then some .blank
  else
    let mnemonic := code.takeWhile fun c => !isBlank c
    let rest := trim (code.dropWhile fun c => !isBlank c)
    lineOf mnemonic (if rest = [] then [] else (splitAt ',' rest).map trim)

end Sys2Proof.Machine.Assembler
end

