-- ==== Sys2Proof/Certificates/Slice0/Obligations.lean ====
section
/-!
DEFINITION. The statements about this machine, one definition each. Each docstring names the rules of the spec it formalises; OBLIGATIONS.json
says the same in words.
-/

open Sys2Proof Sys2Proof.Machine Sys2Proof.Reference

/-! ### Encoding (30_encoding.md) -/

/-- Words written out from R101 and R103 (95_test_vectors.md TV-D) decode to their commands, and three words with a stray bit or a reserved
opcode to none. -/
def Obligations.DecodeSpecWords : Prop :=
  decode 0x00000000 = .ok .nop ∧ decode 0x0002B801 = .ok (.config 0xB8 2) ∧ decode 0x00010002 = .ok (.zeroCoef 1) ∧
    decode 0x00000003 = .ok .zeroAll ∧ decode 0x00170004 = .ok (.imdct 7 .long) ∧ decode 0x00000005 = .ok .ola ∧
    decode 0x00100006 = .ok (.block .long) ∧ decode 0x00000007 = .ok .restart ∧ decode 0x0000000F = .ok .softReset ∧
    (decode 0x00100005).toOption = none ∧ (decode 0x00200004).toOption = none ∧ (decode 0x00000008).toOption = none

/-- R107: the decoder is the table's decode function, on every word, and executing an `Illegal` word raises `ILLEGAL_CMD`. -/
def Obligations.DecodeFollowsTable : Prop :=
  (∀ w : Word, (decode w).toOption = tableDecode w) ∧
  ∀ (s : State) (w : Word), tableDecode w = none → execWord w s = .next (raiseError .illegalCmd w s)

/-- R102, R103, R108: a well-formed command's word decodes to it, with every operand at every value, from the word, from its four bytes and
from the table's numbering; and a word that decodes is the word of the well-formed command it decodes to. -/
def Obligations.DecodeEncodeAgree : Prop :=
  (∀ i : Instr, i.WellFormed →
    decode (encode i) = .ok i ∧ decodeBytes (bytesOfWord (encode i)) = .ok i ∧ decodeTableWord 32 (encode i).toNat = some i) ∧
  ∀ (w : Word) (i : Instr), decode w = .ok i → i.WellFormed ∧ encode i = w

/-- R103: each word selects the row of the command it decodes to, a word that selects a row decodes to a command of that row, and no two
rows match the same word. -/
def Obligations.RowsSelectCommands : Prop :=
  (∀ (w : Word) (i : Instr), decode w = .ok i → Selects w (rowOf i)) ∧
  (∀ (w : Word) (j : Instr), Selects w (rowOf j) → ∃ i, decode w = .ok i ∧ rowOf i = rowOf j) ∧
  ∀ (w : Word) (i j : Instr), Selects w (rowOf i) → Selects w (rowOf j) → rowOf i = rowOf j

/-- R105: every word with a reserved opcode raises `ILLEGAL_CMD`, and the one word that executes as a no-op is 0x00000000. -/
def Obligations.ReservedOpcodesIllegal : Prop :=
  (∀ (s : State) (w : Word) (rest : List HostEvent),
    (0x08 ≤ w.toNat % 256 ∧ w.toNat % 256 ≤ 0x0E) ∨ 0x10 ≤ w.toNat % 256 → s.status.failed = false →
      step { s with pending := .command w 0 :: rest } =
        .next { s with
          pending := rest
          status := { s.status with busy := false, failed := true, err := .illegalCmd }
          errCmd := w }) ∧
  ∀ w : Word, decode w = .ok .nop ↔ w = 0x00000000

/-- R109: `CONFIGSZ` assembles exactly when both sizes are powers of two whose exponents fit a nibble and the count fits its field (the last
two are DEDUCED, log 21), and to the command whose nibbles are the exponents. -/
def Obligations.ConfigSzAssembles : Prop :=
  ∀ (short long nch : Nat) (i : Instr),
    Assembler.configSz? short long nch = some i ↔
      ∃ e0 e1, e0 < 16 ∧ e1 < 16 ∧ nch < 16 ∧ short = 2 ^ e0 ∧ long = 2 ^ e1 ∧ i = .config (BitVec.ofNat 8 (16 * e1 + e0)) nch

/-! ### Issue and errors (30_encoding.md R110, 60_exceptions.md) -/

/-- R110, R37: a step at a command word that decodes runs that command's meaning, with `BUSY` set around it; a write of `CMD` and
`withFetchWord` do the same. -/
def Obligations.StepRunsCommand : Prop :=
  ∀ (s : State) (w : Word) (polls : Nat) (rest : List HostEvent) (i : Instr),
    s.status.failed = false → decode w = .ok i →
      (∃ t, exec i (begun s rest polls) = .next t ∧ step { s with pending := .command w polls :: rest } = .next (ended t)) ∧
      ∃ t, exec i (begun s rest 0) = .next t ∧ step { s with pending := .write 0x004 4 w :: rest } = .next (ended t) ∧
        step ({ s with pending := rest }.withFetchWord 32 w.toNat) = .next (ended t)

/-- R37, R82: the `STATUS` reads placed during an accepted command return the old `STATUS` with bit 0 set, and `BUSY` is 0 after it. -/
def Obligations.PollsSeeBusy : Prop :=
  ∀ (s : State) (w : Word) (polls : Nat) (rest : List HostEvent), s.status.failed = false →
    ∃ t, step { s with pending := .command w polls :: rest } = .next t ∧
      t.reads = s.reads ++ List.replicate polls (s.status.word ||| 1) ∧ t.status.busy = false ∧ t.pending = rest

/-- R265: every command, in every state, ends in a next state. -/
def Obligations.EveryCommandCompletes : Prop :=
  ∀ (i : Instr) (s : State), ∃ t, exec i s = .next t

/-- R252, R253: a word whose first failing check, in the order of R253, gives `code` changes `ERR`, `FAILED` and `ERR_CMD` and no other
state of the engine; `BUSY` returns to 0. What reads placed during the command return is `PollsSeeBusy`'s. -/
def Obligations.ErrorsArePrecise : Prop :=
  ∀ (s : State) (w : Word) (polls : Nat) (rest : List HostEvent) (code : ErrCode),
    s.status.failed = false → wordError w s = some code →
      ∃ reads, step { s with pending := .command w polls :: rest } =
        .next { s with
          pending := rest
          reads := reads
          status := { s.status with busy := false, failed := true, err := code }
          errCmd := w }

/-- R39, R42, R253: a command word leaves the engine failed exactly when one of the checks fails; otherwise no error is recorded. -/
def Obligations.FailedExactlyOnError : Prop :=
  ∀ (s : State) (w : Word) (polls : Nat) (rest : List HostEvent), s.status.failed = false → s.status.err = .none →
    ∃ t, step { s with pending := .command w polls :: rest } = .next t ∧
      (t.status.failed = true ↔ wordError w s ≠ none) ∧ (wordError w s = none → t.status.err = .none) ∧
      (wordError w s = none → w ≠ 0x0000000F → t.errCmd = s.errCmd)

/-- R254: while `FAILED` = 1, the word 0x0000000F executes `SOFT_RESET`, every other `CMD` write changes nothing, and host reads and `COEF`
writes work as usual. -/
def Obligations.FailedIgnoresCommands : Prop :=
  ∀ (s : State) (rest : List HostEvent), s.status.failed = true →
    (∀ (w : Word) (polls : Nat), w ≠ 0x0000000F →
      (∃ reads, step { s with pending := .command w polls :: rest } = .next { s with pending := rest, reads := reads }) ∧
        step { s with pending := .write 0x004 4 w :: rest } = .next { s with pending := rest }) ∧
    (∃ t, exec .softReset (begun s rest 0) = .next t ∧
      step { s with pending := .command 0x0000000F 0 :: rest } = .next (ended t) ∧
      step { s with pending := .write 0x004 4 0x0000000F :: rest } = .next (ended t)) ∧
    (∀ off : Offset, LegalAccess off 4 →
      step { s with pending := .read off 4 :: rest } =
        .next { s with pending := rest, reads := s.reads ++ [s.readAperture off] }) ∧
    ∀ (off : Offset) (v : Word), off.toNat % 4 = 0 → 0x10000 ≤ off.toNat → off.toNat < 0x30000 →
      step { s with pending := .write off 4 v :: rest } =
        .next { s with pending := rest, mem := s.mem.writeWords off.toNat [v] }

/-- R255: a step that leaves `FAILED` is the hardware reset or the word 0x0000000F, and every register is then at its reset value; a step
that stays `FAILED` keeps the recorded error. -/
def Obligations.FailedLeftByReset : Prop :=
  ∀ s t : State, s.status.failed = true → step s = .next t →
    (t.status.failed = false →
      (∃ rest, s.pending = .hardReset :: rest ∨ s.pending = .write 0x004 4 0x0000000F :: rest ∨
        ∃ polls, s.pending = .command 0x0000000F polls :: rest) ∧
      t.status = Status.reset ∧ t.configRb = ConfigRb.reset ∧ t.outCount = 0 ∧ t.errCmd = 0) ∧
    (t.status.failed = true → t.status = s.status ∧ t.errCmd = s.errCmd ∧ t.configRb = s.configRb ∧ t.outCount = s.outCount)

/-- R38: a successful `CONFIG` writes `CONFIGURED` 1, either reset writes it 0, and nothing else writes it; while it is 0 the data commands
raise `NOT_CONFIGURED`. -/
def Obligations.ConfiguredWrittenBy : Prop :=
  (∀ (s t : State) (b8 : Byte) (nch : Nat), exec (.config b8 nch) s = .next t → firstError (.config b8 nch) s = none →
    t.status.configured = true) ∧
  (∀ s t : State, exec .softReset s = .next t → t.status.configured = false) ∧
  (∀ (s t : State) (rest : List HostEvent), step { s with pending := .hardReset :: rest } = .next t → t.status.configured = false) ∧
  (∀ (i : Instr) (s t : State), exec i s = .next t → i ≠ .softReset →
    (∀ b8 nch, i = .config b8 nch → firstError i s ≠ none) → t.status.configured = s.status.configured) ∧
  (∀ (s t : State) (e : HostEvent) (rest : List HostEvent), step { s with pending := e :: rest } = .next t → e ≠ .hardReset →
    (∀ w polls, e ≠ .command w polls) → (∀ w, e ≠ .write 0x004 4 w) → t.status.configured = s.status.configured) ∧
  ∀ (s : State) (i : Instr), s.status.configured = false → i ≠ .nop → i ≠ .softReset → (∀ b8 nch, i ≠ .config b8 nch) →
    ∃ w, exec i s = .next { s with status := { s.status with err := .notConfigured, failed := true }, errCmd := w }

/-! ### Host accesses (20_memory.md) -/

/-- R70, R91: for every `ENGINE_BASE`, the aperture's offsets and the host addresses from there on, 1 MiB of them, name each other. On a platform
whose apertures do not overlap, the host address of an offset of an instance's aperture reaches that instance at that offset; a host address
reaches no instance exactly when it lies in no aperture; and an access goes to the instance it reaches, as the last of what its host has to do
(in which form is DESIGN CHOICE, log 1, 9, 22). -/
def Obligations.ApertureAddresses : Prop :=
  (∀ base : Nat,
    (∀ off : Offset, offsetOfHost? base (hostAddress base off) = some off) ∧
    (∀ (address : Nat) (off : Offset), offsetOfHost? base address = some off → hostAddress base off = address) ∧
    ∀ address : Nat, offsetOfHost? base address = none ↔ address < base ∨ base + 0x100000 ≤ address) ∧
  ∀ p : Platform, (p.instances.Pairwise fun i j => ApertureApart i.base j.base) →
    (∀ (k : Nat) (i : Instance) (off : Offset), p.instances[k]? = some i → locate? (hostAddress i.base off) p.instances = some (k, off)) ∧
    (∀ address : Nat, locate? address p.instances = none ↔
      ∀ i ∈ p.instances, address < i.base ∨ i.base + 0x100000 ≤ address) ∧
    ∀ (k : Nat) (i : Instance) (off : Offset) (width : Nat) (v : Word), p.instances[k]? = some i →
      (p.request (.read (hostAddress i.base off) width) =
        { instances := p.instances.set k
            { i with engine := { i.engine with pending := i.engine.pending ++ [.read off width] } }
          schedule := p.schedule ++ [k] }) ∧
      p.request (.write (hostAddress i.base off) width v) =
        { instances := p.instances.set k
            { i with engine := { i.engine with pending := i.engine.pending ++ [.write off width v] } }
          schedule := p.schedule ++ [k] }

/-- R74: a host read or write is answered with a bus error exactly when it is not 32 bits wide, not aligned, or at an unmapped offset, and
no other event of the outside world is. -/
def Obligations.BusErrorsExactly : Prop :=
  (∀ (s : State) (off : Offset) (width : Nat) (v : Word) (rest : List HostEvent),
    ((∃ r, step { s with pending := .read off width :: rest } = .fault r) ↔ ¬ LegalAccess off width) ∧
    ((∃ r, step { s with pending := .write off width v :: rest } = .fault r) ↔ ¬ LegalAccess off width)) ∧
  ∀ (s : State) (r : Fault), step s = .fault r →
    ∃ off width rest, ¬ LegalAccess off width ∧
      (s.pending = .read off width :: rest ∨ ∃ v, s.pending = .write off width v :: rest)

/-- R33 to R35, R43 to R48, R83: what a read of each register returns; a read changes no register and no RAM. -/
def Obligations.RegisterReads : Prop :=
  ∀ (s : State) (off : Offset) (rest : List HostEvent), off.toNat < 0x100 → off.toNat % 4 = 0 →
    ∃ v : Word,
      step { s with pending := .read off 4 :: rest } = .next { s with pending := rest, reads := s.reads ++ [v] } ∧
      (off = 0x000 → v = 0x43444D49) ∧
      (off = 0x004 → v = 0) ∧
      (off = 0x008 → v = s.status.word) ∧
      (off = 0x00C → v.toNat = s.exponent .short + 16 * s.exponent .long + 256 * s.nch) ∧
      (off = 0x010 → v.toNat = s.outCount.toNat) ∧
      (off = 0x014 → s.outCount.toNat * s.nch < 2 ^ 16 → v.toNat = s.outCount.toNat * s.nch) ∧
      (off = 0x018 → v.toNat = if s.status.configured then 2 ^ s.exponent .short else 0) ∧
      (off = 0x01C → v.toNat = if s.status.configured then 2 ^ s.exponent .long else 0) ∧
      (off = 0x020 → v = s.errCmd) ∧
      (0x024 ≤ off.toNat → v = 0)

/-- R36, R250: where each field of `STATUS` stands, and the code of each error. -/
def Obligations.StatusLayout : Prop :=
  (∀ st : Status,
    st.word.getLsbD 0 = st.busy ∧ st.word.getLsbD 1 = st.configured ∧ st.word.getLsbD 2 = st.failed ∧
      st.word.getLsbD 3 = st.prevValid ∧ st.word.getLsbD 4 = decide (st.prevFlag = .long) ∧
      st.word.getLsbD 5 = decide (st.xfFlag = .long) ∧ st.word.extractLsb' 6 2 = 0 ∧ st.word.extractLsb' 8 8 = st.xfDone ∧
      st.word.extractLsb' 16 8 = st.err.code ∧ st.word.extractLsb' 24 8 = 0) ∧
  Status.reset.word = 0 ∧
  [ErrCode.none, .illegalCmd, .malformedHeader, .unsupportedFeature, .notConfigured, .badChannel, .sequence].map ErrCode.code =
    [0, 1, 2, 3, 4, 5, 6]

/-- R72, R76 to R81, R83: a read of a RAM or LUT word returns its four bytes, the lowest offset in the low bits, which is the array element
the window's rule names; it changes no register and no RAM. -/
def Obligations.RamReads : Prop :=
  ∀ (s : State) (off : Offset) (rest : List HostEvent), off.toNat % 4 = 0 → InRam off.toNat →
    ∃ v : Word,
      step { s with pending := .read off 4 :: rest } = .next { s with pending := rest, reads := s.reads ++ [v] } ∧
      (∀ i, i < 4 → v.extractLsb' (8 * i) 8 = s.mem.readByte (off.toNat + i)) ∧
      (∀ c k, c < 8 → k < 4096 → off.toNat = 0x10000 + 4 * (c * 4096 + k) → v = s.coefWord c k) ∧
      (∀ c j, c < 8 → j < 8192 → off.toNat = 0x40000 + 4 * (c * 8192 + j) → v = s.blkWord c j) ∧
      (∀ w, w < 16384 → off.toNat = 0x80000 + 4 * w → v = s.pcm (2 * w + 1) ++ s.pcm (2 * w)) ∧
      (∀ pf cf k, k < 4096 → off.toNat = 0xA0000 + shapeNumber pf cf * 0x4000 + 4 * k → v = s.winWord pf cf k) ∧
      ∀ c i, c < 8 → i < 4096 → off.toNat = 0xC0000 + 4 * (c * 4096 + i) → v = s.prevWord c i

/-- R76: a host write of `COEF[c][k]` stores the word as written, whatever its pattern, and changes no other byte and no register; a read
returns it. -/
def Obligations.CoefWriteStores : Prop :=
  ∀ (s : State) (c k : Nat) (v : Word) (rest : List HostEvent), c < 8 → k < 4096 →
    let off : Offset := BitVec.ofNat 20 (0x10000 + 4 * (c * 4096 + k))
    ∃ t, step { s with pending := .write off 4 v :: rest } = .next t ∧
      SameButMemory { s with pending := rest } t ∧ t.coefWord c k = v ∧ SameOutside (coefAddr c k) 4 s.mem t.mem ∧
      step { t with pending := .read off 4 :: rest } = .next { t with reads := s.reads ++ [v] }

/-- R75: a legal write of a read-only register or window changes nothing and signals no error; `CMD` and the reserved registers read 0. -/
def Obligations.ReadOnlyWritesIgnored : Prop :=
  (∀ (s : State) (off : Offset) (v : Word) (rest : List HostEvent), LegalAccess off 4 → off ≠ 0x004 →
    ¬ (0x10000 ≤ off.toNat ∧ off.toNat < 0x30000) →
      step { s with pending := .write off 4 v :: rest } = .next { s with pending := rest }) ∧
  ∀ (s : State) (off : Offset) (rest : List HostEvent), off.toNat % 4 = 0 →
    off = 0x004 ∨ (0x024 ≤ off.toNat ∧ off.toNat < 0x100) →
      step { s with pending := .read off 4 :: rest } = .next { s with pending := rest, reads := s.reads ++ [0] }

/-- R86, R264: a second master's access is refused, nothing else is refused, and an engine with nothing asked of it stays as it is (that an
empty list of events is a step that changes nothing is DESIGN CHOICE, log 1). -/
def Obligations.SecondMasterRefused : Prop :=
  (∀ (s : State) (rest : List HostEvent), step { s with pending := .otherMaster :: rest } = .refused .secondMaster) ∧
  (∀ (s : State) (r : Refusal), step s = .refused r → r = .secondMaster ∧ ∃ rest, s.pending = .otherMaster :: rest) ∧
  ∀ s : State, s.pending = [] → step s = .next s

/-- R293, R265: a run of legal accesses by one host comes to its end, with every access performed. -/
def Obligations.RunsComplete : Prop :=
  ∀ s : State, (∀ e ∈ s.pending, LegalEvent e) → ∃ t, runAll s = .next t ∧ t.pending = []

/-! ### Reset and invariants (10_state.md, 70_reset_and_hazards.md) -/

/-- R280, R57, R90: after the hardware reset every register is at its reset value, and every RAM and LUT byte is the free value of a
power-on that has not been used before (its form is DESIGN CHOICE, log 8 and 12). -/
def Obligations.HardwareResetClears : Prop :=
  ∀ (s : State) (rest : List HostEvent),
    ∃ t, step { s with pending := .hardReset :: rest } = .next t ∧
      t.status = Status.reset ∧ t.configRb = ConfigRb.reset ∧ t.outCount = 0 ∧ t.errCmd = 0 ∧ t.outTotal = 0 ∧
      t.blockSizeWord .short = 0 ∧ t.blockSizeWord .long = 0 ∧
      (∀ a, t.mem.readByte a = Config.powerOnByte s.unit (s.resets + 1) a) ∧ t.unit = s.unit ∧ t.resets = s.resets + 1 ∧
      t.pending = rest ∧ t.reads = s.reads

/-- R57, R58, R43, R91: the invariants hold right after reset; and a platform right after hardware reset has an instance for each `ENGINE_BASE`,
each with every register at its reset value and unspecified RAM and LUT contents of its own (their form is DESIGN CHOICE, log 8 and 22), and
meets its invariants if the apertures do not overlap. -/
def Obligations.ResetMeetsInvariants : Prop :=
  State.reset.Inv ∧
  ∀ bases : List Nat,
    (∀ (k b : Nat), bases[k]? = some b →
      ∃ i, (Platform.reset bases).instances[k]? = some i ∧ i.base = b ∧ i.hostFault = none ∧ i.engine.status = Status.reset ∧
        i.engine.configRb = ConfigRb.reset ∧ i.engine.outCount = 0 ∧ i.engine.errCmd = 0 ∧
        ∀ a, i.engine.mem.readByte a = Config.powerOnByte k 0 a) ∧
    (bases.Pairwise ApertureApart → (Platform.reset bases).Inv)

/-- R58, R43: every step keeps the invariants. R91, R134: every step of a platform keeps the instances apart and each one's own invariants,
those of its LUT storage and of its unspecified contents among them. -/
def Obligations.StepKeepsInvariants : Prop :=
  (∀ s t : State, s.Inv → step s = .next t → t.Inv) ∧
  ∀ p q : Platform, p.Inv → p.stepWith .default = .next q → q.Inv

/-- R134: while the engine is configured, the LUT storage holds what the last `CONFIG` built, whatever the host and the commands do. -/
def Obligations.StepKeepsLut : Prop :=
  ∀ s t : State, s.Inv → s.LutBuilt → step s = .next t → t.LutBuilt

/-- R49 to R52: which command can change which RAM. -/
def Obligations.CommandsWriteTheirRams : Prop :=
  ∀ (i : Instr) (s t : State), (s.status.configured = true → s.ConfigLegal) → exec i s = .next t →
    (∀ b8 nch, i ≠ .config b8 nch) →
      ((∀ ch, i ≠ .zeroCoef ch) → i ≠ .zeroAll → SameWithin 0x10000 0x30000 s.mem t.mem) ∧
      ((∀ ch f, i ≠ .imdct ch f) → (∀ f, i ≠ .block f) → SameWithin 0x40000 0x80000 s.mem t.mem) ∧
      (i ≠ .ola → (∀ f, i ≠ .block f) → SameWithin 0x80000 0x90000 s.mem t.mem ∧ SameWithin 0xC0000 0xE0000 s.mem t.mem)

/-! ### CONFIG and the LUTs (40_setup.md) -/

/-- R130, R132: what a `CONFIG` that passes its checks writes to the registers. -/
def Obligations.ConfigWritesRegisters : Prop :=
  ∀ (b8 : Byte) (nch : Nat) (s : State), firstError (.config b8 nch) s = none →
    ∃ t, exec (.config b8 nch) s = .next t ∧
      t.exponent .short = b8.toNat % 16 ∧ t.exponent .long = b8.toNat / 16 ∧ t.nch = nch ∧
      t.configRb.word.toNat = b8.toNat % 16 + 16 * (b8.toNat / 16) + 256 * nch ∧
      t.blockSizeWord .short = BitVec.ofNat 32 (2 ^ (b8.toNat % 16)) ∧
      t.blockSizeWord .long = BitVec.ofNat 32 (2 ^ (b8.toNat / 16)) ∧
      t.status = { s.status with
        configured := true, prevValid := false, prevFlag := .short, xfDone := 0, xfFlag := .short } ∧
      t.outCount = 0 ∧ t.outTotal = 0 ∧ t.errCmd = s.errCmd ∧ t.unit = s.unit ∧ t.resets = s.resets ∧ t.pending = s.pending ∧
        t.reads = s.reads

/-- R133: a `CONFIG` that passes its checks writes zero to every word of `COEF`, `BLK` and `PREV` and every sample of `PCM`, and leaves no
byte unspecified. -/
def Obligations.ConfigClearsRams : Prop :=
  ∀ (b8 : Byte) (nch : Nat) (s : State), firstError (.config b8 nch) s = none →
    ∃ t, exec (.config b8 nch) s = .next t ∧
      (∀ c k, c < 8 → k < 4096 → t.coefWord c k = 0x00000000) ∧ (∀ c j, c < 8 → j < 8192 → t.blkWord c j = 0x00000000) ∧
      (∀ c i, c < 8 → i < 4096 → t.prevWord c i = 0x00000000) ∧ (∀ i, i < 32768 → t.pcm i = 0) ∧
      t.mem.fill = .zero ∧ t.mem.Wf

/-- R134: the LUT words after a `CONFIG` do not depend on the state before it, and no other command changes one. -/
def Obligations.LutImmutable : Prop :=
  (∀ (b8 : Byte) (nch : Nat) (s s' : State), firstError (.config b8 nch) s = none →
    ∃ t t', exec (.config b8 nch) s = .next t ∧ exec (.config b8 nch) s' = .next t' ∧ SameWithin 0x90000 0xB0000 t.mem t'.mem) ∧
  ∀ (i : Instr) (s t : State), (s.status.configured = true → s.ConfigLegal) → exec i s = .next t →
    (∀ b8 nch, i ≠ .config b8 nch) → SameWithin 0x90000 0xB0000 s.mem t.mem

/-- R141: the rotation tables of each bank, correctly rounded (the spec's default of `LUT_VALUES`, log 5), and positive. -/
def Obligations.ConfigRotationTables : Prop :=
  ∀ (b8 : Byte) (nch : Nat) (s : State), firstError (.config b8 nch) s = none →
    ∃ t, exec (.config b8 nch) s = .next t ∧
      ∀ (f : BlockFlag) (m : Nat), m < 2 ^ expOf b8 f / 4 →
        let angle : ℝ := 2 * Real.pi * (m + 1 / 8) / 2 ^ expOf b8 f
        let c := t.mem.readWord (0x90000 + flagNumber f * 0x8000 + 8 * m)
        let d := t.mem.readWord (0x90000 + flagNumber f * 0x8000 + 8 * m + 4)
        StrictlyNearest (Real.cos angle) c ∧ StrictlyNearest (Real.sin angle) d ∧
          0 < value (F32.ofBits c) ∧ 0 < value (F32.ofBits d)

/-- R142: the FFT twiddle tables of each bank, correctly rounded (log 5), with the exact entries at 0 and at a quarter turn. -/
def Obligations.ConfigTwiddleTables : Prop :=
  ∀ (b8 : Byte) (nch : Nat) (s : State), firstError (.config b8 nch) s = none →
    ∃ t, exec (.config b8 nch) s = .next t ∧
      ∀ (f : BlockFlag) (k : Nat), k < 2 ^ expOf b8 f / 4 / 2 →
        let M := 2 ^ expOf b8 f / 4
        let angle : ℝ := 2 * Real.pi * k / M
        let c := t.mem.readWord (0x90000 + flagNumber f * 0x8000 + 0x4000 + 8 * k)
        let d := t.mem.readWord (0x90000 + flagNumber f * 0x8000 + 0x4000 + 8 * k + 4)
        StrictlyNearest (Real.cos angle) c ∧ StrictlyNearest (Real.sin angle) d ∧
          (k = 0 → c = 0x3F800000 ∧ d = 0x00000000) ∧ (k = M / 4 → c = 0x00000000 ∧ d = 0x3F800000)

/-- R143: the bit-reversal table of each bank. -/
def Obligations.ConfigBitReversal : Prop :=
  ∀ (b8 : Byte) (nch : Nat) (s : State), firstError (.config b8 nch) s = none →
    ∃ t, exec (.config b8 nch) s = .next t ∧
      ∀ (f : BlockFlag) (i : Nat), i < 2 ^ expOf b8 f / 4 →
        let B := expOf b8 f - 2
        let r := (t.mem.readWord (0x90000 + flagNumber f * 0x8000 + 0x6000 + 4 * i)).toNat
        4 ≤ B ∧ B ≤ 11 ∧ r < 2 ^ B ∧ ∀ j, j < B → r.testBit (B - 1 - j) = i.testBit j

/-- R144, R149: the entries beyond the configured sizes are zero. -/
def Obligations.ConfigTableTails : Prop :=
  ∀ (b8 : Byte) (nch : Nat) (s : State), firstError (.config b8 nch) s = none →
    ∃ t, exec (.config b8 nch) s = .next t ∧
      (∀ (f : BlockFlag) (m : Nat), 2 ^ expOf b8 f / 4 ≤ m → m < 2048 →
        t.mem.readWord (rotcAddr f m) = 0 ∧ t.mem.readWord (rotsAddr f m) = 0 ∧ t.mem.readWord (brAddr f m) = 0) ∧
      (∀ (f : BlockFlag) (k : Nat), 2 ^ expOf b8 f / 4 / 2 ≤ k → k < 1024 →
        t.mem.readWord (twcAddr f k) = 0 ∧ t.mem.readWord (twsAddr f k) = 0) ∧
      ∀ (pf cf : BlockFlag) (k : Nat), slopeOf b8 pf cf ≤ k → k < 4096 → t.winWord pf cf k = 0

/-- R146, R145: each window shape, correctly rounded (log 5). -/
def Obligations.ConfigWindowShapes : Prop :=
  ∀ (b8 : Byte) (nch : Nat) (s : State), firstError (.config b8 nch) s = none →
    ∃ t, exec (.config b8 nch) s = .next t ∧
      ∀ (pf cf : BlockFlag) (k : Nat), k < slopeOf b8 pf cf →
        StrictlyNearest (realWindow (slopeOf b8 pf cf) k)
          (t.mem.readWord (0xA0000 + (2 * flagNumber pf + flagNumber cf) * 0x4000 + 4 * k))

/-- R147: window values lie in [0, 1] and do not decrease; the power-complementary property holds in the reals, and in binary32 to within
10^-7. -/
def Obligations.WindowProperties : Prop :=
  (∀ (b8 : Byte) (nch : Nat) (s : State), firstError (.config b8 nch) s = none →
    ∃ t, exec (.config b8 nch) s = .next t ∧
      ∀ (pf cf : BlockFlag) (k : Nat), k < slopeOf b8 pf cf →
        let L := slopeOf b8 pf cf
        let w := fun j => value (F32.ofBits (t.winWord pf cf j))
        0 ≤ w k ∧ w k ≤ 1 ∧ (k + 1 < L → w k ≤ w (k + 1)) ∧ |w k ^ 2 + w (L - 1 - k) ^ 2 - 1| < 1 / 10 ^ 7) ∧
  ∀ L k : Nat, k < L → realWindow L k ^ 2 + realWindow L (L - 1 - k) ^ 2 = 1

/-- R148: a bank depends on its own exponent alone and a shape on its slope length alone; equal sizes give equal tables, and with unequal
sizes shape 3 differs. -/
def Obligations.TablesDependOnSizes : Prop :=
  ∀ (b8 b8' : Byte) (nch nch' : Nat) (s s' : State),
    firstError (.config b8 nch) s = none → firstError (.config b8' nch') s' = none →
      ∃ t t', exec (.config b8 nch) s = .next t ∧ exec (.config b8' nch') s' = .next t' ∧
        (∀ f f' : BlockFlag, expOf b8 f = expOf b8' f' → ∀ a, a < 0x8000 →
          t.mem.readByte (bankAddr f + a) = t'.mem.readByte (bankAddr f' + a)) ∧
        (∀ pf cf pf' cf' : BlockFlag, slopeOf b8 pf cf = slopeOf b8' pf' cf' → ∀ k, k < 4096 →
          t.winWord pf cf k = t'.winWord pf' cf' k) ∧
        (expOf b8 .short < expOf b8 .long → ∃ k, k < 4096 ∧ t.winWord .short .short k ≠ t.winWord .long .long k)

/-! ### Buffer and control commands (43_buffer_control.md) -/

/-- R221: `ZERO_COEF` clears all 4096 words of its channel, and changes nothing else. -/
def Obligations.ZeroCoefClears : Prop :=
  ∀ (s : State) (ch : Nat), s.status.configured = true → ch < s.nch →
    ∃ t, exec (.zeroCoef ch) s = .next t ∧ (∀ k, k < 4096 → t.coefWord ch k = 0x00000000) ∧
      SameOutside (coefAddr ch 0) (4 * 4096) s.mem t.mem ∧ SameButMemory s t

/-- R222: `ZERO_ALL` clears all eight channels' words, and changes nothing else. -/
def Obligations.ZeroAllClears : Prop :=
  ∀ s : State, s.status.configured = true →
    ∃ t, exec .zeroAll s = .next t ∧ (∀ c k, c < 8 → k < 4096 → t.coefWord c k = 0x00000000) ∧
      SameOutside (coefAddr 0 0) (8 * (4 * 4096)) s.mem t.mem ∧ SameButMemory s t

/-- R220, R223: `NOP` changes nothing; `RESTART` forgets the retained block and the packet, and changes nothing else. -/
def Obligations.NopAndRestart : Prop :=
  (∀ s : State, exec .nop s = .next s) ∧
  ∀ s : State, s.status.configured = true →
    ∃ t, exec .restart s = .next t ∧
      t = { s with
        status := { s.status with prevValid := false, prevFlag := .short, xfDone := 0, xfFlag := .short }
        outCount := 0 } ∧
      t.outTotal = 0

/-- R224, R281: `SOFT_RESET` returns every register to its reset value, in every state, and changes no RAM or LUT byte. -/
def Obligations.SoftResetResets : Prop :=
  ∀ s : State, ∃ t, exec .softReset s = .next t ∧
    t.status.word = 0 ∧ t.configRb.word = 0 ∧ t.outCount = 0 ∧ t.errCmd = 0 ∧ t.outTotal = 0 ∧
      t.blockSizeWord .short = 0 ∧ t.blockSizeWord .long = 0 ∧
      t = { s with status := t.status, configRb := t.configRb, outCount := 0, errCmd := 0 }

/-! ### Arithmetic (00_scope.md R15) -/

/-- R15: a product, sum or difference of finite data is the exact result rounded once, to nearest with ties to even, subnormals kept and
overflow to an infinity. -/
def Obligations.FiniteOpsRoundOnce : Prop :=
  ∀ v w : Word,
    let a := F32.ofBits v
    let b := F32.ofBits w
    IsFinite a → IsFinite b →
      (IsRounded (value a * value b) (a.mul b) ∧ HasSignOf (value a * value b) (a.mul b)) ∧
      (IsRounded (value a + value b) (a.add b) ∧ HasSignOf (value a + value b) (a.add b)) ∧
      (IsRounded (value a - value b) (a.sub b) ∧ HasSignOf (value a - value b) (a.sub b))

/-- R15: the special values. Negation flips the sign bit of any pattern; an operation on a NaN, an infinity times a zero, and a sum of
opposite infinities are quiet NaNs; a zero sum of opposite signs is +0. Which quiet NaN is a free value (log 7). -/
def Obligations.SpecialValues : Prop :=
  (∀ w : Word, (F32.ofBits w).neg.toBits = w ^^^ 0x80000000 ∧ (F32.ofBits w).toBits = w) ∧
  (∀ a b : F32, (a.isNaN = true ∨ b.isNaN = true) → IsQuietNaN (a.mul b) ∧ IsQuietNaN (a.add b) ∧ IsQuietNaN (a.sub b)) ∧
  (∀ s t : Bool, IsQuietNaN ((F32.inf s).mul (.fin t 0)) ∧ IsQuietNaN ((F32.fin s 0).mul (.inf t)) ∧
    IsQuietNaN ((F32.inf s).add (.inf !s)) ∧ IsQuietNaN ((F32.inf s).sub (.inf s)) ∧
    (F32.inf s).add (.inf s) = .inf s ∧ (F32.inf s).sub (.inf !s) = .inf s ∧ (F32.inf s).mul (.inf t) = .inf (s != t)) ∧
  (∀ (s t : Bool) (m : Nat), (F32.inf s).add (.fin t m) = .inf s ∧ (F32.fin t m).add (.inf s) = .inf s ∧
    (F32.inf s).sub (.fin t m) = .inf s ∧ (F32.fin t m).sub (.inf s) = .inf (!s) ∧
    (m ≠ 0 → (F32.inf s).mul (.fin t m) = .inf (s != t) ∧ (F32.fin t m).mul (.inf s) = .inf (s != t))) ∧
  (∀ (s : Bool) (m : Nat), (F32.fin s m).add (.fin (!s) m) = .fin false 0 ∧ (F32.fin s m).sub (.fin s m) = .fin false 0) ∧
  ∀ (s t : Bool) (m : Nat), (F32.fin s 0).add (.fin s 0) = .fin s 0 ∧ (F32.fin s 0).mul (.fin t m) = .fin (s != t) 0 ∧
    (F32.fin t m).mul (.fin s 0) = .fin (s != t) 0

/-! ### IMDCT (41_imdct.md) -/

/-- R160, R162: `IMDCT` writes the transform of its channel to `BLK[ch][0 .. n-1]`, marks the channel done, and changes nothing else. -/
def Obligations.ImdctWritesBlock : Prop :=
  ∀ (s : State) (ch : Nat) (f : BlockFlag), s.status.configured = true → s.ConfigLegal → ch < s.nch →
    s.status.xfDone = 0 ∨ s.status.xfFlag = f →
      ∃ t, exec (.imdct ch f) s = .next t ∧
        (∀ j, j < 2 ^ s.exponent f → (s.transformed ch f)[j]?.map F32.toBits = some (t.blkWord ch j)) ∧
        SameOutside (blkAddr ch 0) (4 * 2 ^ s.exponent f) s.mem t.mem ∧
        SameButMemory { s with status := { s.status with xfDone := s.status.xfDone ||| (1 <<< ch), xfFlag := f } } t ∧
        (∀ c, t.status.xfDone.getLsbD c = (s.status.xfDone.getLsbD c || decide (c = ch)))

/-- R164, R53, R79: the transform is the datapath over binary32, on the coefficients and the LUT words that the rules name. -/
def Obligations.ImdctUsesTables : Prop :=
  ∀ (s : State) (ch : Nat) (f : BlockFlag), s.ConfigLegal → s.mem.Wf → ch < 8 →
    (∀ m, m < 2 ^ (s.exponent f - 2) →
      s.mem.readWord (0x90000 + flagNumber f * 0x8000 + 0x6000 + 4 * m) < BitVec.ofNat 32 (2 ^ (s.exponent f - 2))) →
      let word := fun a => F32.ofBits (s.mem.readWord a)
      let bank := 0x90000 + flagNumber f * 0x8000
      s.transformed ch f = (List.range (2 ^ s.exponent f)).map
        (indexImdct Arith.binary32 (s.exponent f - 2) (fun k => F32.ofBits (s.coefWord ch k))
          (fun m => ⟨word (bank + 8 * m), word (bank + 8 * m + 4)⟩)
          (fun k => ⟨word (bank + 0x4000 + 8 * k), word (bank + 0x4000 + 8 * k + 4)⟩)
          (fun i => (s.mem.readWord (bank + 0x6000 + 4 * i)).toNat))

/-- R177: what a transform writes depends on `COEF[ch][0 .. N-1]`, the LUT bank and the exponents alone. (Where an operation returns a NaN,
the equality of its bits rests on the model's choice that `NAN_RESULT` is a function of the operation and its operands: DESIGN CHOICE,
log 7.) -/
def Obligations.ImdctReadsOnly : Prop :=
  ∀ (s s' : State) (ch : Nat) (f : BlockFlag),
    s.status.configured = true → s'.status.configured = true → s.ConfigLegal → s.mem.Wf → s'.mem.Wf →
    ch < s.nch → s.configRb = s'.configRb → s.status.xfDone = 0 ∨ s.status.xfFlag = f →
    s'.status.xfDone = 0 ∨ s'.status.xfFlag = f →
    (∀ k, k < 2 ^ s.exponent f / 2 → s.coefWord ch k = s'.coefWord ch k) →
    SameWithin (bankAddr f) (bankAddr f + 0x8000) s.mem s'.mem →
      ∃ t t', exec (.imdct ch f) s = .next t ∧ exec (.imdct ch f) s' = .next t' ∧
        ∀ j, j < 2 ^ s.exponent f → t.blkWord ch j = t'.blkWord ch j

/-- R165 to R170: the datapath, over any arithmetic and any tables, is the six steps as the rules index them. -/
def Obligations.DatapathFollowsRules : Prop :=
  ∀ (α : Type) (A : Arith α) (T : Transform.Bank α) (b : Nat) (X : List α),
    (∀ r ∈ T.br, r < 2 ^ b) →
      Transform.imdct A T b X = (List.range (4 * 2 ^ b)).map
        (indexImdct A b (fun k => X.getD k A.zero) (fun m => T.rot.getD m ⟨A.zero, A.zero⟩)
          (fun k => T.tw.getD k ⟨A.zero, A.zero⟩) (fun i => T.br.getD i 0))

/-- R163, R172: over the real numbers, with exact tables, the datapath computes the direct cosine sum. -/
def Obligations.DatapathExact : Prop :=
  ∀ (b : Nat) (X : List ℝ), X.length = 2 * 2 ^ b → ∀ j, j < 4 * 2 ^ b →
    (Transform.imdct realArith (realBank b) b X)[j]? = some (directImdct (4 * 2 ^ b) X j)

/-- R173: zero coefficients give a block of zeros, and all-`+0` coefficients the signs the rule states. -/
def Obligations.ZeroInputZeroBlock : Prop :=
  ∀ (s : State) (ch : Nat) (f : BlockFlag), s.status.configured = true → s.ConfigLegal → s.mem.Wf → s.LutBuilt →
    ch < s.nch → s.status.xfDone = 0 ∨ s.status.xfFlag = f →
      ∃ t, exec (.imdct ch f) s = .next t ∧
        ((∀ k, k < 2 ^ s.exponent f / 2 → IsZeroWord (s.coefWord ch k)) →
          ∀ j, j < 2 ^ s.exponent f → IsZeroWord (t.blkWord ch j)) ∧
        ((∀ k, k < 2 ^ s.exponent f / 2 → s.coefWord ch k = 0x00000000) →
          ∀ j, j < 2 ^ s.exponent f →
            t.blkWord ch j =
              if (j % 2 = 1 ∧ j < 3 * (2 ^ s.exponent f / 2) / 2) ∨ (j % 2 = 0 ∧ 3 * (2 ^ s.exponent f / 2) / 2 ≤ j)
              then 0x80000000 else 0x00000000)

/-! ### OLA and BLOCK (42_window_ola.md) -/

/-- R193, R198: the ranges of the overlap's indices for every legal pair of sizes, and the multiple of 16 that the count is. -/
def Obligations.OverlapRanges : Prop :=
  ∀ (s : State) (pf cf : BlockFlag), s.ConfigLegal →
    let o := s.overlap pf cf
    o.slope = min (2 ^ s.exponent pf) (2 ^ s.exponent cf) / 2 ∧ o.first + o.slope / 2 = 2 ^ s.exponent pf / 4 ∧
      o.past = 2 ^ s.exponent pf / 4 + o.slope / 2 ∧ o.count = 2 ^ s.exponent pf / 4 + 2 ^ s.exponent cf / 4 ∧
      o.first < o.past ∧ o.past ≤ 2 ^ s.exponent pf / 2 ∧ o.past ≤ o.count ∧ o.count % 16 = 0 ∧ o.count ≤ 4096 ∧
      ∀ t, o.first ≤ t → t < o.count →
        o.current t + 2 ^ s.exponent pf / 4 = t + 2 ^ s.exponent cf / 4 ∧ o.current t < 2 ^ s.exponent cf / 2

/-- R196: the conversion to PCM: a NaN gives 0, an infinity the nearest end, and a finite value the nearest integer to 32768 times it, ties
to even, saturated. -/
def Obligations.PcmConvertRounds : Prop :=
  ∀ w : Word,
    let x := F32.ofBits w
    (x.isNaN = true → pcmConvert x = 0) ∧ (x = .inf false → pcmConvert x = 32767) ∧ (x = .inf true → pcmConvert x = -32768) ∧
      (IsFinite x → ∃ r : ℤ, IsNearestEven (value x * 32768) r ∧ pcmConvert x = max (-32768) (min 32767 r)) ∧
      (pcmSample x).toInt = pcmConvert x

/-- R192, R198: the first packet completes without error, produces no samples and retains its blocks. -/
def Obligations.OlaFirstPacket : Prop :=
  ∀ s : State, PacketComplete s → s.ConfigLegal → s.mem.Wf → s.status.prevValid = false →
    ∃ t, exec .ola s = .next t ∧ t.outCount = 0 ∧ t.outTotal = 0 ∧
      (∀ i, i < 32768 → t.pcm i = s.pcm i) ∧
      (∀ c i, c < s.nch → i < 2 ^ s.exponent s.status.xfFlag / 2 →
        t.prevWord c i = s.blkWord c (2 ^ s.exponent s.status.xfFlag / 2 + i)) ∧
      t.status = { s.status with prevValid := true, prevFlag := s.status.xfFlag, xfDone := 0, xfFlag := .short }

/-- R193 to R195, R198: with a retained block, sample `t` of channel `c` is the converted overlap of R194 at `PCM[t · NCH + c]`, the count is
the geometry's, and the samples beyond it keep their contents. -/
def Obligations.OlaWritesSamples : Prop :=
  ∀ s : State, PacketComplete s → s.ConfigLegal → s.mem.Wf → s.status.prevValid = true →
    ∃ u, exec .ola s = .next u ∧
      let pf := s.status.prevFlag
      let cf := s.status.xfFlag
      let T := 2 ^ s.exponent pf / 4 + 2 ^ s.exponent cf / 4
      (∀ t c, t < T → c < s.nch → u.pcm (t * s.nch + c) = pcmSample (overlapSample s pf cf c t)) ∧
        u.outCount.toNat = T ∧ u.outTotal.toNat = T * s.nch ∧
        ∀ i, T * s.nch ≤ i → i < 32768 → u.pcm i = s.pcm i

/-- R197: `OLA` retains each channel's second half, ends the packet, and changes no other byte but the samples it writes, and no other
register. -/
def Obligations.OlaRetainsBlocks : Prop :=
  ∀ s : State, PacketComplete s → s.ConfigLegal → s.mem.Wf →
    ∃ u, exec .ola s = .next u ∧
      let cf := s.status.xfFlag
      let half := 2 ^ s.exponent cf / 2
      (∀ c i, c < s.nch → i < half → u.prevWord c i = s.blkWord c (half + i)) ∧
        (∀ a, (∀ c, c < s.nch → a < prevAddr c 0 ∨ prevAddr c half ≤ a) →
          (s.status.prevValid = true → a < pcmAddr 0 ∨ pcmAddr (u.outCount.toNat * s.nch) ≤ a) →
            u.mem.readByte a = s.mem.readByte a) ∧
        u.status = { s.status with prevValid := true, prevFlag := cf, xfDone := 0, xfFlag := .short } ∧
        SameButMemory { s with status := u.status, outCount := u.outCount } u

/-- R200: `BLOCK` is the overlap, by `OLA`'s own meaning, of a state in which every configured channel's block holds its transform, the
packet is complete with flag `f`, and nothing else differs. -/
def Obligations.BlockTransformsAll : Prop :=
  ∀ (s : State) (f : BlockFlag), s.status.configured = true → s.ConfigLegal → s.mem.Wf →
    ∃ u t, exec (.block f) s = .next t ∧ exec .ola u = .next t ∧
      (∀ c j, c < s.nch → j < 2 ^ s.exponent f → (s.transformed c f)[j]?.map F32.toBits = some (u.blkWord c j)) ∧
      (∀ a, (∀ c, c < s.nch → a < blkAddr c 0 ∨ blkAddr c (2 ^ s.exponent f) ≤ a) → u.mem.readByte a = s.mem.readByte a) ∧
      SameButMemory { s with status := { s.status with xfDone := BitVec.ofNat 8 (2 ^ s.nch - 1), xfFlag := f } } u ∧
      PacketComplete u ∧ u.mem.Wf ∧
      t.status = { s.status with prevValid := true, prevFlag := f, xfDone := 0, xfFlag := .short }

/-- R201: from a state with no packet begun, `BLOCK f` ends in the same state as `IMDCT` of every channel followed by `OLA`. (Where an
operation returns a NaN, the equality of its bits rests on the model's choice that `NAN_RESULT` is a function of the operation and its
operands: DESIGN CHOICE, log 7.) -/
def Obligations.BlockIsPacket : Prop :=
  ∀ (s : State) (f : BlockFlag), s.status.configured = true → s.ConfigLegal → s.status.xfDone = 0 →
    ∃ t, exec (.block f) s = .next t ∧ execAll ((List.range s.nch).map (fun c => .imdct c f) ++ [.ola]) s = .next t

/-- R203: with zero coefficients and a silent retained block, every sample that `BLOCK` writes is 0, and the block it retains is silent
again. -/
def Obligations.SilenceStaysSilent : Prop :=
  ∀ (s : State) (f : BlockFlag), s.status.configured = true → s.ConfigLegal → s.mem.Wf → s.LutBuilt →
    (∀ c k, c < s.nch → k < 2 ^ s.exponent f / 2 → IsZeroWord (s.coefWord c k)) →
    (s.status.prevValid = true → ∀ c i, c < s.nch → i < 2 ^ s.exponent s.status.prevFlag / 2 → IsZeroWord (s.prevWord c i)) →
      ∃ t, exec (.block f) s = .next t ∧ (∀ i, i < t.outTotal.toNat → t.pcm i = 0) ∧
        ∀ c i, c < s.nch → i < 2 ^ s.exponent f / 2 → IsZeroWord (t.prevWord c i)

/-! ### The parameters (00_scope.md R10) -/

/-- R10, R140, R171, R194, R74: the parameters are arguments of the machine, and `exec` and `step` are it at the spec's defaults. Each decides what
its rule says: `LUT_VALUES` the words of the tables, with `+0.0` for an exact 0; an `IMDCT_IMPL` that meets `IMDCT_TOL` a block within it;
`PCM_CONVERT` the samples; and `BUS_ERROR_EFFECT` whether the host faults or goes on, the engine unchanged. (That a block size whose bound
is `none` has no bound is the model's form of the parameter, log 13.) -/
def Obligations.ParametersAreArguments : Prop :=
  (∀ (i : Instr) (s : State), exec i s = execWith .default i s) ∧ (∀ s : State, step s = stepWith .default s) ∧
  (∀ (P : Params) (b8 : Byte) (nch : Nat) (s : State), firstError (.config b8 nch) s = none →
    ∃ t, execWith P (.config b8 nch) s = .next t ∧
      (∀ (f : BlockFlag) (m : Nat), m < 2 ^ expOf b8 f / 4 →
        t.mem.readWord (0x90000 + flagNumber f * 0x8000 + 8 * m) = Lut.word (.rotc (expOf b8 f) m) P ∧
          t.mem.readWord (0x90000 + flagNumber f * 0x8000 + 8 * m + 4) = Lut.word (.rots (expOf b8 f) m) P) ∧
      (∀ (f : BlockFlag) (k : Nat), k < 2 ^ expOf b8 f / 4 / 2 →
        t.mem.readWord (0x90000 + flagNumber f * 0x8000 + 0x4000 + 8 * k) = Lut.word (.twc (expOf b8 f) k) P ∧
          t.mem.readWord (0x90000 + flagNumber f * 0x8000 + 0x4000 + 8 * k + 4) = Lut.word (.tws (expOf b8 f) k) P ∧
          (k = 0 → Lut.word (.tws (expOf b8 f) k) P = 0x00000000) ∧
          (k = 2 ^ expOf b8 f / 4 / 4 → Lut.word (.twc (expOf b8 f) k) P = 0x00000000)) ∧
      ∀ (pf cf : BlockFlag) (k : Nat), k < slopeOf b8 pf cf → t.winWord pf cf k = Lut.word (.win (slopeOf b8 pf cf) k) P) ∧
  (∀ P : Params, MeetsTolerance P → ∀ (s : State) (ch : Nat) (f : BlockFlag),
    s.status.configured = true → s.ConfigLegal → s.mem.Wf → s.LutBuilt P → ch < s.nch →
    s.status.xfDone = 0 ∨ s.status.xfFlag = f →
    (∀ k, k < 2 ^ s.exponent f / 2 → IsFinite (F32.ofBits (s.coefWord ch k))) →
      let n := 2 ^ s.exponent f
      let X := (List.range (n / 2)).map (s.coefWord ch)
      ∃ t, execWith P (.imdct ch f) s = .next t ∧
        ∀ j, j < n → Within (F32.ofBits (t.blkWord ch j)) (exactBlock n X j) (P.imdctTol n X)) ∧
  (∀ (P : Params) (s : State), PacketComplete s → s.ConfigLegal → s.mem.Wf → s.status.prevValid = true →
    ∃ u, execWith P .ola s = .next u ∧
      ∀ t c, t < 2 ^ s.exponent s.status.prevFlag / 4 + 2 ^ s.exponent s.status.xfFlag / 4 → c < s.nch →
        u.pcm (t * s.nch + c) = P.pcmConvert (overlapSample s s.status.prevFlag s.status.xfFlag c t)) ∧
  ∀ (P : Params) (s : State) (e : HostEvent) (rest : List HostEvent) (off : Offset) (width : Nat),
    (e = .read off width ∨ ∃ v, e = .write off width v) → ¬ LegalAccess off width →
      ∃ r, (P.busErrorEffect r rest = none → stepWith P { s with pending := e :: rest } = .fault r) ∧
        ∀ rest', P.busErrorEffect r rest = some rest' → stepWith P { s with pending := e :: rest } = .next { s with pending := rest' }

/-! ### Several instances (20_memory.md R91) -/

/-- R91: no state is shared between instances, and an access to one never affects another. For every value of the parameters: a host access
leaves every instance but the one it goes to as it is; and in a run of a platform each instance comes to be what it comes to be alone, in as
many steps as its host took, whatever the other instances hold and their hosts do, bus errors included. (A run is refused exactly when one
of its instances is refused alone, which R86 allows for two agents on one instance: log 11. The schedule is the model's form, log 22.) -/
def Obligations.InstancesArePrivate : Prop :=
  (∀ (p : Platform) (a : HostAccess) (k : Nat), (∀ off, locate? a.address p.instances ≠ some (k, off)) →
    (p.request a).instances[k]? = p.instances[k]?) ∧
  (∀ (P : Params) (p q : Platform) (n : Nat), p.runWith P n = .next q →
    q.instances.length = p.instances.length ∧
    ∀ (k : Nat) (i : Instance), p.instances[k]? = some i →
      ∃ j, i.runWith P ((p.schedule.take n).count k) = .next j ∧ q.instances[k]? = some j) ∧
  ∀ (P : Params) (p : Platform) (n : Nat),
    (∀ (k : Nat) (i : Instance), p.instances[k]? = some i → ∃ j, i.runWith P ((p.schedule.take n).count k) = .next j) →
      ∃ q, p.runWith P n = .next q
end

