-- ==== Sys2Proof/Laws/Memory.lean ====
section
/-!
SUPPORT. What the memory operations do, said once: reading after writing, what a write leaves alone, that every operation keeps the
canonical form, and that the one-pass reads are `readByte` at each offset.
-/

namespace Sys2Proof.Machine

/-! ### Looking a byte up in a cell list -/

theorem findCell_append (a : Nat) (xs ys : List Host.Cell) :
    findCell a (xs ++ ys) = (findCell a xs).or (findCell a ys) := by
  induction xs with
  | nil => simp [findCell]
  | cons c cs ih => by_cases h : c.1 = a <;> simp [findCell, h, ih]

theorem findCell_filter (a : Nat) (p : Nat → Bool) (cs : List Host.Cell) :
    findCell a (cs.filter fun c => p c.1) = if p a then findCell a cs else none := by
  induction cs with
  | nil => simp [findCell]
  | cons c cs ih =>
    by_cases hp : p c.1 <;> by_cases ha : c.1 = a
    · subst ha; simp [findCell, hp]
    · simp [findCell, hp, ha, ih]
    · subst ha; simp [hp, ih]
    · simp [findCell, hp, ha, ih]

theorem findCell_cellsBelow (a lo : Nat) (cs : List Host.Cell) :
    findCell a (cellsBelow lo cs) = if a < lo then findCell a cs else none := by
  simpa [cellsBelow] using findCell_filter a (fun x => decide (x < lo)) cs

theorem findCell_cellsFrom (a hi : Nat) (cs : List Host.Cell) :
    findCell a (cellsFrom hi cs) = if hi ≤ a then findCell a cs else none := by
  simpa [cellsFrom] using findCell_filter a (fun x => decide (hi ≤ x)) cs

theorem findCell_cellsOf_below (known : Option Byte) (a : Nat) (bs : List Byte) :
    ∀ lo, a < lo → findCell a (cellsOf known lo bs) = none := by
  induction bs with
  | nil => intro lo _; rfl
  | cons b bs ih =>
    intro lo h
    have h1 := ih (lo + 1) (by omega)
    have h2 : lo ≠ a := by omega
    by_cases hk : some b = known <;> simp [cellsOf, hk, findCell, h1, h2]

theorem findCell_cellsOf (known : Option Byte) (bs : List Byte) :
    ∀ lo i, findCell (lo + i) (cellsOf known lo bs) =
      bs[i]?.bind fun b => if some b = known then none else some b := by
  induction bs with
  | nil => intro lo i; rfl
  | cons b bs ih =>
    intro lo i
    cases i with
    | zero =>
      by_cases hk : some b = known
      · subst hk; simp [cellsOf, findCell_cellsOf_below (some b) lo bs (lo + 1) (by omega)]
      · simp [cellsOf, hk, findCell]
    | succ i =>
      have h := ih (lo + 1) i
      rw [show lo + 1 + i = lo + (i + 1) by omega] at h
      by_cases hk : some b = known <;> simp [cellsOf, hk, findCell, h]

/-- An unlisted byte that is known to hold a value reads as that value. -/
theorem Fill.byteAt_of_written {f : Fill} {b : Byte} (h : some b = f.written?) (a : Nat) : f.byteAt a = b := by
  cases f <;> simp_all [Fill.written?, Fill.byteAt]

/-! ### Writing bytes -/

@[simp] theorem Memory.fill_writeBytes (m : Memory) (lo : Nat) (bs : List Byte) : (m.writeBytes lo bs).fill = m.fill := rfl

@[simp] theorem Memory.fill_writeWords (m : Memory) (lo : Nat) (ws : List Word) : (m.writeWords lo ws).fill = m.fill := rfl

@[simp] theorem Memory.fill_clearBytes (m : Memory) (lo len : Nat) : (m.clearBytes lo len).fill = m.fill := by
  unfold Memory.clearBytes; split <;> simp

theorem Memory.readByte_writeBytes_outside (m : Memory) (lo : Nat) (bs : List Byte) (a : Nat)
    (h : a < lo ∨ lo + bs.length ≤ a) : (m.writeBytes lo bs).readByte a = m.readByte a := by
  unfold Memory.readByte Memory.writeBytes
  simp only [findCell_append, findCell_cellsBelow, findCell_cellsFrom]
  rcases h with h | h
  · have h' : ¬ lo + bs.length ≤ a := by omega
    simp [h, h', findCell_cellsOf_below _ a bs lo h]
  · obtain ⟨i, rfl⟩ := Nat.exists_eq_add_of_le (show lo ≤ a by omega)
    have h' : ¬ lo + i < lo := by omega
    have hi : bs[i]? = none := by simp; omega
    simp [h, findCell_cellsOf, hi]

theorem Memory.readByte_writeBytes_inside (m : Memory) (lo : Nat) (bs : List Byte) (i : Nat) (h : i < bs.length) :
    (m.writeBytes lo bs).readByte (lo + i) = bs[i] := by
  unfold Memory.readByte Memory.writeBytes
  simp only [findCell_append, findCell_cellsBelow, findCell_cellsFrom, findCell_cellsOf]
  have h1 : ¬ lo + i < lo := by omega
  have h2 : ¬ lo + bs.length ≤ lo + i := by omega
  by_cases hk : some bs[i] = m.fill.written?
  · simp [h2, h, ← hk, Fill.byteAt_of_written hk]
  · simp [h2, h, hk]

/-! ### The canonical form -/

theorem mem_cellsOf (known : Option Byte) (bs : List Byte) :
    ∀ lo, ∀ c ∈ cellsOf known lo bs, lo ≤ c.1 ∧ c.1 < lo + bs.length ∧ some c.2 ≠ known := by
  induction bs with
  | nil => intro lo c hc; simp [cellsOf] at hc
  | cons b bs ih =>
    intro lo c hc
    unfold cellsOf at hc
    split at hc
    · have := ih (lo + 1) c hc
      exact ⟨by omega, by simp only [List.length_cons]; omega, this.2.2⟩
    · rename_i hk
      rcases List.mem_cons.mp hc with rfl | hc
      · simp [hk]
      · have := ih (lo + 1) c hc
        refine ⟨by omega, by simp only [List.length_cons]; omega, this.2.2⟩

theorem pairwise_cellsOf (known : Option Byte) (bs : List Byte) :
    ∀ lo, (cellsOf known lo bs).Pairwise (fun c d => c.1 < d.1) := by
  induction bs with
  | nil => intro lo; simp [cellsOf]
  | cons b bs ih =>
    intro lo
    unfold cellsOf
    split
    · exact ih _
    · refine List.pairwise_cons.mpr ⟨fun c hc => ?_, ih _⟩
      have := (mem_cellsOf known bs (lo + 1) c hc).1
      exact this

theorem mem_cellsBelow {lo : Nat} {cs : List Host.Cell} {c : Host.Cell} (h : c ∈ cellsBelow lo cs) : c ∈ cs ∧ c.1 < lo := by
  simpa [cellsBelow] using h

theorem mem_cellsFrom {hi : Nat} {cs : List Host.Cell} {c : Host.Cell} (h : c ∈ cellsFrom hi cs) : c ∈ cs ∧ hi ≤ c.1 := by
  simpa [cellsFrom] using h

/-- Writing bytes inside the aperture keeps the canonical form. -/
theorem Memory.wf_writeBytes {m : Memory} (hm : m.Wf) {lo : Nat} {bs : List Byte} (hb : lo + bs.length ≤ Config.apertureBytes) :
    (m.writeBytes lo bs).Wf := by
  obtain ⟨hs, hc⟩ := hm
  refine ⟨?_, ?_⟩
  · simp only [Memory.writeBytes]
    refine List.pairwise_append.mpr ⟨List.pairwise_append.mpr ⟨hs.filter _, pairwise_cellsOf _ _ _, ?_⟩, hs.filter _, ?_⟩
    · intro c h d h'
      have := (mem_cellsBelow h).2
      have := (mem_cellsOf _ _ _ d h').1
      omega
    · intro c h d h'
      have hd := (mem_cellsFrom h').2
      rcases List.mem_append.mp h with h | h
      · have := (mem_cellsBelow h).2; omega
      · have := (mem_cellsOf _ _ _ c h).2.1; omega
  · intro c h
    simp only [Memory.writeBytes, List.mem_append] at h
    rcases h with (h | h) | h
    · exact hc c (mem_cellsBelow h).1
    · have := mem_cellsOf _ _ _ c h
      exact ⟨by omega, this.2.2⟩
    · exact hc c (mem_cellsFrom h).1

theorem Memory.wf_cleared : Memory.cleared.Wf := by
  simp [Memory.Wf, Memory.cleared]

/-- A power-on's memory lists nothing and is canonical. -/
theorem Memory.wf_powerOn (u g : Nat) : Memory.Wf { fill := .powerOn u g, cells := [] } := by
  simp [Memory.Wf]

/-! ### Clearing -/

theorem cellsOf_known (b : Byte) : ∀ n lo, cellsOf (some b) lo (List.replicate n b) = [] := by
  intro n
  induction n with
  | zero => intro lo; rfl
  | succ n ih => intro lo; simp [List.replicate_succ, cellsOf, ih]

/-- Clearing is writing zeros. -/
theorem Memory.clearBytes_eq_writeBytes (m : Memory) (lo len : Nat) :
    m.clearBytes lo len = m.writeBytes lo (List.replicate len 0) := by
  unfold Memory.clearBytes
  split
  · rename_i h; simp [Memory.writeBytes, h, Fill.written?, cellsOf_known]
  · rfl

theorem Memory.readByte_clearBytes (m : Memory) (lo len a : Nat) :
    (m.clearBytes lo len).readByte a = if lo ≤ a ∧ a < lo + len then 0 else m.readByte a := by
  rw [Memory.clearBytes_eq_writeBytes]
  split
  · rename_i h
    obtain ⟨i, rfl⟩ := Nat.exists_eq_add_of_le h.1
    rw [Memory.readByte_writeBytes_inside _ _ _ _ (by simp; omega)]
    simp
  · exact Memory.readByte_writeBytes_outside _ _ _ _ (by simp; omega)

theorem Memory.wf_clearBytes {m : Memory} (hm : m.Wf) {lo len : Nat} (hb : lo + len ≤ Config.apertureBytes) :
    (m.clearBytes lo len).Wf := by
  rw [Memory.clearBytes_eq_writeBytes]
  exact Memory.wf_writeBytes hm (by simpa using hb)

/-! ### Words -/

theorem wordOfBytes_bytes (w : Word) :
    wordOfBytes (w.extractLsb' 0 8) (w.extractLsb' 8 8) (w.extractLsb' 16 8) (w.extractLsb' 24 8) = w := by
  unfold wordOfBytes
  ext i hi
  simp only [BitVec.getElem_append, BitVec.getElem_extractLsb']
  split <;> (try split) <;> (try split) <;> (rw [BitVec.getLsbD_eq_getElem (by omega)]; congr 1; omega)

@[simp] theorem bytesOfWords_nil : bytesOfWords [] = [] := rfl

theorem bytesOfWords_cons (w : Word) (ws : List Word) : bytesOfWords (w :: ws) = bytesOfWord w ++ bytesOfWords ws := rfl

@[simp] theorem length_bytesOfWords (ws : List Word) : (bytesOfWords ws).length = 4 * ws.length := by
  induction ws with
  | nil => rfl
  | cons w ws ih => simp [bytesOfWords_cons, bytesOfWord, ih]; omega

/-- The bytes of a list of words, taken together again. -/
theorem wordsOfBytes_bytesOfWords (ws : List Word) : wordsOfBytes (bytesOfWords ws) = ws := by
  induction ws with
  | nil => rfl
  | cons w ws ih =>
    rw [bytesOfWords_cons]
    simp only [bytesOfWord, List.cons_append, List.nil_append, wordsOfBytes, wordOfBytes_bytes, ih]

/-- Byte `b` of word `i`, among the bytes of a list of words. -/
theorem getElem_bytesOfWords (ws : List Word) :
    ∀ i (h : i < ws.length) b, b < 4 →
      (bytesOfWords ws)[4 * i + b]? = some (ws[i].extractLsb' (8 * b) 8) := by
  induction ws with
  | nil => intro i h; simp at h
  | cons w ws ih =>
    intro i h b hb
    rw [bytesOfWords_cons]
    cases i with
    | zero =>
      rw [List.getElem?_append_left (by simp [bytesOfWord]; omega)]
      rcases b with _ | _ | _ | _ | b <;> simp [bytesOfWord] at *
      omega
    | succ i =>
      rw [List.getElem?_append_right (by simp [bytesOfWord]; omega)]
      simp only [bytesOfWord, List.length_cons, List.length_nil, List.getElem_cons_succ]
      rw [show 4 * (i + 1) + b - (0 + 1 + 1 + 1 + 1) = 4 * i + b by omega]
      exact ih i (by simpa using h) b hb

theorem Memory.readByte_writeWords_inside (m : Memory) (lo : Nat) (ws : List Word) (i : Nat) (h : i < ws.length) (b : Nat)
    (_hb : b < 4) : (m.writeWords lo ws).readByte (lo + 4 * i + b) = ws[i].extractLsb' (8 * b) 8 := by
  unfold Memory.writeWords
  rw [show lo + 4 * i + b = lo + (4 * i + b) by omega]
  rw [Memory.readByte_writeBytes_inside _ _ _ _ (by rw [length_bytesOfWords]; omega)]
  have := getElem_bytesOfWords ws i h b _hb
  rw [List.getElem?_eq_getElem (by rw [length_bytesOfWords]; omega)] at this
  exact Option.some.inj this

/-- A word written reads back as written. -/
theorem Memory.readWord_writeWords_inside (m : Memory) (lo : Nat) (ws : List Word) (i : Nat) (h : i < ws.length) :
    (m.writeWords lo ws).readWord (lo + 4 * i) = ws[i] := by
  have hr := Memory.readByte_writeWords_inside m lo ws i h
  unfold Memory.readWord
  have h0 := hr 0 (by omega)
  rw [Nat.add_zero] at h0
  rw [h0, hr 1 (by omega), hr 2 (by omega), hr 3 (by omega)]
  exact wordOfBytes_bytes _

theorem Memory.readByte_writeWords_outside (m : Memory) (lo : Nat) (ws : List Word) (a : Nat)
    (h : a < lo ∨ lo + 4 * ws.length ≤ a) : (m.writeWords lo ws).readByte a = m.readByte a :=
  Memory.readByte_writeBytes_outside _ _ _ _ (by simpa using h)

/-- A word none of whose bytes is written reads as before. -/
theorem Memory.readWord_writeBytes_outside (m : Memory) (lo : Nat) (bs : List Byte) (a : Nat)
    (h : a + 4 ≤ lo ∨ lo + bs.length ≤ a) : (m.writeBytes lo bs).readWord a = m.readWord a := by
  unfold Memory.readWord
  rw [Memory.readByte_writeBytes_outside _ _ _ a (by omega), Memory.readByte_writeBytes_outside _ _ _ (a + 1) (by omega),
    Memory.readByte_writeBytes_outside _ _ _ (a + 2) (by omega), Memory.readByte_writeBytes_outside _ _ _ (a + 3) (by omega)]

theorem Memory.readWord_writeWords_outside (m : Memory) (lo : Nat) (ws : List Word) (a : Nat)
    (h : a + 4 ≤ lo ∨ lo + 4 * ws.length ≤ a) : (m.writeWords lo ws).readWord a = m.readWord a :=
  Memory.readWord_writeBytes_outside _ _ _ _ (by simpa using h)

theorem Memory.wf_writeWords {m : Memory} (hm : m.Wf) {lo : Nat} {ws : List Word}
    (hb : lo + 4 * ws.length ≤ Config.apertureBytes) : (m.writeWords lo ws).Wf :=
  Memory.wf_writeBytes hm (by simpa using hb)

/-! ### The one-pass reads -/

theorem findCell_none_of_lt {a : Nat} {cs : List Host.Cell} (h : ∀ c ∈ cs, a < c.1) : findCell a cs = none := by
  induction cs with
  | nil => rfl
  | cons c cs ih =>
    have h1 : c.1 ≠ a := by have := h c (by simp); omega
    simp [findCell, h1, ih fun d hd => h d (by simp [hd])]

theorem walkBytes_eq_map (f : Fill) :
    ∀ n a (cs : List Host.Cell), cs.Pairwise (fun c d => c.1 < d.1) → (∀ c ∈ cs, a ≤ c.1) →
      walkBytes f n a cs = (List.range n).map fun i => (findCell (a + i) cs).getD (f.byteAt (a + i)) := by
  intro n
  induction n with
  | zero => intro a cs _ _; rfl
  | succ n ih =>
    intro a cs hs hlo
    rw [List.range_succ_eq_map, List.map_cons, List.map_map]
    cases cs with
    | nil =>
      rw [walkBytes, ih (a + 1) [] List.Pairwise.nil (by simp)]
      simp only [findCell, Option.getD_none, Nat.add_zero, List.cons.injEq, true_and]
      apply List.map_congr_left
      intro i _
      simp only [Function.comp]
      congr 1; omega
    | cons c cs =>
      rw [walkBytes]
      obtain ⟨hc, hs'⟩ := List.pairwise_cons.mp hs
      by_cases h : c.1 = a
      · rw [if_pos h, ih (a + 1) cs hs' (fun d hd => by have := hc d hd; omega)]
        simp only [findCell, Nat.add_zero, h, if_true, Option.getD_some, List.cons.injEq, true_and]
        apply List.map_congr_left
        intro i _
        simp only [Function.comp]
        rw [if_neg (by omega), show a + 1 + i = a + Nat.succ i by omega]
      · have hlt : a < c.1 := by have := hlo c (by simp); omega
        rw [if_neg h, ih (a + 1) (c :: cs) hs (fun d hd => by
          rcases List.mem_cons.mp hd with rfl | hd
          · omega
          · have := hc d hd; omega)]
        have hn : findCell a (c :: cs) = none := findCell_none_of_lt fun d hd => by
          rcases List.mem_cons.mp hd with rfl | hd
          · omega
          · have := hc d hd; omega
        simp only [Nat.add_zero, hn, Option.getD_none, List.cons.injEq, true_and]
        apply List.map_congr_left
        intro i _
        simp only [Function.comp]
        rw [show a + 1 + i = a + Nat.succ i by omega]

theorem findCell_dropWhile (lo a : Nat) (h : lo ≤ a) (cs : List Host.Cell) :
    findCell a (cs.dropWhile fun c => decide (c.1 < lo)) = findCell a cs := by
  induction cs with
  | nil => rfl
  | cons c cs ih =>
    by_cases hc : c.1 < lo
    · rw [List.dropWhile_cons_of_pos (by simpa using hc), ih]
      have : c.1 ≠ a := by omega
      simp [findCell, this]
    · rw [List.dropWhile_cons_of_neg (by simpa using hc)]

theorem le_of_mem_dropWhile (lo : Nat) (cs : List Host.Cell) (hs : cs.Pairwise (fun c d => c.1 < d.1)) :
    ∀ c ∈ cs.dropWhile (fun c => decide (c.1 < lo)), lo ≤ c.1 := by
  induction cs with
  | nil => simp
  | cons c cs ih =>
    obtain ⟨hc, hs'⟩ := List.pairwise_cons.mp hs
    by_cases h : c.1 < lo
    · rw [List.dropWhile_cons_of_pos (by simpa using h)]; exact ih hs'
    · rw [List.dropWhile_cons_of_neg (by simpa using h)]
      intro d hd
      rcases List.mem_cons.mp hd with rfl | hd
      · omega
      · have := hc d hd; omega

/-- In a canonical memory the one-pass read is `readByte` at each offset. -/
theorem Memory.readBytes_eq_map_readByte {m : Memory} (hm : m.Wf) (lo len : Nat) :
    m.readBytes lo len = (List.range len).map fun i => m.readByte (lo + i) := by
  unfold Memory.readBytes
  rw [walkBytes_eq_map _ _ _ _ (hm.1.sublist (List.dropWhile_sublist _)) (le_of_mem_dropWhile _ _ hm.1)]
  apply List.map_congr_left
  intro i _
  rw [findCell_dropWhile lo (lo + i) (by omega)]
  rfl

@[simp] theorem length_walkBytes (f : Fill) : ∀ n a cs, (walkBytes f n a cs).length = n := by
  intro n
  induction n with
  | zero => intro a cs; rfl
  | succ n ih =>
    intro a cs
    cases cs with
    | nil => simp [walkBytes, ih]
    | cons c cs => by_cases h : c.1 = a <;> simp [walkBytes, h, ih]

@[simp] theorem Memory.length_readBytes (m : Memory) (lo len : Nat) : (m.readBytes lo len).length = len :=
  length_walkBytes _ _ _ _

theorem length_wordsOfBytes : ∀ n (bs : List Byte), bs.length = 4 * n → (wordsOfBytes bs).length = n := by
  intro n
  induction n with
  | zero => intro bs h; simp at h; subst h; rfl
  | succ n ih =>
    intro bs h
    match bs, h with
    | b0 :: b1 :: b2 :: b3 :: rest, h => simp [wordsOfBytes, ih rest (by simp at h; omega)]
    | [], h | [_], h | [_, _], h | [_, _, _], h => simp at h <;> omega

@[simp] theorem Memory.length_readWords (m : Memory) (lo count : Nat) : (m.readWords lo count).length = count :=
  length_wordsOfBytes _ _ (by simp)

theorem wordsOfBytes_map (g : Nat → Byte) :
    ∀ n lo, wordsOfBytes ((List.range (4 * n)).map fun i => g (lo + i)) =
      (List.range n).map fun i =>
        wordOfBytes (g (lo + 4 * i)) (g (lo + 4 * i + 1)) (g (lo + 4 * i + 2)) (g (lo + 4 * i + 3)) := by
  intro n
  induction n with
  | zero => intro lo; rfl
  | succ n ih =>
    intro lo
    have hr : List.range (4 * (n + 1)) = 0 :: 1 :: 2 :: 3 :: (List.range (4 * n)).map (· + 4) := by
      rw [show 4 * (n + 1) = 4 * n + 1 + 1 + 1 + 1 by omega]
      simp [List.range_succ_eq_map, List.map_map, Function.comp_def]
    have h := ih (lo + 4)
    rw [hr, List.range_succ_eq_map]
    simp only [List.map_cons, List.map_map, wordsOfBytes, Function.comp_def, Nat.add_zero, Nat.mul_zero, List.cons.injEq]
    refine ⟨trivial, ?_⟩
    rw [show (fun x => g (lo + (x + 4))) = fun x => g (lo + 4 + x) by funext x; congr 1; omega, h]
    apply List.map_congr_left
    intro i _
    simp only [Nat.succ_eq_add_one]
    rw [show lo + 4 + 4 * i = lo + 4 * (i + 1) by omega]

/-- In a canonical memory the one-pass word read is `readWord` at each word. -/
theorem Memory.readWords_eq_map_readWord {m : Memory} (hm : m.Wf) (lo count : Nat) :
    m.readWords lo count = (List.range count).map fun i => m.readWord (lo + 4 * i) := by
  unfold Memory.readWords
  rw [Memory.readBytes_eq_map_readByte hm, wordsOfBytes_map (fun a => m.readByte a)]
  rfl

end Sys2Proof.Machine
end

