-- ==== Sys2Proof/Laws/Setup.lean ====
section
/-!
SUPPORT. What `CONFIG`'s memory holds, word by word: each table's entries, and zero everywhere else (40_setup.md R133 to R149).
-/

namespace Sys2Proof.Machine

/-! ### Lists of pairs -/

theorem length_flatMap_pair {α β : Type} (g h : α → β) (l : List α) :
    (l.flatMap fun m => [g m, h m]).length = 2 * l.length := by
  induction l with
  | nil => rfl
  | cons a l ih => simp [List.flatMap_cons, ih]; omega

theorem getElem?_flatMap_pair {α β : Type} (g h : α → β) (l : List α) :
    ∀ i, (l.flatMap fun m => [g m, h m])[2 * i]? = l[i]?.map g ∧ (l.flatMap fun m => [g m, h m])[2 * i + 1]? = l[i]?.map h := by
  induction l with
  | nil => intro i; simp
  | cons a l ih =>
    intro i
    cases i with
    | zero => simp [List.flatMap_cons]
    | succ i =>
      obtain ⟨h1, h2⟩ := ih i
      rw [List.flatMap_cons, show 2 * (i + 1) = 2 * i + 2 by omega]
      exact ⟨by simpa using h1, by simpa using h2⟩

/-! ### The tables' words -/

variable {P : Params}

namespace Lut

/-- The tables depend on the parameters through `LUT_VALUES` alone (R140). -/
theorem word_congr {P P' : Params} (h : P.lutValues = P'.lutValues) (x : Entry) : word x P = word x P' := by
  unfold word; rw [h]

/-- An entry whose real number is 0 is stored as `+0.0`, whatever `LUT_VALUES` is (R140). -/
theorem word_of_isZero {x : Entry} (h : x.isZero = true) : word x P = 0x00000000 := by simp [word, h]

/-- At the default of `LUT_VALUES` every entry is the rounded one, the exact zeros included. -/
theorem word_default (x : Entry) : word x = (rounded x).toBits := by
  have h0 : (entry false (sine 0)).toBits = 0x00000000 := by decide +kernel
  unfold word
  split
  · rename_i h
    cases x with
    | twc e k =>
      have hk : 4 * k = fftSize e := by simpa [Entry.isZero] using h
      simp [rounded, twc, hk, cosineOf, sineOf, h0]
    | tws e k =>
      have hk : k = 0 := by simpa [Entry.isZero] using h
      simp [rounded, tws, hk, sineOf, h0]
    | rotc e m => cases h
    | rots e m => cases h
    | win L k => cases h
  · rfl

@[simp] theorem length_rotWords (e : Nat) : (rotWords e P).length = 2 * fftSize e := by
  rw [rotWords, length_flatMap_pair, List.length_range]

@[simp] theorem length_twWords (e : Nat) : (twWords e P).length = 2 * (fftSize e / 2) := by
  rw [twWords, length_flatMap_pair, List.length_range]

@[simp] theorem length_brWords (e : Nat) : (brWords e).length = fftSize e := by simp [brWords]

@[simp] theorem length_winWords (L : Nat) : (winWords L P).length = L := by simp [winWords]

theorem fftSize_le {e : Nat} (h : e ≤ 13) : fftSize e ≤ 2048 :=
  Nat.pow_le_pow_right (n := 2) (by omega) (show e - 2 ≤ 11 by omega)

theorem rotWords_getElem? (e m : Nat) :
    (rotWords e P)[2 * m]? = (if m < fftSize e then some (word (.rotc e m) P) else none) ∧
      (rotWords e P)[2 * m + 1]? = if m < fftSize e then some (word (.rots e m) P) else none := by
  obtain ⟨h1, h2⟩ := getElem?_flatMap_pair (fun m => word (.rotc e m) P) (fun m => word (.rots e m) P) (List.range (fftSize e)) m
  unfold rotWords
  rw [h1, h2]
  by_cases h : m < fftSize e <;> simp [h]

theorem twWords_getElem? (e k : Nat) :
    (twWords e P)[2 * k]? = (if k < fftSize e / 2 then some (word (.twc e k) P) else none) ∧
      (twWords e P)[2 * k + 1]? = if k < fftSize e / 2 then some (word (.tws e k) P) else none := by
  obtain ⟨h1, h2⟩ := getElem?_flatMap_pair (fun k => word (.twc e k) P) (fun k => word (.tws e k) P) (List.range (fftSize e / 2)) k
  unfold twWords
  rw [h1, h2]
  by_cases h : k < fftSize e / 2 <;> simp [h]

theorem brWords_getElem? (e i : Nat) :
    (brWords e)[i]? = if i < fftSize e then some (BitVec.ofNat 32 (bitrev (e - 2) i)) else none := by
  by_cases h : i < fftSize e <;> simp [brWords, h]

theorem winWords_getElem? (L k : Nat) : (winWords L P)[k]? = if k < L then some (word (.win L k) P) else none := by
  by_cases h : k < L <;> simp [winWords, h]

end Lut

/-! ### One write of words -/

theorem getD_ite_some {α : Type} (c : Prop) [Decidable c] (x y : α) : (if c then some x else none).getD y = if c then x else y := by
  split <;> rfl

/-- A word at a multiple of 4 from a write's base: the word written there, or what was there before. -/
theorem Memory.readWord_writeWords (m : Memory) (lo : Nat) (ws : List Word) (i : Nat) :
    (m.writeWords lo ws).readWord (lo + 4 * i) = (ws[i]?).getD (m.readWord (lo + 4 * i)) := by
  by_cases h : i < ws.length
  · rw [Memory.readWord_writeWords_inside m lo ws i h]; simp [h]
  · rw [Memory.readWord_writeWords_outside _ _ _ _ (by omega)]; simp [h]

/-! ### A bank -/

section Bank
variable (f : BlockFlag) {e : Nat} (he : e ≤ 13) (m : Memory)
include he

theorem readByte_writeBank_outside (a : Nat) (h : a < bankAddr f ∨ bankAddr f + 0x8000 ≤ a) :
    (writeBank f e m P).readByte a = m.readByte a := by
  have hM := Lut.fftSize_le he
  unfold writeBank
  rw [Memory.readByte_writeWords_outside, Memory.readByte_writeWords_outside, Memory.readByte_writeWords_outside] <;>
    simp <;> omega

theorem readWord_writeBank_outside (a : Nat) (h : a + 4 ≤ bankAddr f ∨ bankAddr f + 0x8000 ≤ a) :
    (writeBank f e m P).readWord a = m.readWord a := by
  simp only [Memory.readWord]
  rw [readByte_writeBank_outside f he m a (by omega), readByte_writeBank_outside f he m (a + 1) (by omega),
    readByte_writeBank_outside f he m (a + 2) (by omega), readByte_writeBank_outside f he m (a + 3) (by omega)]

theorem readWord_writeBank_rotc (i : Nat) (hi : i < 2048) :
    (writeBank f e m P).readWord (rotcAddr f i) = if i < Lut.fftSize e then Lut.word (.rotc e i) P else m.readWord (rotcAddr f i) := by
  have hM := Lut.fftSize_le he
  have e1 : rotcAddr f i = bankAddr f + 4 * (2 * i) := by simp [rotcAddr]; omega
  unfold writeBank
  rw [Memory.readWord_writeWords_outside _ _ _ _ (by rw [e1]; simp; omega),
    Memory.readWord_writeWords_outside _ _ _ _ (by rw [e1]; simp; omega), e1, Memory.readWord_writeWords,
    (Lut.rotWords_getElem? e i).1, getD_ite_some]

theorem readWord_writeBank_rots (i : Nat) (hi : i < 2048) :
    (writeBank f e m P).readWord (rotsAddr f i) = if i < Lut.fftSize e then Lut.word (.rots e i) P else m.readWord (rotsAddr f i) := by
  have hM := Lut.fftSize_le he
  have e1 : rotsAddr f i = bankAddr f + 4 * (2 * i + 1) := by simp [rotsAddr]; omega
  unfold writeBank
  rw [Memory.readWord_writeWords_outside _ _ _ _ (by rw [e1]; simp; omega),
    Memory.readWord_writeWords_outside _ _ _ _ (by rw [e1]; simp; omega), e1, Memory.readWord_writeWords,
    (Lut.rotWords_getElem? e i).2, getD_ite_some]

theorem readWord_writeBank_twc (k : Nat) (hk : k < 1024) :
    (writeBank f e m P).readWord (twcAddr f k) =
      if k < Lut.fftSize e / 2 then Lut.word (.twc e k) P else m.readWord (twcAddr f k) := by
  have hM := Lut.fftSize_le he
  have e1 : twcAddr f k = bankAddr f + 0x4000 + 4 * (2 * k) := by simp [twcAddr]; omega
  unfold writeBank
  rw [Memory.readWord_writeWords_outside _ _ _ _ (by rw [e1]; simp; omega), e1, Memory.readWord_writeWords,
    (Lut.twWords_getElem? e k).1, ← e1]
  split
  · rfl
  · exact Memory.readWord_writeWords_outside _ _ _ _ (by rw [e1]; simp; omega)

theorem readWord_writeBank_tws (k : Nat) (hk : k < 1024) :
    (writeBank f e m P).readWord (twsAddr f k) =
      if k < Lut.fftSize e / 2 then Lut.word (.tws e k) P else m.readWord (twsAddr f k) := by
  have hM := Lut.fftSize_le he
  have e1 : twsAddr f k = bankAddr f + 0x4000 + 4 * (2 * k + 1) := by simp [twsAddr]; omega
  unfold writeBank
  rw [Memory.readWord_writeWords_outside _ _ _ _ (by rw [e1]; simp; omega), e1, Memory.readWord_writeWords,
    (Lut.twWords_getElem? e k).2, ← e1]
  split
  · rfl
  · exact Memory.readWord_writeWords_outside _ _ _ _ (by rw [e1]; simp; omega)

theorem readWord_writeBank_br (i : Nat) :
    (writeBank f e m P).readWord (brAddr f i) =
      if i < Lut.fftSize e then BitVec.ofNat 32 (Lut.bitrev (e - 2) i) else m.readWord (brAddr f i) := by
  have hM := Lut.fftSize_le he
  unfold writeBank
  rw [show brAddr f i = bankAddr f + 0x6000 + 4 * i from rfl, Memory.readWord_writeWords, Lut.brWords_getElem?]
  split
  · rfl
  · rw [Option.getD_none, Memory.readWord_writeWords_outside _ _ _ _ (by simp; omega),
      Memory.readWord_writeWords_outside _ _ _ _ (by simp; omega)]

theorem wf_writeBank (hm : m.Wf) : (writeBank f e m P).Wf := by
  have hM := Lut.fftSize_le he
  have hb : bankAddr f ≤ 0x98000 := by cases f <;> simp [bankAddr, flagNumber]
  refine Memory.wf_writeWords (Memory.wf_writeWords (Memory.wf_writeWords hm ?_) ?_) ?_ <;>
    simp [Config.apertureBytes] <;> omega

end Bank

@[simp] theorem fill_writeBank (f : BlockFlag) (e : Nat) (m : Memory) : (writeBank f e m P).fill = m.fill := rfl

/-! ### A window shape -/

/-- The slope length of a shape for the exponents of its two blocks (R145). -/
theorem slope_le {ep ec : Nat} (h : ep ≤ 13) : Overlap.slope { P := 2 ^ ep, C := 2 ^ ec } ≤ 4096 := by
  have : 2 ^ ep ≤ 2 ^ 13 := Nat.pow_le_pow_right (by omega) h
  simp only [Overlap.slope]
  omega

section Shape
variable (pf cf : BlockFlag) {ep : Nat} (hp : ep ≤ 13) (ec : Nat) (m : Memory)
include hp

theorem readByte_writeShape_outside (a : Nat)
    (h : a < winAddr (shapeNumber pf cf) 0 ∨ winAddr (shapeNumber pf cf) 0 + 0x4000 ≤ a) :
    (writeShape pf cf ep ec m P).readByte a = m.readByte a := by
  have := slope_le (ec := ec) hp
  exact Memory.readByte_writeWords_outside _ _ _ _ (by simp; omega)

theorem readWord_writeShape_outside (a : Nat)
    (h : a + 4 ≤ winAddr (shapeNumber pf cf) 0 ∨ winAddr (shapeNumber pf cf) 0 + 0x4000 ≤ a) :
    (writeShape pf cf ep ec m P).readWord a = m.readWord a := by
  have := slope_le (ec := ec) hp
  exact Memory.readWord_writeWords_outside _ _ _ _ (by simp; omega)

omit hp in
theorem readWord_writeShape (k : Nat) :
    (writeShape pf cf ep ec m P).readWord (winAddr (shapeNumber pf cf) k) =
      if k < Overlap.slope { P := 2 ^ ep, C := 2 ^ ec } then Lut.word (.win (Overlap.slope { P := 2 ^ ep, C := 2 ^ ec }) k) P
      else m.readWord (winAddr (shapeNumber pf cf) k) := by
  unfold writeShape
  have e1 : ∀ s, winAddr s k = winAddr s 0 + 4 * k := by intro s; simp [winAddr]
  rw [e1, Memory.readWord_writeWords, Lut.winWords_getElem?, getD_ite_some]

theorem wf_writeShape (hm : m.Wf) : (writeShape pf cf ep ec m P).Wf := by
  have := slope_le (ec := ec) hp
  have hs : winAddr (shapeNumber pf cf) 0 ≤ 0xAC000 := by cases pf <;> cases cf <;> simp [winAddr, shapeNumber, flagNumber]
  exact Memory.wf_writeWords hm (by simp [Config.apertureBytes]; omega)

end Shape

@[simp] theorem fill_writeShape (pf cf : BlockFlag) (ep ec : Nat) (m : Memory) : (writeShape pf cf ep ec m P).fill = m.fill := rfl

/-! ### The memory after `CONFIG` -/

@[simp] theorem readByte_cleared (a : Nat) : Memory.cleared.readByte a = 0 := rfl

@[simp] theorem readWord_cleared (a : Nat) : Memory.cleared.readWord a = 0 := by
  simp only [Memory.readWord, readByte_cleared]; decide

/-- The exponent of a flag's blocks. -/
def expOfFlag (e0 e1 : Nat) : BlockFlag → Nat
  | .short => e0
  | .long => e1

@[simp] theorem fill_setupMemory (e0 e1 : Nat) : (setupMemory e0 e1 P).fill = .zero := rfl

/-- `CONFIG`'s memory depends on the parameters through `LUT_VALUES` alone (R140). -/
theorem setupMemory_congr {P P' : Params} (h : P.lutValues = P'.lutValues) (e0 e1 : Nat) : setupMemory e0 e1 P = setupMemory e0 e1 P' := by
  simp only [setupMemory, writeBank, writeShape, Lut.rotWords, Lut.twWords, Lut.winWords, Lut.word_congr h]

section Setup
variable {e0 e1 : Nat} (h0 : e0 ≤ 13) (h1 : e1 ≤ 13)
include h0 h1

theorem wf_setupMemory : (setupMemory e0 e1 P).Wf := by
  unfold setupMemory
  exact wf_writeShape _ _ h1 _ _ (wf_writeShape _ _ h1 _ _ (wf_writeShape _ _ h0 _ _ (wf_writeShape _ _ h0 _ _
    (wf_writeBank _ h1 _ (wf_writeBank _ h0 _ Memory.wf_cleared)))))

/-- Outside the LUT windows every byte is zero (R133). -/
theorem readByte_setupMemory_outside (a : Nat) (h : a < 0x90000 ∨ 0xB0000 ≤ a) : (setupMemory e0 e1 P).readByte a = 0 := by
  unfold setupMemory
  rw [readByte_writeShape_outside _ _ h1 _ _ _ (by simp [winAddr, shapeNumber, flagNumber]; omega),
    readByte_writeShape_outside _ _ h1 _ _ _ (by simp [winAddr, shapeNumber, flagNumber]; omega),
    readByte_writeShape_outside _ _ h0 _ _ _ (by simp [winAddr, shapeNumber, flagNumber]; omega),
    readByte_writeShape_outside _ _ h0 _ _ _ (by simp [winAddr, shapeNumber, flagNumber]; omega),
    readByte_writeBank_outside _ h1 _ _ (by simp [bankAddr, flagNumber]; omega),
    readByte_writeBank_outside _ h0 _ _ (by simp [bankAddr, flagNumber]; omega), readByte_cleared]

/-- Below the window LUT only the banks have written. -/
theorem readWord_setupMemory_banks (a : Nat) (h : a + 4 ≤ 0xA0000) :
    (setupMemory e0 e1 P).readWord a = (writeBank .long e1 (writeBank .short e0 Memory.cleared P) P).readWord a := by
  unfold setupMemory
  rw [readWord_writeShape_outside _ _ h1 _ _ _ (by simp [winAddr, shapeNumber, flagNumber]; omega),
    readWord_writeShape_outside _ _ h1 _ _ _ (by simp [winAddr, shapeNumber, flagNumber]; omega),
    readWord_writeShape_outside _ _ h0 _ _ _ (by simp [winAddr, shapeNumber, flagNumber]; omega),
    readWord_writeShape_outside _ _ h0 _ _ _ (by simp [winAddr, shapeNumber, flagNumber]; omega)]

/-- `ROTC[f][m]` (R141, R144). -/
theorem readWord_setupMemory_rotc (f : BlockFlag) (m : Nat) (hm : m < 2048) :
    (setupMemory e0 e1 P).readWord (rotcAddr f m) =
      if m < Lut.fftSize (expOfFlag e0 e1 f) then Lut.word (.rotc (expOfFlag e0 e1 f) m) P else 0 := by
  rw [readWord_setupMemory_banks h0 h1 _ (by cases f <;> simp [rotcAddr, bankAddr, flagNumber] <;> omega)]
  cases f with
  | short =>
    rw [readWord_writeBank_outside .long h1 _ _ (by simp [rotcAddr, bankAddr, flagNumber]; omega), readWord_writeBank_rotc _ h0 _ _ hm]
    simp only [readWord_cleared, expOfFlag]
    rfl
  | long =>
    rw [readWord_writeBank_rotc _ h1 _ _ hm, readWord_writeBank_outside .short h0 _ _ (by simp [rotcAddr, bankAddr, flagNumber])]
    simp only [readWord_cleared, expOfFlag]
    rfl

/-- `ROTS[f][m]` (R141, R144). -/
theorem readWord_setupMemory_rots (f : BlockFlag) (m : Nat) (hm : m < 2048) :
    (setupMemory e0 e1 P).readWord (rotsAddr f m) =
      if m < Lut.fftSize (expOfFlag e0 e1 f) then Lut.word (.rots (expOfFlag e0 e1 f) m) P else 0 := by
  rw [readWord_setupMemory_banks h0 h1 _ (by cases f <;> simp [rotsAddr, bankAddr, flagNumber] <;> omega)]
  cases f with
  | short =>
    rw [readWord_writeBank_outside .long h1 _ _ (by simp [rotsAddr, bankAddr, flagNumber]; omega), readWord_writeBank_rots _ h0 _ _ hm]
    simp only [readWord_cleared, expOfFlag]
    rfl
  | long =>
    rw [readWord_writeBank_rots _ h1 _ _ hm, readWord_writeBank_outside .short h0 _ _ (by simp [rotsAddr, bankAddr, flagNumber]; omega)]
    simp only [readWord_cleared, expOfFlag]
    rfl

/-- `TWC[f][k]` (R142, R144). -/
theorem readWord_setupMemory_twc (f : BlockFlag) (k : Nat) (hk : k < 1024) :
    (setupMemory e0 e1 P).readWord (twcAddr f k) =
      if k < Lut.fftSize (expOfFlag e0 e1 f) / 2 then Lut.word (.twc (expOfFlag e0 e1 f) k) P else 0 := by
  rw [readWord_setupMemory_banks h0 h1 _ (by cases f <;> simp [twcAddr, bankAddr, flagNumber] <;> omega)]
  cases f with
  | short =>
    rw [readWord_writeBank_outside .long h1 _ _ (by simp [twcAddr, bankAddr, flagNumber]; omega), readWord_writeBank_twc _ h0 _ _ hk]
    simp only [readWord_cleared, expOfFlag]
    rfl
  | long =>
    rw [readWord_writeBank_twc _ h1 _ _ hk, readWord_writeBank_outside .short h0 _ _ (by simp [twcAddr, bankAddr, flagNumber]; omega)]
    simp only [readWord_cleared, expOfFlag]
    rfl

/-- `TWS[f][k]` (R142, R144). -/
theorem readWord_setupMemory_tws (f : BlockFlag) (k : Nat) (hk : k < 1024) :
    (setupMemory e0 e1 P).readWord (twsAddr f k) =
      if k < Lut.fftSize (expOfFlag e0 e1 f) / 2 then Lut.word (.tws (expOfFlag e0 e1 f) k) P else 0 := by
  rw [readWord_setupMemory_banks h0 h1 _ (by cases f <;> simp [twsAddr, bankAddr, flagNumber] <;> omega)]
  cases f with
  | short =>
    rw [readWord_writeBank_outside .long h1 _ _ (by simp [twsAddr, bankAddr, flagNumber]; omega), readWord_writeBank_tws _ h0 _ _ hk]
    simp only [readWord_cleared, expOfFlag]
    rfl
  | long =>
    rw [readWord_writeBank_tws _ h1 _ _ hk, readWord_writeBank_outside .short h0 _ _ (by simp [twsAddr, bankAddr, flagNumber]; omega)]
    simp only [readWord_cleared, expOfFlag]
    rfl

/-- `BR[f][i]` (R143, R144). -/
theorem readWord_setupMemory_br (f : BlockFlag) (i : Nat) (hi : i < 2048) :
    (setupMemory e0 e1 P).readWord (brAddr f i) =
      if i < Lut.fftSize (expOfFlag e0 e1 f) then BitVec.ofNat 32 (Lut.bitrev (expOfFlag e0 e1 f - 2) i) else 0 := by
  rw [readWord_setupMemory_banks h0 h1 _ (by cases f <;> simp [brAddr, bankAddr, flagNumber] <;> omega)]
  cases f with
  | short =>
    rw [readWord_writeBank_outside .long h1 _ _ (by simp [brAddr, bankAddr, flagNumber]; omega), readWord_writeBank_br _ h0]
    simp only [readWord_cleared, expOfFlag]
    rfl
  | long =>
    rw [readWord_writeBank_br _ h1, readWord_writeBank_outside .short h0 _ _ (by simp [brAddr, bankAddr, flagNumber]; omega)]
    simp only [readWord_cleared, expOfFlag]
    rfl

/-- `WIN[s][k]` (R146, R149). -/
theorem readWord_setupMemory_win (pf cf : BlockFlag) (k : Nat) (hk : k < 4096) :
    (setupMemory e0 e1 P).readWord (winAddr (shapeNumber pf cf) k) =
      let L := Overlap.slope { P := 2 ^ expOfFlag e0 e1 pf, C := 2 ^ expOfFlag e0 e1 cf }
      if k < L then Lut.word (.win L k) P else 0 := by
  have hbanks : ∀ s, s < 4 → (writeBank .long e1 (writeBank .short e0 Memory.cleared P) P).readWord (winAddr s k) = 0 := by
    intro s _
    rw [readWord_writeBank_outside .long h1 _ _ (by simp [winAddr, bankAddr, flagNumber]; omega),
      readWord_writeBank_outside .short h0 _ _ (by simp [winAddr, bankAddr, flagNumber]; omega), readWord_cleared]
  unfold setupMemory
  cases pf <;> cases cf <;> simp only [expOfFlag]
  · rw [readWord_writeShape_outside .long .long h1 _ _ _ (by simp [winAddr, shapeNumber, flagNumber]; omega),
      readWord_writeShape_outside .long .short h1 _ _ _ (by simp [winAddr, shapeNumber, flagNumber]; omega),
      readWord_writeShape_outside .short .long h0 _ _ _ (by simp [winAddr, shapeNumber, flagNumber]; omega),
      readWord_writeShape, hbanks _ (by decide)]
    rfl
  · rw [readWord_writeShape_outside .long .long h1 _ _ _ (by simp [winAddr, shapeNumber, flagNumber]; omega),
      readWord_writeShape_outside .long .short h1 _ _ _ (by simp [winAddr, shapeNumber, flagNumber]; omega),
      readWord_writeShape, readWord_writeShape_outside .short .short h0 _ _ _ (by simp [winAddr, shapeNumber, flagNumber]),
      hbanks _ (by decide)]
    rfl
  · rw [readWord_writeShape_outside .long .long h1 _ _ _ (by simp [winAddr, shapeNumber, flagNumber]; omega),
      readWord_writeShape, readWord_writeShape_outside .short .long h0 _ _ _ (by simp [winAddr, shapeNumber, flagNumber]),
      readWord_writeShape_outside .short .short h0 _ _ _ (by simp [winAddr, shapeNumber, flagNumber]; omega), hbanks _ (by decide)]
    rfl
  · rw [readWord_writeShape, readWord_writeShape_outside .long .short h1 _ _ _ (by simp [winAddr, shapeNumber, flagNumber]),
      readWord_writeShape_outside .short .long h0 _ _ _ (by simp [winAddr, shapeNumber, flagNumber]; omega),
      readWord_writeShape_outside .short .short h0 _ _ _ (by simp [winAddr, shapeNumber, flagNumber]; omega), hbanks _ (by decide)]
    rfl

end Setup

end Sys2Proof.Machine
end

