-- ==== Sys2Proof/Laws/State.lean ====
section
/-!
SUPPORT. What each update of the state leaves in each field, true by definition: later proofs cite these and unfold no record update.
-/

namespace Sys2Proof.Machine

variable {P : Params}

/-! ### `raiseError` -/

@[simp] theorem raiseError_status (code : ErrCode) (w : Word) (s : State) : (raiseError code w s).status = { s.status with err := code, failed := true } := rfl
@[simp] theorem raiseError_configRb (code : ErrCode) (w : Word) (s : State) : (raiseError code w s).configRb = s.configRb := rfl
@[simp] theorem raiseError_outCount (code : ErrCode) (w : Word) (s : State) : (raiseError code w s).outCount = s.outCount := rfl
@[simp] theorem raiseError_errCmd (code : ErrCode) (w : Word) (s : State) : (raiseError code w s).errCmd = w := rfl
@[simp] theorem raiseError_mem (code : ErrCode) (w : Word) (s : State) : (raiseError code w s).mem = s.mem := rfl
@[simp] theorem raiseError_unit (code : ErrCode) (w : Word) (s : State) : (raiseError code w s).unit = s.unit := rfl
@[simp] theorem raiseError_resets (code : ErrCode) (w : Word) (s : State) : (raiseError code w s).resets = s.resets := rfl
@[simp] theorem raiseError_pending (code : ErrCode) (w : Word) (s : State) : (raiseError code w s).pending = s.pending := rfl
@[simp] theorem raiseError_reads (code : ErrCode) (w : Word) (s : State) : (raiseError code w s).reads = s.reads := rfl

/-! ### `resetRegisters` -/

@[simp] theorem resetRegisters_status (s : State) : (resetRegisters s).status = Status.reset := rfl
@[simp] theorem resetRegisters_configRb (s : State) : (resetRegisters s).configRb = ConfigRb.reset := rfl
@[simp] theorem resetRegisters_outCount (s : State) : (resetRegisters s).outCount = 0 := rfl
@[simp] theorem resetRegisters_errCmd (s : State) : (resetRegisters s).errCmd = 0 := rfl
@[simp] theorem resetRegisters_mem (s : State) : (resetRegisters s).mem = s.mem := rfl
@[simp] theorem resetRegisters_unit (s : State) : (resetRegisters s).unit = s.unit := rfl
@[simp] theorem resetRegisters_resets (s : State) : (resetRegisters s).resets = s.resets := rfl
@[simp] theorem resetRegisters_pending (s : State) : (resetRegisters s).pending = s.pending := rfl
@[simp] theorem resetRegisters_reads (s : State) : (resetRegisters s).reads = s.reads := rfl

/-! ### `hardwareReset` -/

@[simp] theorem hardwareReset_status (s : State) : (hardwareReset s).status = Status.reset := rfl
@[simp] theorem hardwareReset_configRb (s : State) : (hardwareReset s).configRb = ConfigRb.reset := rfl
@[simp] theorem hardwareReset_outCount (s : State) : (hardwareReset s).outCount = 0 := rfl
@[simp] theorem hardwareReset_errCmd (s : State) : (hardwareReset s).errCmd = 0 := rfl
@[simp] theorem hardwareReset_mem (s : State) : (hardwareReset s).mem = { fill := .powerOn s.unit (s.resets + 1), cells := [] } := rfl
@[simp] theorem hardwareReset_unit (s : State) : (hardwareReset s).unit = s.unit := rfl
@[simp] theorem hardwareReset_resets (s : State) : (hardwareReset s).resets = s.resets + 1 := rfl
@[simp] theorem hardwareReset_pending (s : State) : (hardwareReset s).pending = s.pending := rfl
@[simp] theorem hardwareReset_reads (s : State) : (hardwareReset s).reads = s.reads := rfl

/-! ### `configure` -/

@[simp] theorem configure_status (b8 : Byte) (nch : Nat) (s : State) : (configure b8 nch s P).status = { s.status.forget with configured := true } := rfl
@[simp] theorem configure_configRb (b8 : Byte) (nch : Nat) (s : State) : (configure b8 nch s P).configRb = { e0 := shortExp b8, e1 := longExp b8, nch := BitVec.ofNat 4 nch } := rfl
@[simp] theorem configure_outCount (b8 : Byte) (nch : Nat) (s : State) : (configure b8 nch s P).outCount = 0 := rfl
@[simp] theorem configure_errCmd (b8 : Byte) (nch : Nat) (s : State) : (configure b8 nch s P).errCmd = s.errCmd := rfl
@[simp] theorem configure_mem (b8 : Byte) (nch : Nat) (s : State) : (configure b8 nch s P).mem = setupMemory (shortExp b8).toNat (longExp b8).toNat P := rfl
@[simp] theorem configure_unit (b8 : Byte) (nch : Nat) (s : State) : (configure b8 nch s P).unit = s.unit := rfl
@[simp] theorem configure_resets (b8 : Byte) (nch : Nat) (s : State) : (configure b8 nch s P).resets = s.resets := rfl
@[simp] theorem configure_pending (b8 : Byte) (nch : Nat) (s : State) : (configure b8 nch s P).pending = s.pending := rfl
@[simp] theorem configure_reads (b8 : Byte) (nch : Nat) (s : State) : (configure b8 nch s P).reads = s.reads := rfl

/-! ### `transformChannel` -/

@[simp] theorem transformChannel_status (ch : Nat) (f : BlockFlag) (s : State) : (transformChannel ch f s P).status = s.status := rfl
@[simp] theorem transformChannel_configRb (ch : Nat) (f : BlockFlag) (s : State) : (transformChannel ch f s P).configRb = s.configRb := rfl
@[simp] theorem transformChannel_outCount (ch : Nat) (f : BlockFlag) (s : State) : (transformChannel ch f s P).outCount = s.outCount := rfl
@[simp] theorem transformChannel_errCmd (ch : Nat) (f : BlockFlag) (s : State) : (transformChannel ch f s P).errCmd = s.errCmd := rfl
@[simp] theorem transformChannel_mem (ch : Nat) (f : BlockFlag) (s : State) : (transformChannel ch f s P).mem = s.mem.writeWords (blkAddr ch 0) ((s.transformed ch f P).map F32.toBits) := rfl
@[simp] theorem transformChannel_unit (ch : Nat) (f : BlockFlag) (s : State) : (transformChannel ch f s P).unit = s.unit := rfl
@[simp] theorem transformChannel_resets (ch : Nat) (f : BlockFlag) (s : State) : (transformChannel ch f s P).resets = s.resets := rfl
@[simp] theorem transformChannel_pending (ch : Nat) (f : BlockFlag) (s : State) : (transformChannel ch f s P).pending = s.pending := rfl
@[simp] theorem transformChannel_reads (ch : Nat) (f : BlockFlag) (s : State) : (transformChannel ch f s P).reads = s.reads := rfl

/-! ### `retainBlocks` -/

@[simp] theorem retainBlocks_status (cf : BlockFlag) (s : State) : (retainBlocks cf s).status = s.status.endPacket cf := rfl
@[simp] theorem retainBlocks_configRb (cf : BlockFlag) (s : State) : (retainBlocks cf s).configRb = s.configRb := rfl
@[simp] theorem retainBlocks_outCount (cf : BlockFlag) (s : State) : (retainBlocks cf s).outCount = s.outCount := rfl
@[simp] theorem retainBlocks_errCmd (cf : BlockFlag) (s : State) : (retainBlocks cf s).errCmd = s.errCmd := rfl
@[simp] theorem retainBlocks_mem (cf : BlockFlag) (s : State) : (retainBlocks cf s).mem = (List.range s.nch).foldl (retainChannel (s.blockSize cf)) s.mem := rfl
@[simp] theorem retainBlocks_unit (cf : BlockFlag) (s : State) : (retainBlocks cf s).unit = s.unit := rfl
@[simp] theorem retainBlocks_resets (cf : BlockFlag) (s : State) : (retainBlocks cf s).resets = s.resets := rfl
@[simp] theorem retainBlocks_pending (cf : BlockFlag) (s : State) : (retainBlocks cf s).pending = s.pending := rfl
@[simp] theorem retainBlocks_reads (cf : BlockFlag) (s : State) : (retainBlocks cf s).reads = s.reads := rfl

/-! ### `clearCoef` -/

@[simp] theorem clearCoef_status (ch : Nat) (s : State) : (clearCoef ch s).status = s.status := rfl
@[simp] theorem clearCoef_configRb (ch : Nat) (s : State) : (clearCoef ch s).configRb = s.configRb := rfl
@[simp] theorem clearCoef_outCount (ch : Nat) (s : State) : (clearCoef ch s).outCount = s.outCount := rfl
@[simp] theorem clearCoef_errCmd (ch : Nat) (s : State) : (clearCoef ch s).errCmd = s.errCmd := rfl
@[simp] theorem clearCoef_mem (ch : Nat) (s : State) : (clearCoef ch s).mem = s.mem.clearBytes (coefAddr ch 0) (4 * Config.coefDepth) := rfl
@[simp] theorem clearCoef_unit (ch : Nat) (s : State) : (clearCoef ch s).unit = s.unit := rfl
@[simp] theorem clearCoef_resets (ch : Nat) (s : State) : (clearCoef ch s).resets = s.resets := rfl
@[simp] theorem clearCoef_pending (ch : Nat) (s : State) : (clearCoef ch s).pending = s.pending := rfl
@[simp] theorem clearCoef_reads (ch : Nat) (s : State) : (clearCoef ch s).reads = s.reads := rfl

/-! ### `clearAllCoef` -/

@[simp] theorem clearAllCoef_status (s : State) : (clearAllCoef s).status = s.status := rfl
@[simp] theorem clearAllCoef_configRb (s : State) : (clearAllCoef s).configRb = s.configRb := rfl
@[simp] theorem clearAllCoef_outCount (s : State) : (clearAllCoef s).outCount = s.outCount := rfl
@[simp] theorem clearAllCoef_errCmd (s : State) : (clearAllCoef s).errCmd = s.errCmd := rfl
@[simp] theorem clearAllCoef_mem (s : State) : (clearAllCoef s).mem = s.mem.clearBytes (coefAddr 0 0) (Config.nchMax * (4 * Config.coefDepth)) := rfl
@[simp] theorem clearAllCoef_unit (s : State) : (clearAllCoef s).unit = s.unit := rfl
@[simp] theorem clearAllCoef_resets (s : State) : (clearAllCoef s).resets = s.resets := rfl
@[simp] theorem clearAllCoef_pending (s : State) : (clearAllCoef s).pending = s.pending := rfl
@[simp] theorem clearAllCoef_reads (s : State) : (clearAllCoef s).reads = s.reads := rfl

/-! ### `State.answer` -/

@[simp] theorem State.answer_status (v : Word) (s : State) : (s.answer v).status = s.status := rfl
@[simp] theorem State.answer_configRb (v : Word) (s : State) : (s.answer v).configRb = s.configRb := rfl
@[simp] theorem State.answer_outCount (v : Word) (s : State) : (s.answer v).outCount = s.outCount := rfl
@[simp] theorem State.answer_errCmd (v : Word) (s : State) : (s.answer v).errCmd = s.errCmd := rfl
@[simp] theorem State.answer_mem (v : Word) (s : State) : (s.answer v).mem = s.mem := rfl
@[simp] theorem State.answer_unit (v : Word) (s : State) : (s.answer v).unit = s.unit := rfl
@[simp] theorem State.answer_resets (v : Word) (s : State) : (s.answer v).resets = s.resets := rfl
@[simp] theorem State.answer_pending (v : Word) (s : State) : (s.answer v).pending = s.pending := rfl
@[simp] theorem State.answer_reads (v : Word) (s : State) : (s.answer v).reads = s.reads ++ [v] := rfl

/-! ### `State.pollStatus` -/

@[simp] theorem State.pollStatus_status (polls : Nat) (s : State) : (s.pollStatus polls).status = s.status := rfl
@[simp] theorem State.pollStatus_configRb (polls : Nat) (s : State) : (s.pollStatus polls).configRb = s.configRb := rfl
@[simp] theorem State.pollStatus_outCount (polls : Nat) (s : State) : (s.pollStatus polls).outCount = s.outCount := rfl
@[simp] theorem State.pollStatus_errCmd (polls : Nat) (s : State) : (s.pollStatus polls).errCmd = s.errCmd := rfl
@[simp] theorem State.pollStatus_mem (polls : Nat) (s : State) : (s.pollStatus polls).mem = s.mem := rfl
@[simp] theorem State.pollStatus_unit (polls : Nat) (s : State) : (s.pollStatus polls).unit = s.unit := rfl
@[simp] theorem State.pollStatus_resets (polls : Nat) (s : State) : (s.pollStatus polls).resets = s.resets := rfl
@[simp] theorem State.pollStatus_pending (polls : Nat) (s : State) : (s.pollStatus polls).pending = s.pending := rfl
@[simp] theorem State.pollStatus_reads (polls : Nat) (s : State) : (s.pollStatus polls).reads = s.reads ++ List.replicate polls s.status.word := rfl

/-! ### `State.accept` -/

@[simp] theorem State.accept_status (s : State) : s.accept.status = { s.status with busy := true } := rfl
@[simp] theorem State.accept_configRb (s : State) : s.accept.configRb = s.configRb := rfl
@[simp] theorem State.accept_outCount (s : State) : s.accept.outCount = s.outCount := rfl
@[simp] theorem State.accept_errCmd (s : State) : s.accept.errCmd = s.errCmd := rfl
@[simp] theorem State.accept_mem (s : State) : s.accept.mem = s.mem := rfl
@[simp] theorem State.accept_unit (s : State) : s.accept.unit = s.unit := rfl
@[simp] theorem State.accept_resets (s : State) : s.accept.resets = s.resets := rfl
@[simp] theorem State.accept_pending (s : State) : s.accept.pending = s.pending := rfl
@[simp] theorem State.accept_reads (s : State) : s.accept.reads = s.reads := rfl

/-! ### `State.complete` -/

@[simp] theorem State.complete_status (s : State) : s.complete.status = { s.status with busy := false } := rfl
@[simp] theorem State.complete_configRb (s : State) : s.complete.configRb = s.configRb := rfl
@[simp] theorem State.complete_outCount (s : State) : s.complete.outCount = s.outCount := rfl
@[simp] theorem State.complete_errCmd (s : State) : s.complete.errCmd = s.errCmd := rfl
@[simp] theorem State.complete_mem (s : State) : s.complete.mem = s.mem := rfl
@[simp] theorem State.complete_unit (s : State) : s.complete.unit = s.unit := rfl
@[simp] theorem State.complete_resets (s : State) : s.complete.resets = s.resets := rfl
@[simp] theorem State.complete_pending (s : State) : s.complete.pending = s.pending := rfl
@[simp] theorem State.complete_reads (s : State) : s.complete.reads = s.reads := rfl

/-! ### The updates of `STATUS` -/

@[simp] theorem Status.markTransformed_busy (st : Status) (ch : Nat) (f : BlockFlag) : (st.markTransformed ch f).busy = st.busy := rfl
@[simp] theorem Status.markTransformed_configured (st : Status) (ch : Nat) (f : BlockFlag) : (st.markTransformed ch f).configured = st.configured := rfl
@[simp] theorem Status.markTransformed_failed (st : Status) (ch : Nat) (f : BlockFlag) : (st.markTransformed ch f).failed = st.failed := rfl
@[simp] theorem Status.markTransformed_prevValid (st : Status) (ch : Nat) (f : BlockFlag) : (st.markTransformed ch f).prevValid = st.prevValid := rfl
@[simp] theorem Status.markTransformed_prevFlag (st : Status) (ch : Nat) (f : BlockFlag) : (st.markTransformed ch f).prevFlag = st.prevFlag := rfl
@[simp] theorem Status.markTransformed_xfFlag (st : Status) (ch : Nat) (f : BlockFlag) : (st.markTransformed ch f).xfFlag = f := rfl
@[simp] theorem Status.markTransformed_xfDone (st : Status) (ch : Nat) (f : BlockFlag) : (st.markTransformed ch f).xfDone = st.xfDone ||| (1 <<< ch) := rfl
@[simp] theorem Status.markTransformed_err (st : Status) (ch : Nat) (f : BlockFlag) : (st.markTransformed ch f).err = st.err := rfl
@[simp] theorem Status.markAll_busy (st : Status) (done : Nat) (f : BlockFlag) : (st.markAll done f).busy = st.busy := rfl
@[simp] theorem Status.markAll_configured (st : Status) (done : Nat) (f : BlockFlag) : (st.markAll done f).configured = st.configured := rfl
@[simp] theorem Status.markAll_failed (st : Status) (done : Nat) (f : BlockFlag) : (st.markAll done f).failed = st.failed := rfl
@[simp] theorem Status.markAll_prevValid (st : Status) (done : Nat) (f : BlockFlag) : (st.markAll done f).prevValid = st.prevValid := rfl
@[simp] theorem Status.markAll_prevFlag (st : Status) (done : Nat) (f : BlockFlag) : (st.markAll done f).prevFlag = st.prevFlag := rfl
@[simp] theorem Status.markAll_xfFlag (st : Status) (done : Nat) (f : BlockFlag) : (st.markAll done f).xfFlag = f := rfl
@[simp] theorem Status.markAll_xfDone (st : Status) (done : Nat) (f : BlockFlag) : (st.markAll done f).xfDone = BitVec.ofNat 8 done := rfl
@[simp] theorem Status.markAll_err (st : Status) (done : Nat) (f : BlockFlag) : (st.markAll done f).err = st.err := rfl
@[simp] theorem Status.endPacket_busy (st : Status) (cf : BlockFlag) : (st.endPacket cf).busy = st.busy := rfl
@[simp] theorem Status.endPacket_configured (st : Status) (cf : BlockFlag) : (st.endPacket cf).configured = st.configured := rfl
@[simp] theorem Status.endPacket_failed (st : Status) (cf : BlockFlag) : (st.endPacket cf).failed = st.failed := rfl
@[simp] theorem Status.endPacket_prevValid (st : Status) (cf : BlockFlag) : (st.endPacket cf).prevValid = true := rfl
@[simp] theorem Status.endPacket_prevFlag (st : Status) (cf : BlockFlag) : (st.endPacket cf).prevFlag = cf := rfl
@[simp] theorem Status.endPacket_xfFlag (st : Status) (cf : BlockFlag) : (st.endPacket cf).xfFlag = .short := rfl
@[simp] theorem Status.endPacket_xfDone (st : Status) (cf : BlockFlag) : (st.endPacket cf).xfDone = 0 := rfl
@[simp] theorem Status.endPacket_err (st : Status) (cf : BlockFlag) : (st.endPacket cf).err = st.err := rfl
@[simp] theorem Status.forget_busy (st : Status) : (st.forget).busy = st.busy := rfl
@[simp] theorem Status.forget_configured (st : Status) : (st.forget).configured = st.configured := rfl
@[simp] theorem Status.forget_failed (st : Status) : (st.forget).failed = st.failed := rfl
@[simp] theorem Status.forget_prevValid (st : Status) : (st.forget).prevValid = false := rfl
@[simp] theorem Status.forget_prevFlag (st : Status) : (st.forget).prevFlag = .short := rfl
@[simp] theorem Status.forget_xfFlag (st : Status) : (st.forget).xfFlag = .short := rfl
@[simp] theorem Status.forget_xfDone (st : Status) : (st.forget).xfDone = 0 := rfl
@[simp] theorem Status.forget_err (st : Status) : (st.forget).err = st.err := rfl

/-! ### `emitPcm`, `transformAll` and the views of the configuration -/

@[simp] theorem emitPcm_status (cf : BlockFlag) (s : State) : (emitPcm cf s P).status = s.status := by
  unfold emitPcm; split <;> rfl
@[simp] theorem emitPcm_configRb (cf : BlockFlag) (s : State) : (emitPcm cf s P).configRb = s.configRb := by
  unfold emitPcm; split <;> rfl
@[simp] theorem emitPcm_errCmd (cf : BlockFlag) (s : State) : (emitPcm cf s P).errCmd = s.errCmd := by
  unfold emitPcm; split <;> rfl
@[simp] theorem emitPcm_unit (cf : BlockFlag) (s : State) : (emitPcm cf s P).unit = s.unit := by
  unfold emitPcm; split <;> rfl
@[simp] theorem emitPcm_resets (cf : BlockFlag) (s : State) : (emitPcm cf s P).resets = s.resets := by
  unfold emitPcm; split <;> rfl
@[simp] theorem emitPcm_pending (cf : BlockFlag) (s : State) : (emitPcm cf s P).pending = s.pending := by
  unfold emitPcm; split <;> rfl
@[simp] theorem emitPcm_reads (cf : BlockFlag) (s : State) : (emitPcm cf s P).reads = s.reads := by
  unfold emitPcm; split <;> rfl

/-- The transforms of a list of channels change the memory alone. -/
theorem foldl_transformChannel (f : BlockFlag) (cs : List Nat) (s : State) :
    cs.foldl (fun s c => transformChannel c f s P) s =
      { s with mem := (cs.foldl (fun s c => transformChannel c f s P) s).mem } := by
  induction cs generalizing s with
  | nil => rfl
  | cons c cs ih => rw [List.foldl_cons, ih]; rfl

@[simp] theorem transformAll_status (f : BlockFlag) (s : State) :
    (transformAll f s P).status = s.status.markAll s.allChannels f := by
  unfold transformAll; rw [foldl_transformChannel]; rfl
@[simp] theorem transformAll_configRb (f : BlockFlag) (s : State) : (transformAll f s P).configRb = s.configRb := by
  unfold transformAll; rw [foldl_transformChannel]
@[simp] theorem transformAll_outCount (f : BlockFlag) (s : State) : (transformAll f s P).outCount = s.outCount := by
  unfold transformAll; rw [foldl_transformChannel]
@[simp] theorem transformAll_errCmd (f : BlockFlag) (s : State) : (transformAll f s P).errCmd = s.errCmd := by
  unfold transformAll; rw [foldl_transformChannel]
@[simp] theorem transformAll_unit (f : BlockFlag) (s : State) : (transformAll f s P).unit = s.unit := by
  unfold transformAll; rw [foldl_transformChannel]
@[simp] theorem transformAll_resets (f : BlockFlag) (s : State) : (transformAll f s P).resets = s.resets := by
  unfold transformAll; rw [foldl_transformChannel]
@[simp] theorem transformAll_pending (f : BlockFlag) (s : State) : (transformAll f s P).pending = s.pending := by
  unfold transformAll; rw [foldl_transformChannel]
@[simp] theorem transformAll_reads (f : BlockFlag) (s : State) : (transformAll f s P).reads = s.reads := by
  unfold transformAll; rw [foldl_transformChannel]

/-- Which channels are done after one more (10_state.md R41). -/
theorem Status.getLsbD_markTransformed (st : Status) (ch : Nat) (f : BlockFlag) (c : Nat) :
    (st.markTransformed ch f).xfDone.getLsbD c = (st.xfDone.getLsbD c || decide (c < 8 ∧ c = ch)) := by
  have hbit : (1 <<< ch : Nat).testBit c = decide (c = ch) := by
    rw [Nat.shiftLeft_eq, one_mul, Nat.testBit_two_pow]; exact decide_eq_decide.2 eq_comm
  have hw : (1 <<< ch : BitVec 8).getLsbD c = decide (c < 8 ∧ c = ch) := by
    rw [show (1 <<< ch : BitVec 8) = BitVec.ofNat 8 (1 <<< ch) by simp, BitVec.getLsbD_ofNat, hbit]
    simp
  simp only [Status.markTransformed, BitVec.getLsbD_or, hw]

/-- Which channels are done when all are (42_window_ola.md R200). -/
theorem Status.getLsbD_markAll (st : Status) (n : Nat) (f : BlockFlag) (c : Nat) :
    (st.markAll (2 ^ n - 1) f).xfDone.getLsbD c = decide (c < 8 ∧ c < n) := by
  simp [Status.markAll, BitVec.getLsbD_ofNat, Nat.testBit_two_pow_sub_one]

/-- The sizes depend on `CONFIG_RB` alone. -/
theorem State.exponent_congr {s t : State} (h : s.configRb = t.configRb) (f : BlockFlag) : s.exponent f = t.exponent f := by
  cases f <;> simp [State.exponent, h]

theorem State.nch_congr {s t : State} (h : s.configRb = t.configRb) : s.nch = t.nch := by
  simp [State.nch, h]

theorem State.blockSize_congr {s t : State} (h : s.configRb = t.configRb) (f : BlockFlag) : s.blockSize f = t.blockSize f := by
  simp [State.blockSize, State.exponent_congr h]

end Sys2Proof.Machine
end

