-- ==== Sys2Proof/Laws/Transform.lean ====
section
/-!
SUPPORT. The sizes of every vector of the datapath (41_imdct.md R164), and the elements of one pass (R167).
-/

namespace Sys2Proof.Machine.Transform

variable {α : Type} (A : Arith α) (T : Bank α)

@[simp] theorem length_preRotate (M : Nat) (X : List α) : (preRotate A T M X).length = M := by
  simp [preRotate]

@[simp] theorem length_permute (M : Nat) (v : List (Cplx α)) : (permute A T M v).length = M := by
  simp [permute]

@[simp] theorem length_strided (h stride : Nat) : (strided A T h stride).length = h := by
  simp [strided]

@[simp] theorem length_postRotate (M : Nat) (v : List (Cplx α)) : (postRotate A T M v).length = M := by
  simp [postRotate]

theorem length_pass (h : Nat) (tw : List (Cplx α)) (htw : tw.length = h) :
    ∀ groups (v : List (Cplx α)), v.length = groups * (2 * h) → (pass A h tw groups v).length = groups * (2 * h) := by
  intro groups
  induction groups with
  | zero => intro v _; simp [pass]
  | succ g ih =>
    intro v hv
    have e : (g + 1) * (2 * h) = g * (2 * h) + 2 * h := Nat.succ_mul _ _
    rw [e] at hv ⊢
    generalize hx : g * (2 * h) = x at *
    simp only [pass, List.length_append, List.length_zipWith, List.length_take, List.length_drop, htw]
    rw [ih _ (by rw [List.length_drop]; omega)]
    omega

/-- `h` doubles through all the powers of two below `M`. -/
theorem length_passes (M : Nat) :
    ∀ count h (v : List (Cplx α)), M = 2 ^ count * h → 0 < h → v.length = M → (passes A T M count h v).length = M := by
  intro count
  induction count with
  | zero => intro h v _ _ hv; simpa [passes] using hv
  | succ c ih =>
    intro h v hM hh hv
    have hM' : M = 2 ^ c * (2 * h) := by rw [hM, Nat.pow_succ, Nat.mul_assoc]
    have hdiv : M / (2 * h) = 2 ^ c := by rw [hM']; exact Nat.mul_div_cancel _ (by omega)
    rw [passes]
    refine ih _ _ hM' (by omega) ?_
    rw [length_pass _ _ _ (by simp), hdiv, ← hM']
    rw [hdiv, ← hM', hv]

@[simp] theorem length_dct4 (M : Nat) (Z : List (Cplx α)) : (dct4 A M Z).length = 2 * M := by
  simp [dct4, List.length_flatMap]; omega

theorem length_unfoldBlock (M : Nat) (u : List α) (h : u.length = 2 * M) : (unfoldBlock A M u).length = 4 * M := by
  simp [unfoldBlock, h]; omega

/-- `n = 4M` samples, whatever the input and the tables hold (R164). -/
@[simp] theorem length_imdct (b : Nat) (X : List α) : (imdct A T b X).length = 4 * 2 ^ b := by
  unfold imdct
  exact length_unfoldBlock _ _ _ (by simp)

end Sys2Proof.Machine.Transform

namespace Sys2Proof.Machine

/-- A block is stored whole, whatever the `IMDCT_IMPL`. -/
@[simp] theorem length_fitBlock : ∀ n (ys : List F32), (fitBlock n ys).length = n
  | 0, _ => rfl
  | n + 1, [] => by simp [fitBlock, length_fitBlock n]
  | n + 1, _ :: ys => by simp [fitBlock, length_fitBlock n]

/-- What has the block's length is stored as it is. -/
theorem fitBlock_of_length : ∀ (ys : List F32), fitBlock ys.length ys = ys
  | [] => rfl
  | y :: ys => by simp [fitBlock, fitBlock_of_length ys]

/-- What is there is stored. -/
theorem fitBlock_getElem? : ∀ n (ys : List F32) j y, j < n → ys[j]? = some y → (fitBlock n ys)[j]? = some y
  | 0, _, _, _, h, _ => absurd h (by omega)
  | n + 1, [], _, _, _, h => by simp at h
  | n + 1, x :: ys, 0, _, _, h => by simpa [fitBlock] using h
  | n + 1, x :: ys, j + 1, y, hj, h => by
    simpa [fitBlock] using fitBlock_getElem? n ys j y (by omega) (by simpa using h)

@[simp] theorem State.length_transformed (s : State) (ch : Nat) (f : BlockFlag) (P : Params) :
    (s.transformed ch f P).length = 2 ^ s.exponent f := by
  simp [State.transformed, State.blockSize]

/-- The default `IMDCT_IMPL` is the datapath of R164, on the block sizes that `CONFIG` accepts. -/
theorem State.transformed_default {s : State} {f : BlockFlag} (h : 2 ≤ s.exponent f) (ch : Nat) :
    s.transformed ch f = Transform.imdct Arith.binary32 (s.bank f) (s.passCount f) (s.spectrum ch f) := by
  have hl : (Transform.imdct Arith.binary32 (s.bank f) (s.passCount f) (s.spectrum ch f)).length = s.blockSize f := by
    obtain ⟨k, hk⟩ : ∃ k, s.exponent f = k + 2 := ⟨s.exponent f - 2, by omega⟩
    rw [Transform.length_imdct, State.passCount, State.blockSize, hk, Nat.add_sub_cancel, Nat.pow_add]; omega
  exact (congrArg (fun n => fitBlock n _) hl.symm).trans (fitBlock_of_length _)

end Sys2Proof.Machine
end

