-- ==== Sys2Proof/Laws/Blocks.lean ====
section
/-!
SUPPORT. What the packet operations do to memory, each said once: the transform of one channel and of all (41_imdct.md R162,
42_window_ola.md R200), the samples of an overlap (R194, R195) and retention (R197).
-/

namespace Sys2Proof.Machine

variable {P : Params}

/-! ### Lists of lists of one length -/

theorem length_flatMap_const {α β : Type} (g : α → List β) (n : Nat) (hg : ∀ x, (g x).length = n) (l : List α) :
    (l.flatMap g).length = l.length * n := by
  induction l with
  | nil => simp
  | cons a l ih => rw [List.flatMap_cons, List.length_append, hg, ih, List.length_cons, Nat.succ_mul, Nat.add_comm]

theorem getElem?_flatMap_const {α β : Type} (g : α → List β) (n : Nat) (hg : ∀ x, (g x).length = n) (l : List α) :
    ∀ t c, c < n → (l.flatMap g)[t * n + c]? = l[t]?.bind fun x => (g x)[c]? := by
  induction l with
  | nil => intro t c _; simp
  | cons a l ih =>
    intro t c hc
    rw [List.flatMap_cons]
    cases t with
    | zero => simp [List.getElem?_append_left, hg, hc]
    | succ t =>
      rw [List.getElem?_append_right (by rw [hg, Nat.succ_mul]; omega), hg,
        show (t + 1) * n + c - n = t * n + c by rw [Nat.succ_mul]; omega, ih t c hc]
      simp

/-! ### What a transform reads -/

theorem Memory.readWord_congr {m m' : Memory} {a : Nat} (h : ∀ i, i < 4 → m.readByte (a + i) = m'.readByte (a + i)) :
    m.readWord a = m'.readWord a := by
  have h0 := h 0 (by omega)
  rw [Nat.add_zero] at h0
  simp only [Memory.readWord, h0, h 1 (by omega), h 2 (by omega), h 3 (by omega)]

/-- Memories that agree on the bytes of `count` words agree on the words. -/
theorem Memory.readWords_congr {m m' : Memory} (hm : m.Wf) (hm' : m'.Wf) {lo count : Nat}
    (h : ∀ a, lo ≤ a → a < lo + 4 * count → m.readByte a = m'.readByte a) : m.readWords lo count = m'.readWords lo count := by
  rw [Memory.readWords_eq_map_readWord hm, Memory.readWords_eq_map_readWord hm']
  apply List.map_congr_left
  intro i hi
  have hi := List.mem_range.1 hi
  exact Memory.readWord_congr fun j hj => h _ (by omega) (by omega)

/-- A transform reads its bank and its coefficients, and nothing else (41_imdct.md R177). -/
theorem State.transformed_congr {s t : State} {ch : Nat} {f : BlockFlag} (hs : s.mem.Wf) (ht : t.mem.Wf)
    (hc : s.configRb = t.configRb) (h13 : s.exponent f ≤ 13)
    (hlut : ∀ a, bankAddr f ≤ a → a < bankAddr f + 0x8000 → s.mem.readByte a = t.mem.readByte a)
    (hcoef : ∀ a, coefAddr ch 0 ≤ a → a < coefAddr ch 0 + 4 * s.spectrumSize f → s.mem.readByte a = t.mem.readByte a) :
    s.transformed ch f P = t.transformed ch f P := by
  have he := State.exponent_congr hc f
  have hM : 2 ^ (s.exponent f - 2) ≤ 2048 := Nat.pow_le_pow_right (n := 2) (by omega) (show s.exponent f - 2 ≤ 11 by omega)
  have h1 : s.bank f = t.bank f := by
    simp only [State.bank, State.passCount, ← he]
    rw [Memory.readWords_congr hs ht fun a h h' => hlut a h (by omega),
      Memory.readWords_congr hs ht fun a h h' => hlut a (by omega) (by omega),
      Memory.readWords_congr hs ht fun a h h' => hlut a (by omega) (by omega)]
  have h2 : s.spectrum ch f = t.spectrum ch f := by
    simp only [State.spectrum]
    rw [show t.spectrumSize f = s.spectrumSize f by simp [State.spectrumSize, State.blockSize, he],
      Memory.readWords_congr hs ht hcoef]
  simp only [State.transformed, State.blockSize, h1, h2, he]

/-! ### The transform of one channel (R162) -/

section One
variable {s : State} {ch : Nat} {f : BlockFlag}

theorem readByte_transformChannel_outside (a : Nat) (h : a < blkAddr ch 0 ∨ blkAddr ch (2 ^ s.exponent f) ≤ a) :
    (transformChannel ch f s P).mem.readByte a = s.mem.readByte a := by
  refine Memory.readByte_writeWords_outside _ _ _ _ ?_
  simp only [List.length_map, State.length_transformed]
  simp only [blkAddr] at *
  omega

theorem blkWord_transformChannel (j : Nat) (hj : j < 2 ^ s.exponent f) :
    some ((transformChannel ch f s P).blkWord ch j) = (s.transformed ch f P)[j]?.map F32.toBits := by
  have hl : j < ((s.transformed ch f P).map F32.toBits).length := by
    rw [List.length_map, State.length_transformed]; exact hj
  have e : blkAddr ch j = blkAddr ch 0 + 4 * j := by simp [blkAddr]; omega
  rw [State.blkWord, e, transformChannel_mem, Memory.readWord_writeWords_inside _ _ _ j hl, ← List.getElem?_map,
    List.getElem?_eq_getElem hl]

theorem wf_transformChannel (h13 : s.exponent f ≤ 13) (hc : ch < 8) (hm : s.mem.Wf) : (transformChannel ch f s P).mem.Wf := by
  refine Memory.wf_writeWords hm ?_
  have := Nat.pow_le_pow_right (n := 2) (by omega) h13
  simp only [List.length_map, State.length_transformed, blkAddr, Config.blkDepth, Config.apertureBytes]
  omega

end One

/-! ### The transforms of all channels (R200) -/

/-- The transforms of channels 0 to `k - 1`. -/
def transformFirst (k : Nat) (f : BlockFlag) (s : State) (P : Params := .default) : State :=
  (List.range k).foldl (fun s c => transformChannel c f s P) s

theorem transformFirst_succ (k : Nat) (f : BlockFlag) (s : State) :
    transformFirst (k + 1) f s P = transformChannel k f (transformFirst k f s P) P := by
  simp [transformFirst, List.range_succ]

theorem transformFirst_eq (k : Nat) (f : BlockFlag) (s : State) :
    transformFirst k f s P = { s with mem := (transformFirst k f s P).mem } := foldl_transformChannel _ _ _

theorem transformAll_eq (f : BlockFlag) (s : State) :
    transformAll f s P = { s with status := s.status.markAll s.allChannels f, mem := (transformFirst s.nch f s P).mem } := by
  have h := transformFirst_eq (P := P) s.nch f s
  unfold transformAll
  rw [show (List.range s.nch).foldl (fun s c => transformChannel c f s P) s = transformFirst s.nch f s P from rfl, h]
  rfl

/-- The transforms write no byte outside the block rows of their channels (R162). -/
theorem transformFirst_frame {s : State} {f : BlockFlag} (a : Nat) :
    ∀ k, (∀ c, c < k → a < blkAddr c 0 ∨ blkAddr c (2 ^ s.exponent f) ≤ a) →
      (transformFirst k f s P).mem.readByte a = s.mem.readByte a := by
  intro k
  induction k with
  | zero => intro _; rfl
  | succ k ih =>
    intro ha
    have he : (transformFirst k f s P).exponent f = s.exponent f := State.exponent_congr (by rw [transformFirst_eq]) f
    rw [transformFirst_succ, readByte_transformChannel_outside a (by rw [he]; exact ha k (by omega))]
    exact ih fun c hc => ha c (by omega)

/-- Everything the transforms of the first `k` channels do: each block row gets the transform of the original coefficients, and no other
byte changes. -/
theorem transformFirst_spec {s : State} {f : BlockFlag} (h13 : s.exponent f ≤ 13) (hm : s.mem.Wf) :
    ∀ k, k ≤ 8 →
      (transformFirst k f s P).mem.Wf ∧
      (∀ a, (∀ c, c < k → a < blkAddr c 0 ∨ blkAddr c (2 ^ s.exponent f) ≤ a) →
        (transformFirst k f s P).mem.readByte a = s.mem.readByte a) ∧
      ∀ c j, c < k → j < 2 ^ s.exponent f →
        some ((transformFirst k f s P).blkWord c j) = (s.transformed c f P)[j]?.map F32.toBits := by
  have hn := Nat.pow_le_pow_right (n := 2) (by omega) h13
  intro k
  induction k with
  | zero => intro _; exact ⟨hm, fun _ _ => rfl, fun c j hc => absurd hc (by omega)⟩
  | succ k ih =>
    intro hk
    obtain ⟨hw, hout, hin⟩ := ih (by omega)
    have hrb : (transformFirst k f s P).configRb = s.configRb := by rw [transformFirst_eq]
    have he : (transformFirst k f s P).exponent f = s.exponent f := State.exponent_congr hrb f
    rw [transformFirst_succ]
    refine ⟨wf_transformChannel (by omega) (by omega) hw, ?_, ?_⟩
    · intro a ha
      rw [readByte_transformChannel_outside a (by rw [he]; exact ha k (by omega))]
      exact hout a fun c hc => ha c (by omega)
    · intro c j hc hj
      by_cases hck : c = k
      · subst hck
        rw [blkWord_transformChannel j (by rw [he]; exact hj)]
        rw [State.transformed_congr hw hm hrb (by omega)]
        · intro a h1 h1'
          refine hout a fun c' _ => .inr ?_
          have : bankAddr f ≥ 0x90000 := by cases f <;> simp [bankAddr, flagNumber]
          simp only [blkAddr, Config.blkDepth]
          omega
        · intro a h1 h1'
          refine hout a fun c' _ => .inl ?_
          have hN : (transformFirst c f s P).spectrumSize f ≤ 4096 := by
            simp only [State.spectrumSize, State.blockSize, he]; omega
          simp only [blkAddr, coefAddr, Config.blkDepth, Config.coefDepth] at *
          omega
      · rw [← hin c j (by omega) hj]
        congr 1
        refine Memory.readWord_congr fun i hi => ?_
        refine readByte_transformChannel_outside _ ?_
        simp only [blkAddr, Config.blkDepth]
        left; omega

/-! ### Retention (R197) -/

theorem readByte_retainChannel_outside (C : Nat) (m : Memory) (c a : Nat) (ha : a < prevAddr c 0 ∨ prevAddr c (C / 2) ≤ a) :
    (retainChannel C m c).readByte a = m.readByte a := by
  refine Memory.readByte_writeBytes_outside _ _ _ _ ?_
  simp only [Memory.length_readBytes]
  simp only [prevAddr] at *
  omega

/-- Retention writes no byte outside the retained halves of the rows of its channels. -/
theorem foldl_retainChannel_frame (C : Nat) (m : Memory) (a : Nat) :
    ∀ k, (∀ c, c < k → a < prevAddr c 0 ∨ prevAddr c (C / 2) ≤ a) →
      ((List.range k).foldl (retainChannel C) m).readByte a = m.readByte a := by
  intro k
  induction k with
  | zero => intro _; rfl
  | succ k ih =>
    intro ha
    rw [List.range_succ, List.foldl_append, List.foldl_cons, List.foldl_nil,
      readByte_retainChannel_outside _ _ _ _ (ha k (by omega))]
    exact ih fun c hc => ha c (by omega)

theorem retainChannel_spec {C : Nat} (hC : C / 2 ≤ 4096) {m : Memory} (hm : m.Wf) {c : Nat} (hc : c < 8) :
    (retainChannel C m c).Wf ∧
    (∀ a, (a < prevAddr c 0 ∨ prevAddr c (C / 2) ≤ a) → (retainChannel C m c).readByte a = m.readByte a) ∧
    ∀ i, i < 4 * (C / 2) → (retainChannel C m c).readByte (prevAddr c 0 + i) = m.readByte (blkAddr c (C / 2) + i) := by
  unfold retainChannel
  refine ⟨Memory.wf_writeBytes hm ?_, ?_, ?_⟩
  · simp only [Memory.length_readBytes, prevAddr, Config.prevDepth, Config.apertureBytes]; omega
  · intro a ha
    refine Memory.readByte_writeBytes_outside _ _ _ _ ?_
    simp only [Memory.length_readBytes]
    simp only [prevAddr] at *
    omega
  · intro i hi
    rw [Memory.readByte_writeBytes_inside _ _ _ i (by simpa using hi)]
    simp [Memory.readBytes_eq_map_readByte hm]

/-- Everything the retention of the first `k` channels does: each row's first half block is the second half of the channel's block, and no
other byte changes. -/
theorem foldl_retainChannel_spec {C : Nat} (hC : C / 2 ≤ 4096) {m : Memory} (hm : m.Wf) :
    ∀ k, k ≤ 8 →
      ((List.range k).foldl (retainChannel C) m).Wf ∧
      (∀ a, (∀ c, c < k → a < prevAddr c 0 ∨ prevAddr c (C / 2) ≤ a) →
        ((List.range k).foldl (retainChannel C) m).readByte a = m.readByte a) ∧
      ∀ c i, c < k → i < 4 * (C / 2) →
        ((List.range k).foldl (retainChannel C) m).readByte (prevAddr c 0 + i) = m.readByte (blkAddr c (C / 2) + i) := by
  intro k
  induction k with
  | zero => intro _; exact ⟨hm, fun _ _ => rfl, fun c i hc => absurd hc (by omega)⟩
  | succ k ih =>
    intro hk
    obtain ⟨hw, hout, hin⟩ := ih (by omega)
    rw [List.range_succ, List.foldl_append, List.foldl_cons, List.foldl_nil]
    obtain ⟨hw', hout', hin'⟩ := retainChannel_spec hC hw (c := k) (by omega)
    refine ⟨hw', ?_, ?_⟩
    · intro a ha
      rw [hout' a (ha k (by omega)), hout a fun c hc => ha c (by omega)]
    · intro c i hc hi
      by_cases hck : c = k
      · subst hck
        rw [hin' i hi]
        refine hout _ fun c' hc' => .inl ?_
        simp only [blkAddr, prevAddr, Config.blkDepth, Config.prevDepth]
        omega
      · rw [← hin c i (by omega) hi]
        refine hout' _ (.inl ?_)
        simp only [prevAddr, Config.prevDepth]
        omega

/-! ### The samples of an overlap (R195) -/

@[simp] theorem length_bytesOfSample (v : BitVec 16) : (bytesOfSample v).length = 2 := rfl

theorem length_outputSamples (s : State) (pf cf : BlockFlag) :
    (s.outputSamples pf cf P).length = (s.overlap pf cf).count * s.nch := by
  unfold State.outputSamples
  rw [length_flatMap_const _ s.nch (by simp), List.length_range]

theorem outputSamples_getElem? (s : State) (pf cf : BlockFlag) (t c : Nat) (ht : t < (s.overlap pf cf).count) (hc : c < s.nch) :
    (s.outputSamples pf cf P)[t * s.nch + c]? =
      some (P.pcmConvert (olaSample (s.overlap pf cf) (s.slopeTable pf cf) (s.rows (s.overlap pf cf) c) t)) := by
  unfold State.outputSamples
  rw [getElem?_flatMap_const _ s.nch (by simp) _ t c hc]
  simp [ht, hc]

theorem append_bytesOfSample (v : BitVec 16) : v.extractLsb' 8 8 ++ v.extractLsb' 0 8 = v := by
  ext i hi
  simp only [BitVec.getElem_append, BitVec.getElem_extractLsb']
  split
  · simp [← BitVec.getLsbD_eq_getElem]
  · rw [show 8 + (i - 8) = i by omega, BitVec.getLsbD_eq_getElem]

/-- Writing samples from the start of `PCM`: those samples, and no other byte. -/
theorem writeSamples_spec (m : Memory) (vs : List (BitVec 16)) :
    (∀ a, a < pcmAddr 0 ∨ pcmAddr vs.length ≤ a → (m.writeBytes (pcmAddr 0) (vs.flatMap bytesOfSample)).readByte a = m.readByte a) ∧
    ∀ i, i < vs.length →
      some ((m.writeBytes (pcmAddr 0) (vs.flatMap bytesOfSample)).readByte (pcmAddr i + 1) ++
        (m.writeBytes (pcmAddr 0) (vs.flatMap bytesOfSample)).readByte (pcmAddr i)) = vs[i]? := by
  have hl := length_flatMap_const bytesOfSample 2 (fun _ => rfl) vs
  refine ⟨fun a ha => Memory.readByte_writeBytes_outside _ _ _ _ ?_, fun i hi => ?_⟩
  · rw [hl]; simp only [pcmAddr] at *; omega
  · have g0 := getElem?_flatMap_const bytesOfSample 2 (fun _ => rfl) vs i 0 (by omega)
    have g1 := getElem?_flatMap_const bytesOfSample 2 (fun _ => rfl) vs i 1 (by omega)
    have e0 : pcmAddr i = pcmAddr 0 + (i * 2 + 0) := by simp [pcmAddr]; omega
    have e1 : pcmAddr i + 1 = pcmAddr 0 + (i * 2 + 1) := by simp [pcmAddr]; omega
    have l0 : i * 2 + 0 < (vs.flatMap bytesOfSample).length := by rw [hl]; omega
    have l1 : i * 2 + 1 < (vs.flatMap bytesOfSample).length := by rw [hl]; omega
    rw [e1, Memory.readByte_writeBytes_inside _ _ _ _ l1, e0, Memory.readByte_writeBytes_inside _ _ _ _ l0]
    rw [List.getElem?_eq_getElem l0, List.getElem?_eq_getElem hi] at g0
    rw [List.getElem?_eq_getElem l1, List.getElem?_eq_getElem hi] at g1
    simp only [bytesOfSample, Option.bind_some, List.getElem?_cons_zero, List.getElem?_cons_succ, Option.some.injEq] at g0 g1
    rw [g0, g1, append_bytesOfSample, List.getElem?_eq_getElem hi]

/-! ### The output step (R190) -/

/-- Sizes of the overlap of a legal configuration: at most 4096 samples a channel. -/
theorem overlap_count_le {s : State} (h : s.ConfigLegal) (pf cf : BlockFlag) : (s.overlap pf cf).count ≤ 4096 := by
  obtain ⟨-, h1, h2, -, -⟩ := h
  have e : ∀ f, s.exponent f ≤ 13 := by intro f; cases f <;> omega
  have a := Nat.pow_le_pow_right (n := 2) (by omega) (e pf)
  have b := Nat.pow_le_pow_right (n := 2) (by omega) (e cf)
  simp only [Overlap.count, State.overlap, State.blockSize]
  omega

theorem emitPcm_of_first {cf : BlockFlag} {s : State} (h : s.status.prevValid = false) : emitPcm cf s P = { s with outCount := 0 } := by
  simp [emitPcm, h]

/-- Everything the output step does when a block is retained. -/
theorem emitPcm_spec {cf : BlockFlag} {s : State} (h : s.status.prevValid = true) (hl : s.ConfigLegal) :
    (emitPcm cf s P).outCount.toNat = (s.overlap s.status.prevFlag cf).count ∧
    (s.mem.Wf → (emitPcm cf s P).mem.Wf) ∧
    (∀ a, a < pcmAddr 0 ∨ pcmAddr ((s.overlap s.status.prevFlag cf).count * s.nch) ≤ a →
      (emitPcm cf s P).mem.readByte a = s.mem.readByte a) ∧
    ∀ t c, t < (s.overlap s.status.prevFlag cf).count → c < s.nch →
      (emitPcm cf s P).pcm (t * s.nch + c) =
        P.pcmConvert (olaSample (s.overlap s.status.prevFlag cf) (s.slopeTable s.status.prevFlag cf)
          (s.rows (s.overlap s.status.prevFlag cf) c) t) := by
  have hT := overlap_count_le hl s.status.prevFlag cf
  have hn : (s.overlap s.status.prevFlag cf).count * s.nch ≤ 4096 * 8 := Nat.mul_le_mul hT hl.2.2.2.2
  have hlen := length_outputSamples (P := P) s s.status.prevFlag cf
  obtain ⟨w1, w2⟩ := writeSamples_spec s.mem (s.outputSamples s.status.prevFlag cf P)
  have hm : (emitPcm cf s P).mem =
      s.mem.writeBytes (pcmAddr 0) ((s.outputSamples s.status.prevFlag cf P).flatMap bytesOfSample) := by
    simp [emitPcm, h]
  refine ⟨?_, ?_, ?_, ?_⟩
  · simp only [emitPcm, h, reduceIte, BitVec.toNat_ofNat]
    exact Nat.mod_eq_of_lt (by omega)
  · intro hw
    rw [hm]
    refine Memory.wf_writeBytes hw ?_
    rw [length_flatMap_const _ 2 (fun _ => rfl), hlen]
    simp only [pcmAddr, Config.apertureBytes]
    omega
  · intro a ha
    rw [hm]
    exact w1 a (by rw [hlen]; exact ha)
  · intro t c ht hc
    have hi : t * s.nch + c < (s.outputSamples s.status.prevFlag cf P).length := by
      rw [hlen]
      have := Nat.mul_le_mul_right s.nch (show t + 1 ≤ (s.overlap s.status.prevFlag cf).count from ht)
      rw [Nat.succ_mul] at this
      omega
    have := w2 _ hi
    rw [outputSamples_getElem? _ _ _ _ _ ht hc] at this
    simp only [State.pcm, hm]
    exact Option.some.inj this

end Sys2Proof.Machine
end

