-- ==== Sys2Proof/Laws/Step.lean ====
section
/-!
SUPPORT. What a step can do, said once: the events that give a next state, a fault or a refusal, and the two outcomes of a write of `CMD`.
-/

namespace Sys2Proof.Machine

theorem step_cons (s : State) (e : HostEvent) (rest : List HostEvent) (h : s.pending = e :: rest) :
    step s = perform e { s with pending := rest } := by
  simp [step, performNext, h]

theorem stepWith_cons (P : Params) (s : State) (e : HostEvent) (rest : List HostEvent) (h : s.pending = e :: rest) :
    stepWith P s = perform e { s with pending := rest } (execWith P) P.busErrorEffect := by
  simp [stepWith, performNext, h]

/-- The commands at the spec's defaults of the parameters (00_scope.md R10). -/
theorem exec_eq_execWith : exec = execWith .default := by
  funext i s
  cases i <;> rfl

/-- A step at the spec's defaults of the parameters. -/
theorem step_eq_stepWith : step = stepWith .default := by
  funext s
  rw [stepWith, ← exec_eq_execWith]
  rfl

/-- Every meaning answers a next state (60_exceptions.md R265), for every value of the parameters. -/
theorem execWith_next (P : Params) (i : Instr) (s : State) : ∃ t, execWith P i s = .next t := by
  cases i <;>
    simp only [execWith, execNop, execConfigWith, execZeroCoef, execZeroAll, execImdctWith, execOlaWith, execBlockWith, execRestart,
      execSoftReset] <;>
    first | exact ⟨_, rfl⟩ | (split <;> exact ⟨_, rfl⟩)

theorem exec_next (i : Instr) (s : State) : ∃ t, exec i s = .next t := exec_eq_execWith ▸ execWith_next .default i s

/-- At the spec's default of `BUS_ERROR_EFFECT` a bus error is a fault (20_memory.md R74). -/
@[simp] theorem busErrorOutcome_default (r : Fault) (s : State) : busErrorOutcome r s = .fault r := rfl

theorem execWord_next (w : Word) (s : State) : ∃ t, execWord w s = .next t := by
  unfold execWord
  split
  · exact exec_next _ _
  · exact ⟨_, rfl⟩

/-- A write of `CMD` executes the word, with `BUSY` set around it, or is ignored (60_exceptions.md R254). -/
theorem issue_cases (w : Word) (polls : Nat) (s : State) :
    (s.accepts w = true ∧ ∃ t, execWord w (s.accept.pollStatus polls) = .next t ∧ issue w polls s = .next t.complete) ∨
      (s.accepts w = false ∧ issue w polls s = .next (s.pollStatus polls)) := by
  unfold issue
  by_cases h : s.accepts w
  · obtain ⟨t, ht⟩ := execWord_next w (s.accept.pollStatus polls)
    exact .inl ⟨h, t, ht, by simp [h, ht, completed]⟩
  · exact .inr ⟨by simpa using h, by simp [h]⟩

theorem issue_next (w : Word) (polls : Nat) (s : State) : ∃ t, issue w polls s = .next t := by
  obtain ⟨-, t, -, ht⟩ | ⟨-, ht⟩ := issue_cases w polls s
  · exact ⟨_, ht⟩
  · exact ⟨_, ht⟩

/-! ### The address map (20_memory.md R71) -/

theorem regionOf_registers_iff (off : Offset) : regionOf off = .registers ↔ off.toNat < 0x100 := by
  unfold regionOf
  simp only
  split_ifs <;> simp <;> omega

theorem regionOf_coef_iff (off : Offset) : regionOf off = .coef ↔ 0x10000 ≤ off.toNat ∧ off.toNat < 0x30000 := by
  unfold regionOf
  simp only
  split_ifs <;> simp <;> omega

theorem regionOf_unmapped_iff (off : Offset) : regionOf off = .unmapped ↔ ¬ (off.toNat < 0x100 ∨ InRam off.toNat) := by
  unfold regionOf
  simp only [InRam]
  split_ifs <;> simp <;> omega

theorem busError?_none {off : Offset} {width : Nat} :
    busError? off width = none ↔ width = 4 ∧ off.toNat % 4 = 0 ∧ regionOf off ≠ .unmapped := by
  unfold busError?
  split
  · simp_all
  · split
    · simp_all
    · split <;> simp_all

/-- An event that gives a next state: what it is, and what it does. -/
theorem perform_cases {e : HostEvent} {s t : State} (h : perform e s = .next t) :
    (∃ off, e = .read off 4 ∧ busError? off 4 = none ∧ t = s.answer (s.readAperture off)) ∨
    (∃ off v, e = .write off 4 v ∧ busError? off 4 = none ∧ off ≠ cmdOffset ∧ t = s.writeAperture off v) ∨
    (∃ w polls, (e = .command w polls ∨ (e = .write cmdOffset 4 w ∧ polls = 0)) ∧ issue w polls s = .next t) ∨
    (e = .hardReset ∧ t = hardwareReset s) := by
  cases e with
  | read off width =>
    simp only [perform] at h
    split at h
    · cases h
    · rename_i hb
      obtain ⟨rfl, -, -⟩ := busError?_none.1 hb
      cases h
      exact .inl ⟨off, rfl, hb, rfl⟩
  | write off width v =>
    simp only [perform] at h
    split at h
    · cases h
    · rename_i hb
      obtain ⟨rfl, -, -⟩ := busError?_none.1 hb
      split at h
      · rename_i ho
        subst ho
        exact .inr (.inr (.inl ⟨v, 0, .inr ⟨rfl, rfl⟩, h⟩))
      · rename_i ho
        cases h
        exact .inr (.inl ⟨off, v, rfl, hb, ho, rfl⟩)
  | command w polls => exact .inr (.inr (.inl ⟨w, polls, .inl rfl, h⟩))
  | hardReset => cases h; exact .inr (.inr (.inr ⟨rfl, rfl⟩))
  | otherMaster => cases h

/-- An access that takes a bus error is the only event that faults (20_memory.md R74). -/
theorem perform_fault {e : HostEvent} {s : State} {r : Fault} (h : perform e s = .fault r) :
    ∃ off width, busError? off width = some r ∧ (e = .read off width ∨ ∃ v, e = .write off width v) := by
  cases e with
  | read off width =>
    simp only [perform] at h
    split at h
    · rename_i r' hb; cases h; exact ⟨off, width, hb, .inl rfl⟩
    · cases h
  | write off width v =>
    simp only [perform] at h
    split at h
    · rename_i r' hb; cases h; exact ⟨off, width, hb, .inr ⟨v, rfl⟩⟩
    · split at h
      · obtain ⟨t, ht⟩ := issue_next v 0 s; rw [ht] at h; cases h
      · cases h
  | command w polls => obtain ⟨t, ht⟩ := issue_next w polls s; rw [perform, ht] at h; cases h
  | hardReset => cases h
  | otherMaster => cases h

/-- A second master's access is the only event that is refused (20_memory.md R86). -/
theorem perform_refused {e : HostEvent} {s : State} {r : Refusal} (h : perform e s = .refused r) :
    e = .otherMaster ∧ r = .secondMaster := by
  cases e with
  | read off width => simp only [perform] at h; split at h <;> cases h
  | write off width v =>
    simp only [perform] at h
    split at h
    · cases h
    · split at h
      · obtain ⟨t, ht⟩ := issue_next v 0 s; rw [ht] at h; cases h
      · cases h
  | command w polls => obtain ⟨t, ht⟩ := issue_next w polls s; rw [perform, ht] at h; cases h
  | hardReset => cases h
  | otherMaster => cases h; exact ⟨rfl, rfl⟩

/-- A step that gives a next state performed the first pending event, or had none. -/
theorem step_cases {s t : State} (h : step s = .next t) :
    (s.pending = [] ∧ t = s) ∨ ∃ e rest, s.pending = e :: rest ∧ perform e { s with pending := rest } = .next t := by
  unfold step performNext at h
  split at h
  · rename_i hp; cases h; exact .inl ⟨hp, rfl⟩
  · rename_i e rest hp; exact .inr ⟨e, rest, hp, h⟩

end Sys2Proof.Machine
end

