-- ==== Sys2Proof/Laws/Commands.lean ====
section
/-!
SUPPORT. The commands as a whole: what the core of `OLA` does to the state (42_window_ola.md R190 to R197), and each meaning under the outcome
of its checks, so that later proofs unfold no meaning.
-/

namespace Sys2Proof.Machine

variable {P : Params}

/-! ### The checks -/

theorem toNat_shortExp (b8 : Byte) : (shortExp b8).toNat = b8.toNat % 16 := by simp [shortExp]

theorem toNat_longExp (b8 : Byte) : (longExp b8).toNat = b8.toNat / 16 := by
  have := b8.isLt
  simp only [longExp, BitVec.extractLsb'_toNat, Nat.shiftRight_eq_div_pow]
  omega

theorem legalExponents_iff (e0 e1 : Nat) : legalExponents e0 e1 = true ↔ 6 ≤ e0 ∧ e0 ≤ e1 ∧ e1 ≤ 13 := by
  unfold legalExponents
  rw [decide_eq_true_iff]
  simp only [Config.expMin, Config.expMax]
  omega

/-- When `CONFIG` succeeds (40_setup.md R131). -/
theorem configError?_none_iff (b8 : Byte) (nch : Nat) :
    configError? b8 nch = none ↔
      6 ≤ (shortExp b8).toNat ∧ (shortExp b8).toNat ≤ (longExp b8).toNat ∧ (longExp b8).toNat ≤ 13 ∧ 1 ≤ nch ∧ nch ≤ 8 := by
  have hl := legalExponents_iff (shortExp b8).toNat (longExp b8).toNat
  unfold configError?
  by_cases h : legalExponents (shortExp b8).toNat (longExp b8).toNat = true
  · rw [if_neg (not_not.2 h)]
    have := hl.1 h
    split
    · simp; omega
    · by_cases h8 : nch > Config.nchMax
      · rw [if_pos h8]; simp only [Config.nchMax] at h8; simp; omega
      · rw [if_neg h8]; simp only [Config.nchMax] at h8; simp; omega
  · rw [if_pos h]
    have := mt hl.2 h
    simp; omega

theorem zeroCoefError?_none_iff (ch : Nat) (s : State) :
    zeroCoefError? ch s = none ↔ s.status.configured = true ∧ ch < s.nch := by
  unfold zeroCoefError?
  split
  · simp_all
  · split <;> simp_all

theorem imdctError?_none_iff (ch : Nat) (f : BlockFlag) (s : State) :
    imdctError? ch f s = none ↔ s.status.configured = true ∧ ch < s.nch ∧ (s.status.xfDone = 0 ∨ s.status.xfFlag = f) := by
  unfold imdctError?
  split
  · simp_all
  · split
    · rename_i h; simp; omega
    · split
      · rename_i h; simp; tauto
      · rename_i h1 h2 h3
        simp only [true_iff]
        exact ⟨by simpa using h1, by omega, by tauto⟩

theorem olaError?_none_iff (s : State) :
    olaError? s = none ↔ s.status.configured = true ∧ s.status.xfDone.toNat = s.allChannels := by
  unfold olaError?
  split
  · simp_all
  · split <;> simp_all

/-- No check reports `NONE` (60_exceptions.md R250). -/
theorem configError?_ne {b8 : Byte} {nch : Nat} {code : ErrCode} (h : configError? b8 nch = some code) : code ≠ .none := by
  rintro rfl
  unfold configError? at h
  repeat (first | cases h | split_ifs at h)

theorem zeroCoefError?_ne {ch : Nat} {s : State} {code : ErrCode} (h : zeroCoefError? ch s = some code) : code ≠ .none := by
  rintro rfl
  unfold zeroCoefError? at h
  repeat (first | cases h | split_ifs at h)

theorem imdctError?_ne {ch : Nat} {f : BlockFlag} {s : State} {code : ErrCode} (h : imdctError? ch f s = some code) :
    code ≠ .none := by
  rintro rfl
  unfold imdctError? at h
  repeat (first | cases h | split_ifs at h)

theorem olaError?_ne {s : State} {code : ErrCode} (h : olaError? s = some code) : code ≠ .none := by
  rintro rfl
  unfold olaError? at h
  repeat (first | cases h | split_ifs at h)

theorem exponent_bounds {s : State} (h : s.ConfigLegal) (f : BlockFlag) : 6 ≤ s.exponent f ∧ s.exponent f ≤ 13 := by
  obtain ⟨h1, h2, h3, -, -⟩ := h
  cases f <;> omega

theorem configLegal_congr {s t : State} (h : s.configRb = t.configRb) (hs : s.ConfigLegal) : t.ConfigLegal := by
  simpa [State.ConfigLegal, State.nch_congr h, State.exponent_congr h] using hs

/-- A successful `CONFIG` leaves a legal configuration. -/
theorem configure_legal {b8 : Byte} {nch : Nat} (h : configError? b8 nch = none) (s : State) : (configure b8 nch s P).ConfigLegal := by
  obtain ⟨h1, h2, h3, h4, h5⟩ := (configError?_none_iff b8 nch).1 h
  have e : (configure b8 nch s P).nch = nch := by simp [State.nch]; omega
  exact ⟨h1, h2, h3, by omega, by omega⟩

/-! ### `olaCore` -/

@[simp] theorem olaCore_status (s : State) : (olaCore s P).status = s.status.endPacket s.status.xfFlag := by simp [olaCore]
@[simp] theorem olaCore_configRb (s : State) : (olaCore s P).configRb = s.configRb := by simp [olaCore]
@[simp] theorem olaCore_errCmd (s : State) : (olaCore s P).errCmd = s.errCmd := by simp [olaCore]
@[simp] theorem olaCore_unit (s : State) : (olaCore s P).unit = s.unit := by simp [olaCore]
@[simp] theorem olaCore_resets (s : State) : (olaCore s P).resets = s.resets := by simp [olaCore]
@[simp] theorem olaCore_pending (s : State) : (olaCore s P).pending = s.pending := by simp [olaCore]
@[simp] theorem olaCore_reads (s : State) : (olaCore s P).reads = s.reads := by simp [olaCore]
@[simp] theorem olaCore_outCount (s : State) : (olaCore s P).outCount = (emitPcm s.status.xfFlag s P).outCount := by simp [olaCore]

theorem olaCore_outCount_toNat {s : State} (hl : s.ConfigLegal) :
    (olaCore s P).outCount.toNat =
      if s.status.prevValid then (s.overlap s.status.prevFlag s.status.xfFlag).count else 0 := by
  rw [olaCore_outCount]
  cases h : s.status.prevValid with
  | false => simp [emitPcm_of_first h]
  | true => simpa using (emitPcm_spec h hl).1

/-- The memory of `olaCore`: retention over the output step. -/
theorem olaCore_mem_eq (s : State) :
    (olaCore s P).mem =
      (List.range s.nch).foldl (retainChannel (s.blockSize s.status.xfFlag)) (emitPcm s.status.xfFlag s P).mem := by
  simp only [olaCore, retainBlocks_mem]
  rw [State.nch_congr (emitPcm_configRb _ _), State.blockSize_congr (emitPcm_configRb _ _)]

theorem blockSize_half_le {s : State} (hl : s.ConfigLegal) (f : BlockFlag) : s.blockSize f / 2 ≤ 4096 := by
  have := Nat.pow_le_pow_right (n := 2) (by omega) (exponent_bounds hl f).2
  simp only [State.blockSize]; omega

theorem olaCore_samples_le {s : State} (hl : s.ConfigLegal) : (olaCore s P).outCount.toNat * s.nch ≤ 4096 * 8 := by
  refine Nat.mul_le_mul ?_ hl.2.2.2.2
  rw [olaCore_outCount_toNat hl]
  split
  · exact overlap_count_le hl _ _
  · omega

/-- The output step writes no byte outside the samples it counts. -/
theorem emitPcm_frame {s : State} (hl : s.ConfigLegal) (a : Nat)
    (ha : s.status.prevValid = true → a < pcmAddr 0 ∨ pcmAddr ((olaCore s P).outCount.toNat * s.nch) ≤ a) :
    (emitPcm s.status.xfFlag s P).mem.readByte a = s.mem.readByte a := by
  cases h : s.status.prevValid with
  | false => rw [emitPcm_of_first h]
  | true =>
    obtain ⟨h1, -, h3, -⟩ := emitPcm_spec (cf := s.status.xfFlag) h hl
    refine h3 a ?_
    rw [← h1, ← olaCore_outCount]
    exact ha h

/-- `olaCore` writes no byte outside the retained rows and the samples it counts (R195, R197). -/
theorem olaCore_frame {s : State} (hl : s.ConfigLegal) (a : Nat)
    (h1 : ∀ c, c < s.nch → a < prevAddr c 0 ∨ prevAddr c (s.blockSize s.status.xfFlag / 2) ≤ a)
    (h2 : s.status.prevValid = true → a < pcmAddr 0 ∨ pcmAddr ((olaCore s P).outCount.toNat * s.nch) ≤ a) :
    (olaCore s P).mem.readByte a = s.mem.readByte a := by
  rw [olaCore_mem_eq, foldl_retainChannel_frame _ _ _ _ h1, emitPcm_frame hl a h2]

/-- Outside the `PCM` and `PREV` windows `olaCore` writes nothing. -/
theorem olaCore_windows {s : State} (hl : s.ConfigLegal) (a : Nat)
    (ha : a < 0x80000 ∨ (0x90000 ≤ a ∧ a < 0xC0000) ∨ 0xE0000 ≤ a) : (olaCore s P).mem.readByte a = s.mem.readByte a := by
  have h8 : s.nch ≤ 8 := hl.2.2.2.2
  have hc := olaCore_samples_le (P := P) hl
  have hC := blockSize_half_le hl s.status.xfFlag
  refine olaCore_frame hl a (fun c hc => ?_) (fun _ => ?_)
  · simp only [prevAddr, Config.prevDepth]; omega
  · simp only [pcmAddr]; omega

/-- Everything `olaCore` puts into the memory of a legally configured engine. -/
theorem olaCore_mem {s : State} (hl : s.ConfigLegal) (hm : s.mem.Wf) :
    (olaCore s P).mem.Wf ∧
    (∀ c i, c < s.nch → i < 4 * (s.blockSize s.status.xfFlag / 2) →
      (olaCore s P).mem.readByte (prevAddr c 0 + i) = s.mem.readByte (blkAddr c (s.blockSize s.status.xfFlag / 2) + i)) ∧
    (s.status.prevValid = true → ∀ t c, t < (s.overlap s.status.prevFlag s.status.xfFlag).count → c < s.nch →
      (olaCore s P).pcm (t * s.nch + c) =
        P.pcmConvert (olaSample (s.overlap s.status.prevFlag s.status.xfFlag) (s.slopeTable s.status.prevFlag s.status.xfFlag)
          (s.rows (s.overlap s.status.prevFlag s.status.xfFlag) c) t)) := by
  have hn : s.nch ≤ 8 := hl.2.2.2.2
  have hC := blockSize_half_le hl s.status.xfFlag
  have hcount := olaCore_samples_le (P := P) hl
  have hE : (emitPcm s.status.xfFlag s P).mem.Wf := by
    cases h : s.status.prevValid with
    | false => rw [emitPcm_of_first h]; exact hm
    | true => exact (emitPcm_spec h hl).2.1 hm
  have hmem := olaCore_mem_eq (P := P) s
  obtain ⟨r1, -, r3⟩ := foldl_retainChannel_spec hC hE s.nch hn
  refine ⟨by rw [hmem]; exact r1, ?_, ?_⟩
  · intro c i hc hi
    rw [hmem, r3 c i hc hi]
    refine emitPcm_frame hl _ fun _ => .inl ?_
    simp only [blkAddr, pcmAddr, Config.blkDepth]
    omega
  · intro h t c ht hc
    obtain ⟨-, -, -, h4⟩ := emitPcm_spec (cf := s.status.xfFlag) h hl
    rw [← h4 t c ht hc]
    have hi : t * s.nch + c < 4096 * 8 := by
      have a1 := Nat.mul_le_mul_right s.nch (show t + 1 ≤ (s.overlap s.status.prevFlag s.status.xfFlag).count from ht)
      have a2 := Nat.mul_le_mul (overlap_count_le hl s.status.prevFlag s.status.xfFlag) hn
      rw [Nat.succ_mul] at a1
      omega
    generalize t * s.nch + c = i at hi ⊢
    have hp : ∀ b, b < 2 → (olaCore s P).mem.readByte (pcmAddr i + b) = (emitPcm s.status.xfFlag s P).mem.readByte (pcmAddr i + b) := by
      intro b hb
      rw [hmem]
      refine foldl_retainChannel_frame _ _ _ _ fun c' _ => .inl ?_
      simp only [pcmAddr, prevAddr]
      omega
    have h0 := hp 0 (by omega)
    rw [Nat.add_zero] at h0
    simp only [State.pcm, h0, hp 1 (by omega)]

/-! ### `transformAll` -/

@[simp] theorem transformAll_mem (f : BlockFlag) (s : State) : (transformAll f s P).mem = (transformFirst s.nch f s P).mem := by
  rw [transformAll_eq]

/-- Outside the `BLK` window the transforms write nothing. -/
theorem transformAll_windows {s : State} (hl : s.ConfigLegal) (f : BlockFlag) (a : Nat) (ha : a < 0x40000 ∨ 0x80000 ≤ a) :
    (transformAll f s P).mem.readByte a = s.mem.readByte a := by
  have h8 : s.nch ≤ 8 := hl.2.2.2.2
  obtain ⟨h6, h13⟩ := exponent_bounds hl f
  have hn := Nat.pow_le_pow_right (n := 2) (by omega) h13
  rw [transformAll_mem]
  refine transformFirst_frame a _ fun c hc => ?_
  simp only [blkAddr, Config.blkDepth]
  omega

/-! ### The meanings under their checks -/

theorem execConfig_ok {b8 : Byte} {nch : Nat} (h : configError? b8 nch = none) (s : State) :
    execWith P (.config b8 nch) s = .next (configure b8 nch s P) := by simp [execWith, execConfigWith, h]

theorem execConfig_error {b8 : Byte} {nch : Nat} {code : ErrCode} (h : configError? b8 nch = some code) (s : State) :
    execWith P (.config b8 nch) s = .next (raiseError code (encode (.config b8 nch)) s) := by simp [execWith, execConfigWith, h]

theorem execZeroCoef_ok {ch : Nat} {s : State} (h : zeroCoefError? ch s = none) :
    execWith P (.zeroCoef ch) s = .next (clearCoef ch s) := by simp [execWith, execZeroCoef, h]

theorem execZeroCoef_error {ch : Nat} {s : State} {code : ErrCode} (h : zeroCoefError? ch s = some code) :
    execWith P (.zeroCoef ch) s = .next (raiseError code (encode (.zeroCoef ch)) s) := by simp [execWith, execZeroCoef, h]

theorem execZeroAll_ok {s : State} (h : s.status.configured = true) : execWith P .zeroAll s = .next (clearAllCoef s) := by
  simp [execWith, execZeroAll, h]

theorem execZeroAll_error {s : State} (h : s.status.configured = false) :
    execWith P .zeroAll s = .next (raiseError .notConfigured (encode .zeroAll) s) := by simp [execWith, execZeroAll, h]

theorem execImdct_ok {ch : Nat} {f : BlockFlag} {s : State} (h : imdctError? ch f s = none) :
    execWith P (.imdct ch f) s = .next { transformChannel ch f s P with status := s.status.markTransformed ch f } := by
  simp [execWith, execImdctWith, h]

theorem execImdct_error {ch : Nat} {f : BlockFlag} {s : State} {code : ErrCode} (h : imdctError? ch f s = some code) :
    execWith P (.imdct ch f) s = .next (raiseError code (encode (.imdct ch f)) s) := by simp [execWith, execImdctWith, h]

theorem execOla_ok {s : State} (h : olaError? s = none) : execWith P .ola s = .next (olaCore s P) := by simp [execWith, execOlaWith, h]

theorem execOla_error {s : State} {code : ErrCode} (h : olaError? s = some code) :
    execWith P .ola s = .next (raiseError code (encode .ola) s) := by simp [execWith, execOlaWith, h]

theorem execBlock_ok {f : BlockFlag} {s : State} (h : s.status.configured = true) :
    execWith P (.block f) s = .next (olaCore (transformAll f s P) P) := by simp [execWith, execBlockWith, h]

theorem execBlock_error {f : BlockFlag} {s : State} (h : s.status.configured = false) :
    execWith P (.block f) s = .next (raiseError .notConfigured (encode (.block f)) s) := by simp [execWith, execBlockWith, h]

theorem execRestart_ok {s : State} (h : s.status.configured = true) :
    execWith P .restart s = .next { s with status := s.status.forget, outCount := 0 } := by simp [execWith, execRestart, h]

theorem execRestart_error {s : State} (h : s.status.configured = false) :
    execWith P .restart s = .next (raiseError .notConfigured (encode .restart) s) := by simp [execWith, execRestart, h]

/-- Everything a command can do: one of its errors, which records it and changes nothing else, or its effect. -/
theorem execWith_cases {i : Instr} {s t : State} (h : execWith P i s = .next t) :
    (∃ code, code ≠ .none ∧ t = raiseError code (encode i) s) ∨
    (i = .nop ∧ t = s) ∨
    (∃ b8 nch, i = .config b8 nch ∧ configError? b8 nch = none ∧ t = configure b8 nch s P) ∨
    (∃ ch, i = .zeroCoef ch ∧ zeroCoefError? ch s = none ∧ t = clearCoef ch s) ∨
    (i = .zeroAll ∧ s.status.configured = true ∧ t = clearAllCoef s) ∨
    (∃ ch f, i = .imdct ch f ∧ imdctError? ch f s = none ∧
      t = { transformChannel ch f s P with status := s.status.markTransformed ch f }) ∨
    (i = .ola ∧ olaError? s = none ∧ t = olaCore s P) ∨
    (∃ f, i = .block f ∧ s.status.configured = true ∧ t = olaCore (transformAll f s P) P) ∨
    (i = .restart ∧ s.status.configured = true ∧ t = { s with status := s.status.forget, outCount := 0 }) ∨
    (i = .softReset ∧ t = resetRegisters s) := by
  cases i with
  | nop => cases h; exact .inr (.inl ⟨rfl, rfl⟩)
  | config b8 nch =>
    cases he : configError? b8 nch with
    | some code => rw [execConfig_error he] at h; cases h; exact .inl ⟨code, configError?_ne he, rfl⟩
    | none => rw [execConfig_ok he] at h; cases h; exact .inr (.inr (.inl ⟨b8, nch, rfl, he, rfl⟩))
  | zeroCoef ch =>
    cases he : zeroCoefError? ch s with
    | some code => rw [execZeroCoef_error he] at h; cases h; exact .inl ⟨code, zeroCoefError?_ne he, rfl⟩
    | none => rw [execZeroCoef_ok he] at h; cases h; exact .inr (.inr (.inr (.inl ⟨ch, rfl, he, rfl⟩)))
  | zeroAll =>
    cases he : s.status.configured with
    | false => rw [execZeroAll_error he] at h; cases h; exact .inl ⟨_, by decide, rfl⟩
    | true => rw [execZeroAll_ok he] at h; cases h; exact .inr (.inr (.inr (.inr (.inl ⟨rfl, rfl, rfl⟩))))
  | imdct ch f =>
    cases he : imdctError? ch f s with
    | some code => rw [execImdct_error he] at h; cases h; exact .inl ⟨code, imdctError?_ne he, rfl⟩
    | none => rw [execImdct_ok he] at h; cases h; exact .inr (.inr (.inr (.inr (.inr (.inl ⟨ch, f, rfl, he, rfl⟩)))))
  | ola =>
    cases he : olaError? s with
    | some code => rw [execOla_error he] at h; cases h; exact .inl ⟨code, olaError?_ne he, rfl⟩
    | none => rw [execOla_ok he] at h; cases h; exact .inr (.inr (.inr (.inr (.inr (.inr (.inl ⟨rfl, rfl, rfl⟩))))))
  | block f =>
    cases he : s.status.configured with
    | false => rw [execBlock_error he] at h; cases h; exact .inl ⟨_, by decide, rfl⟩
    | true =>
      rw [execBlock_ok he] at h; cases h
      exact .inr (.inr (.inr (.inr (.inr (.inr (.inr (.inl ⟨f, rfl, rfl, rfl⟩)))))))
  | restart =>
    cases he : s.status.configured with
    | false => rw [execRestart_error he] at h; cases h; exact .inl ⟨_, by decide, rfl⟩
    | true =>
      rw [execRestart_ok he] at h; cases h
      exact .inr (.inr (.inr (.inr (.inr (.inr (.inr (.inr (.inl ⟨rfl, rfl, rfl⟩))))))))
  | softReset => cases h; exact .inr (.inr (.inr (.inr (.inr (.inr (.inr (.inr (.inr ⟨rfl, rfl⟩))))))))

/-- The same at the spec's defaults. -/
theorem exec_cases {i : Instr} {s t : State} (h : exec i s = .next t) :
    (∃ code, code ≠ .none ∧ t = raiseError code (encode i) s) ∨
    (i = .nop ∧ t = s) ∨
    (∃ b8 nch, i = .config b8 nch ∧ configError? b8 nch = none ∧ t = configure b8 nch s) ∨
    (∃ ch, i = .zeroCoef ch ∧ zeroCoefError? ch s = none ∧ t = clearCoef ch s) ∨
    (i = .zeroAll ∧ s.status.configured = true ∧ t = clearAllCoef s) ∨
    (∃ ch f, i = .imdct ch f ∧ imdctError? ch f s = none ∧
      t = { transformChannel ch f s with status := s.status.markTransformed ch f }) ∨
    (i = .ola ∧ olaError? s = none ∧ t = olaCore s) ∨
    (∃ f, i = .block f ∧ s.status.configured = true ∧ t = olaCore (transformAll f s)) ∨
    (i = .restart ∧ s.status.configured = true ∧ t = { s with status := s.status.forget, outCount := 0 }) ∨
    (i = .softReset ∧ t = resetRegisters s) :=
  execWith_cases (P := .default) (exec_eq_execWith ▸ h)

end Sys2Proof.Machine
end

