-- ==== Sys2Proof/Laws/Decode.lean ====
section
/-!
SUPPORT. The fields of a command word as numbers (30_encoding.md R101): a word is the sum of its fields, and `commandWord` has the fields it
was made from.
-/

namespace Sys2Proof

/-- The five fields make up the word. -/
theorem toNat_eq_fields (w : Word) :
    w.toNat = (opField w).toNat + 2 ^ 8 * (arg8Field w).toNat + 2 ^ 16 * (arg4Field w).toNat + 2 ^ 20 * (flagField w).toNat +
      2 ^ 21 * (rsvField w).toNat := by
  have h := w.isLt
  simp only [opField, arg8Field, arg4Field, flagField, rsvField, BitVec.extractLsb'_toNat, Nat.shiftRight_eq_div_pow]
  omega

theorem toNat_commandWord (op arg8 : Byte) (arg4 : BitVec 4) (f : BitVec 1) :
    (commandWord op arg8 arg4 f).toNat = op.toNat + 2 ^ 8 * arg8.toNat + 2 ^ 16 * arg4.toNat + 2 ^ 20 * f.toNat := by
  have h1 := op.isLt
  have h2 := arg8.isLt
  have h3 := arg4.isLt
  have h4 := f.isLt
  simp only [commandWord, BitVec.toNat_append, Nat.shiftLeft_eq]
  rw [← Nat.shiftLeft_eq, ← Nat.shiftLeft_eq, ← Nat.shiftLeft_eq, ← Nat.shiftLeft_eq,
    ← Nat.shiftLeft_add_eq_or_of_lt h1, ← Nat.shiftLeft_add_eq_or_of_lt h2, ← Nat.shiftLeft_add_eq_or_of_lt h3,
    ← Nat.shiftLeft_add_eq_or_of_lt h4]
  simp only [Nat.shiftLeft_eq]
  simp
  omega

/-- Words with equal fields are equal. -/
theorem eq_of_fields {w v : Word} (h1 : opField w = opField v) (h2 : arg8Field w = arg8Field v) (h3 : arg4Field w = arg4Field v)
    (h4 : flagField w = flagField v) (h5 : rsvField w = rsvField v) : w = v := by
  apply BitVec.eq_of_toNat_eq
  rw [toNat_eq_fields w, toNat_eq_fields v, h1, h2, h3, h4, h5]

section
variable (op arg8 : Byte) (arg4 : BitVec 4) (f : BitVec 1)

@[simp] theorem opField_commandWord : opField (commandWord op arg8 arg4 f) = op := by
  apply BitVec.eq_of_toNat_eq
  have h := op.isLt
  simp only [opField, BitVec.extractLsb'_toNat, toNat_commandWord, Nat.shiftRight_eq_div_pow]
  omega

@[simp] theorem arg8Field_commandWord : arg8Field (commandWord op arg8 arg4 f) = arg8 := by
  apply BitVec.eq_of_toNat_eq
  have h1 := op.isLt
  have h2 := arg8.isLt
  simp only [arg8Field, BitVec.extractLsb'_toNat, toNat_commandWord, Nat.shiftRight_eq_div_pow]
  omega

@[simp] theorem arg4Field_commandWord : arg4Field (commandWord op arg8 arg4 f) = arg4 := by
  apply BitVec.eq_of_toNat_eq
  have h1 := op.isLt
  have h2 := arg8.isLt
  have h3 := arg4.isLt
  simp only [arg4Field, BitVec.extractLsb'_toNat, toNat_commandWord, Nat.shiftRight_eq_div_pow]
  omega

@[simp] theorem flagField_commandWord : flagField (commandWord op arg8 arg4 f) = f := by
  apply BitVec.eq_of_toNat_eq
  have h1 := op.isLt
  have h2 := arg8.isLt
  have h3 := arg4.isLt
  have h4 := f.isLt
  simp only [flagField, BitVec.extractLsb'_toNat, toNat_commandWord, Nat.shiftRight_eq_div_pow]
  omega

@[simp] theorem rsvField_commandWord : rsvField (commandWord op arg8 arg4 f) = 0 := by
  apply BitVec.eq_of_toNat_eq
  have h1 := op.isLt
  have h2 := arg8.isLt
  have h3 := arg4.isLt
  have h4 := f.isLt
  simp only [rsvField, BitVec.extractLsb'_toNat, toNat_commandWord, Nat.shiftRight_eq_div_pow]
  simp
  omega

end

@[simp] theorem BlockFlag.ofBit_bit (f : BlockFlag) : BlockFlag.ofBit f.bit = f := by cases f <;> rfl

@[simp] theorem BlockFlag.bit_ofBit (b : BitVec 1) : (BlockFlag.ofBit b).bit = b := by
  rcases BitVec.eq_zero_or_eq_one b with rfl | rfl <;> rfl

end Sys2Proof
end

