-- ==== Sys2Proof/Laws/PerInstr.lean ====
section
/-! SUPPORT. Facts stated of every command, one lemma per constructor. -/

/-- Every command's word has zeros in the reserved bits (30_encoding.md R104), whatever its operands. -/
def Sys2Proof.Laws.ReservedZero.Statement (i : Sys2Proof.Instr) : Prop := Sys2Proof.rsvField (Sys2Proof.encode i) = 0

namespace Sys2Proof.Laws.ReservedZero

open Sys2Proof

theorem nop : Statement .nop := rsvField_commandWord _ _ _ _
theorem config (b8 : Byte) (nch : Nat) : Statement (.config b8 nch) := rsvField_commandWord _ _ _ _
theorem zeroCoef (ch : Nat) : Statement (.zeroCoef ch) := rsvField_commandWord _ _ _ _
theorem zeroAll : Statement .zeroAll := rsvField_commandWord _ _ _ _
theorem imdct (ch : Nat) (f : BlockFlag) : Statement (.imdct ch f) := rsvField_commandWord _ _ _ _
theorem ola : Statement .ola := rsvField_commandWord _ _ _ _
theorem block (f : BlockFlag) : Statement (.block f) := rsvField_commandWord _ _ _ _
theorem restart : Statement .restart := rsvField_commandWord _ _ _ _
theorem softReset : Statement .softReset := rsvField_commandWord _ _ _ _

end Sys2Proof.Laws.ReservedZero
end

