-- ==== Sys2Proof/Laws/Platform.lean ====
section
/-!
SUPPORT. What a step of one instance and of a platform can do (20_memory.md R91), said once: an instance keeps the number of its free values and
its unspecified contents stay its own, and a step of a platform changes the one instance whose host moves.
-/

namespace Sys2Proof.Machine

variable {P : Params}

/-! ### What powers up is the instance's own -/

@[simp] theorem fill_foldl_retainChannel (C : Nat) (cs : List Nat) (m : Memory) : (cs.foldl (retainChannel C) m).fill = m.fill := by
  induction cs generalizing m with
  | nil => rfl
  | cons c cs ih => rw [List.foldl_cons, ih]; rfl

@[simp] theorem retainBlocks_fill (cf : BlockFlag) (s : State) : (retainBlocks cf s).mem.fill = s.mem.fill := by simp [retainBlocks]

@[simp] theorem emitPcm_fill (cf : BlockFlag) (s : State) : (emitPcm cf s P).mem.fill = s.mem.fill := by
  unfold emitPcm; split <;> rfl

@[simp] theorem olaCore_fill (s : State) : (olaCore s P).mem.fill = s.mem.fill := by simp [olaCore]

@[simp] theorem transformChannel_fill (ch : Nat) (f : BlockFlag) (s : State) : (transformChannel ch f s P).mem.fill = s.mem.fill := rfl

@[simp] theorem transformFirst_fill (k : Nat) (f : BlockFlag) (s : State) : (transformFirst k f s (P := P)).mem.fill = s.mem.fill := by
  induction k with
  | zero => rfl
  | succ k ih => rw [transformFirst_succ, transformChannel_fill, ih]

@[simp] theorem transformAll_fill (f : BlockFlag) (s : State) : (transformAll f s P).mem.fill = s.mem.fill := by simp [transformAll_eq]

@[simp] theorem clearCoef_fill (ch : Nat) (s : State) : (clearCoef ch s).mem.fill = s.mem.fill := Memory.fill_clearBytes ..

@[simp] theorem clearAllCoef_fill (s : State) : (clearAllCoef s).mem.fill = s.mem.fill := Memory.fill_clearBytes ..

/-- What a command, an access or a reset does to the number of an instance's free values and to its power-on. -/
abbrev KeepsOwn (s t : State) : Prop := t.unit = s.unit ∧ (s.OwnPowerOn → t.OwnPowerOn)

/-- A change that keeps the power-on's number and what unlisted bytes hold. -/
theorem KeepsOwn.of_fill {s t : State} (hu : t.unit = s.unit) (hr : t.resets = s.resets) (hf : t.mem.fill = s.mem.fill) :
    KeepsOwn s t := ⟨hu, fun h u g e => by rw [hu, hr]; exact h u g (hf ▸ e)⟩

theorem exec_keepsOwn {i : Instr} {s t : State} (h : exec i s = .next t) : KeepsOwn s t := by
  obtain ⟨code, -, rfl⟩ | ⟨-, rfl⟩ | ⟨b8, nch, -, -, rfl⟩ | ⟨ch, -, -, rfl⟩ | ⟨-, -, rfl⟩ | ⟨ch, f, -, -, rfl⟩ | ⟨-, -, rfl⟩ |
    ⟨f, -, -, rfl⟩ | ⟨-, -, rfl⟩ | ⟨-, rfl⟩ := exec_cases h
  case inr.inr.inl => exact ⟨rfl, fun _ u g e => nomatch e⟩
  all_goals exact .of_fill (by simp) (by simp) (by simp)

theorem issue_keepsOwn {w : Word} {polls : Nat} {s t : State} (h : issue w polls s = .next t) : KeepsOwn s t := by
  obtain ⟨-, t', ht', h'⟩ | ⟨-, h'⟩ := issue_cases w polls s
  · rw [h] at h'; cases h'
    unfold execWord at ht'
    split at ht'
    · exact (exec_keepsOwn ht' :)
    · cases ht'; exact .of_fill rfl rfl rfl
  · rw [h] at h'; cases h'; exact .of_fill rfl rfl rfl

/-- Every step of an instance keeps the number of its free values, and its unspecified contents stay its own. -/
theorem step_keepsOwn {s t : State} (h : step s = .next t) : KeepsOwn s t := by
  obtain ⟨-, rfl⟩ | ⟨e, rest, -, h⟩ := step_cases h
  · exact .of_fill rfl rfl rfl
  · obtain ⟨off, -, -, rfl⟩ | ⟨off, v, -, -, -, rfl⟩ | ⟨w, polls, -, h⟩ | ⟨-, rfl⟩ := perform_cases h
    · exact .of_fill rfl rfl rfl
    · unfold State.writeAperture
      split <;> exact .of_fill rfl rfl rfl
    · exact (issue_keepsOwn h :)
    · exact ⟨rfl, fun _ u g e => by cases e; exact ⟨rfl, rfl⟩⟩

/-! ### A platform's steps -/

/-- A step of one instance: nothing if its host has faulted, and else what its engine's step answers. -/
theorem Instance.stepWith_cases {i j : Instance} (h : i.stepWith P = .next j) :
    j = i ∨ (∃ t, Sys2Proof.Machine.stepWith P i.engine = .next t ∧ j = { i with engine := t }) ∨
      ∃ r, Sys2Proof.Machine.stepWith P i.engine = .fault r ∧ j = { i with hostFault := some r } := by
  unfold Instance.stepWith at h
  split at h
  · cases h; exact .inl rfl
  · split at h
    · rename_i t ht; cases h; exact .inr (.inl ⟨t, ht, rfl⟩)
    · rename_i r hr; cases h; exact .inr (.inr ⟨r, hr, rfl⟩)
    · cases h

/-- A step of a platform changes the one instance whose host moves, by a step of that instance alone. -/
theorem Platform.stepWith_cases {p q : Platform} (h : p.stepWith P = .next q) :
    (p.schedule = [] ∧ q = p) ∨
    (∃ k rest, p.schedule = k :: rest ∧ p.instances[k]? = none ∧ q = { p with schedule := rest }) ∨
    ∃ k rest i j, p.schedule = k :: rest ∧ p.instances[k]? = some i ∧ i.stepWith P = .next j ∧
      q = { instances := p.instances.set k j, schedule := rest } := by
  unfold Platform.stepWith at h
  split at h
  · rename_i hs; cases h; exact .inl ⟨hs, rfl⟩
  · rename_i k rest hs
    split at h
    · rename_i hi; cases h; exact .inr (.inl ⟨k, rest, hs, hi, rfl⟩)
    · rename_i i hi
      split at h
      · rename_i j hj; cases h; exact .inr (.inr ⟨k, rest, i, j, hs, hi, hj, rfl⟩)
      · rename_i r _; exact r.elim
      · cases h

/-! ### Accesses by host address -/

theorem offsetOfHost?_eq_some {base address : Nat} {off : Offset} :
    offsetOfHost? base address = some off ↔ address = hostAddress base off := by
  unfold offsetOfHost? hostAddress
  have := off.isLt
  split
  · rename_i h
    simp only [Config.apertureBytes] at h
    rw [Option.some_inj, ← BitVec.toNat_inj, BitVec.toNat_ofNat, Nat.mod_eq_of_lt (by omega)]
    omega
  · rename_i h
    simp only [Config.apertureBytes] at h
    simp only [reduceCtorEq, false_iff]
    omega

theorem offsetOfHost?_eq_none {base address : Nat} :
    offsetOfHost? base address = none ↔ address < base ∨ base + Config.apertureBytes ≤ address := by
  unfold offsetOfHost?
  split <;> simp <;> omega

/-- An access reaches the first instance whose aperture holds its address. -/
theorem locate?_eq_some {address : Nat} {is : List Instance} {k : Nat} {off : Offset} (h : locate? address is = some (k, off)) :
    ∃ i, is[k]? = some i ∧ address = hostAddress i.base off := by
  induction is generalizing k with
  | nil => cases h
  | cons i is ih =>
    unfold locate? at h
    split at h
    · rename_i o ho; cases h; exact ⟨i, rfl, offsetOfHost?_eq_some.1 ho⟩
    · obtain ⟨⟨k', o⟩, hk, he⟩ := Option.map_eq_some_iff.1 h
      cases he
      exact ih hk

theorem locate?_eq_none {address : Nat} {is : List Instance} :
    locate? address is = none ↔ ∀ i ∈ is, offsetOfHost? i.base address = none := by
  induction is with
  | nil => simp [locate?]
  | cons i is ih =>
    unfold locate?
    split
    · rename_i o ho; simp [ho]
    · rename_i ho; simp [ho, ih]

end Sys2Proof.Machine
end

