-- ==== Sys2Proof/Tests/Slice0.lean ====
section
/-!
SUPPORT. Tests, and witnesses. Every expected value of a test is one that spec/95_test_vectors.md writes out (named TV-… or P…), or the word
that 30_encoding.md R101 to R108 spells; none is the model's own answer. A theorem witness_… shows concrete states and operands that meet
the hypotheses of the obligation it names, at the ends of their ranges.
-/

namespace Sys2Proof.Tests

-- The proofs below are kernel evaluations: one after the other, so that they do not hold their memory all at once.
set_option Elab.async false

open Sys2Proof.Machine

/-! ### Well-formedness: an ill-formed term for each check -/

theorem test_wf_config_refuses_count_16 : ¬ (Instr.config 0x66 16).WellFormed := by decide
theorem test_wf_zeroCoef_refuses_channel_16 : ¬ (Instr.zeroCoef 16).WellFormed := by decide
theorem test_wf_imdct_refuses_channel_16 : ¬ (Instr.imdct 16 .short).WellFormed := by decide
theorem test_wf_accepts_what_the_field_holds : (Instr.imdct 15 .long).WellFormed ∧ (Instr.config 0xFF 15).WellFormed := by decide

/-! ### Decoding: TV-D, each word from the spec's encoding of it -/

theorem test_decode_nop : decode 0x00000000 = .ok .nop := by decide
theorem test_decode_config : decode 0x0002B801 = .ok (.config 0xB8 2) := by decide
theorem test_decode_zeroCoef : decode 0x00010002 = .ok (.zeroCoef 1) := by decide
theorem test_decode_zeroAll : decode 0x00000003 = .ok .zeroAll := by decide
theorem test_decode_imdct_short : decode 0x00000004 = .ok (.imdct 0 .short) := by decide
theorem test_decode_imdct_long : decode 0x00170004 = .ok (.imdct 7 .long) := by decide
theorem test_decode_ola : decode 0x00000005 = .ok .ola := by decide
theorem test_decode_block : decode 0x00100006 = .ok (.block .long) := by decide
theorem test_decode_restart : decode 0x00000007 = .ok .restart := by decide
theorem test_decode_softReset : decode 0x0000000F = .ok .softReset := by decide

/-- TV-D: words that spell no command because a bit outside the row's free bits is 1. -/
theorem test_decode_reserved_fields :
    [0x00000100, 0x00116601, 0x00200004, 0x00000104, 0x00100005, 0x00010006, 0x0000010F, 0x00F00004].map
      (fun w => (decode w).toOption) = List.replicate 8 none := by decide

/-- TV-D: reserved opcodes. -/
theorem test_decode_reserved_opcodes :
    [0x00000008, 0x0000000E, 0x00000010, 0x000000FF].map decode =
      [0x08, 0x0E, 0x10, 0xFF].map fun op => .error (.reservedOpcode op) := by decide

theorem test_decode_of_three_bytes : decodeBytes [1, 2, 3] = .error .notOneWord := by decide
theorem test_decodeTableWord_imdct : decodeTableWord 32 0x00190004 = some (.imdct 9 .long) := by decide

/-! ### Small states -/

/-- A fresh engine after a successful `CONFIG b8, nch`. -/
def engine (b8 : Byte) (nch : Nat) : State := configure b8 nch State.reset

/-- The same with one coefficient written. -/
def poke (c k : Nat) (v : Word) (s : State) : State := { s with mem := s.mem.writeWords (coefAddr c k) [v] }

/-- The state after the host writes one command word. -/
def after (w : Word) (s : State) : State :=
  match step { s with pending := [.command w 0] } with
  | .next t => t
  | _ => State.reset

/-- `STATUS`, `ERR_CMD` and `CONFIG_RB` after one command word. -/
def registersAfter (w : Word) (s : State) : Word × Word × Word :=
  let t := after w s
  (t.readRegister 0x008, t.readRegister 0x020, t.readRegister 0x00C)

/-! ### CONFIG: TV-C, TV-T, TV-W -/

theorem test_config_registers : registersAfter 0x0002B801 State.reset = (0x00000002, 0, 0x000002B8) := by decide +kernel
theorem test_config_rejections :
    [0x00015601, 0x0001E601, 0x00017501, 0x00006601, 0x00096601, 0x00095501].map (fun w => registersAfter w State.reset) =
      [(0x00020004, 0x00015601, 0), (0x00020004, 0x0001E601, 0), (0x00020004, 0x00017501, 0), (0x00020004, 0x00006601, 0),
        (0x00030004, 0x00096601, 0), (0x00020004, 0x00095501, 0)] := by decide +kernel

/-- TV-T1: entries of the bank for `n = 64`. -/
theorem test_twiddle_64 :
    ([0, 5, 15].map fun m => ((Lut.rotc 6 m).toBits, (Lut.rots 6 m).toBits)) =
        [(0x3F7FFB11, 0x3C490E90), (0x3F604621, 0x3EF6E0CB), (0x3DAFB680, 0x3F7F0E58)] ∧
      ([0, 2, 4, 7].map fun k => ((Lut.twc 6 k).toBits, (Lut.tws 6 k).toBits)) =
        [(0x3F800000, 0x00000000), (0x3F3504F3, 0x3F3504F3), (0x00000000, 0x3F800000), (0xBF6C835E, 0x3EC3EF15)] ∧
      (List.range 16).map (Lut.bitrev 4) = [0, 8, 4, 12, 2, 10, 6, 14, 1, 9, 5, 13, 3, 11, 7, 15] := by decide +kernel

/-- TV-T2 and TV-W2: entries of the largest tables. -/
theorem test_lut_8192 :
    [Lut.rotc 13 0, Lut.rots 13 0, Lut.rotc 13 2047, Lut.rots 13 2047, Lut.twc 13 1023, Lut.tws 13 1023].map F32.toBits =
        [0x3F800000, 0x38C90FDB, 0x3A2FEDDE, 0x3F7FFFFC, 0xBF7FFFB1, 0x3B490FC6] ∧
      [Lut.win 4096 0, Lut.win 4096 2047, Lut.win 4096 4095, Lut.win 128 63, Lut.win 32 31].map F32.toBits =
        [0x33780CDB, 0x3F34F6FD, 0x3F800000, 0x3F33442B, 0x3F7FFFF8] := by decide +kernel

/-- TV-M and TV-T1: the words of a configured engine's LUT windows, the last of them beyond the configured sizes. -/
theorem test_config_lut_windows :
    (let s := engine 0x66 1
     [0x9800C, 0x94010, 0x9E004, 0xAC07C, 0xAC080].map (s.readAperture)) =
      [0x3DE1BC2E, 0x3F3504F3, 8, 0x3F7FFFF8, 0] := by decide +kernel

/-! ### Binary32 and PCM: TV-P -/

/-- TV-P, all fifteen rows. -/
theorem test_pcmConvert :
    ([0x3F000000, 0xBF800000, 0x3F800000, 0x3F7FFE00, 0x3F7FFF00, 0xBF7FFEB0, 0x37800000, 0x38400000, 0x38A00000, 0xB8000000,
      0x0DA24260, 0x80000000, 0x7F800000, 0xFF800000, 0x7FC00000].map fun w => pcmConvert (F32.ofBits w)) =
      [16384, -32768, 32767, 32767, 32767, -32767, 0, 2, 2, -1, 0, 0, 32767, -32768, 0] := by decide +kernel

/-! ### IMDCT: TV-I -/

/-- TV-I2, samples of the unit impulse's block, and TV-I10, subnormals are kept. -/
theorem test_imdct_impulse :
    (let block := fun w js => let t := after 0x00000004 (poke 0 0 w (engine 0x66 1)); List.map (t.blkWord 0) js
     (block 0x3F800000 [0, 1, 15, 16, 47, 48, 63], block 0x00000200 [0, 15])) =
      ([0x3F3085BB, 0x3F273656, 0x3CC90AB0, 0xBCC90AB0, 0xBF7FEC44, 0xBF7FEC44, 0xBF396842], [0x00000162, 0x0000000C]) := by
  decide +kernel

/-- TV-I7 and TV-I8: a NaN coefficient makes every output a NaN; an infinite one gives the pattern of NaNs. -/
theorem test_imdct_nonfinite :
    (let out := fun w : Word => (poke 0 0 w (engine 0x66 1)).transformed 0 .short
     (out 0x7FC00000).map F32.isNaN = List.replicate 64 true ∧
     (out 0x7F800000).map F32.isNaN = (List.range 64).map fun j =>
       if j < 16 then j % 2 == 0 else if j < 48 then j % 2 == 1 else j % 2 == 0) := by decide +kernel

/-- TV-I11: one flag per packet. -/
theorem test_imdct_sequence :
    registersAfter 0x00000004 (engine 0x76 2) = (0x00000102, 0, 0x276) ∧
      registersAfter 0x00110004 (after 0x00000004 (engine 0x76 2)) = (0x00060106, 0x00110004, 0x276) := by decide +kernel

/-! ### OLA and BLOCK: P1, TV-E -/

/-- P1 after step 3: the retained block is the impulse's second half. -/
def retained : State := after 0x00000006 (poke 0 0 0x3F800000 (engine 0x66 1))

/-- P1: the first packet produces nothing, and the second is the impulse decaying into silence. -/
theorem test_block :
    (retained.readRegister 0x008, retained.readRegister 0x010, retained.prevWord 0 0, retained.prevWord 0 15) =
        (0x0000000A, 0, 0xBF396842, 0xBF7FEC44) ∧
      (let t := after 0x00000006 (after 0x00000003 retained)
       (t.readRegister 0x010, t.readRegister 0x014, t.readAperture 0x80000, t.readAperture 0x8003C, t.prevWord 0 1)) =
        (32, 32, 0x9F15A34C, 0xFFEAFF2D, 0x80000000) := by decide +kernel

/-- A packet whose one channel has been transformed, with one sample of its block written, and no LUT. -/
def transformedOnce : State :=
  { engine 0x66 1 with
    status := (engine 0x66 1).status.markTransformed 0 .short
    mem := Memory.cleared.writeWords (blkAddr 0 47) [0xBF7FEC44] }

/-- TV-E: `OLA` before any transform; and R192, R197: a first packet is retained. -/
theorem test_ola :
    registersAfter 0x00000005 (engine 0x66 1) = (0x00060006, 0x00000005, 0x166) ∧
      registersAfter 0x00000005 transformedOnce = (0x0000000A, 0, 0x166) ∧
      (after 0x00000005 transformedOnce).prevWord 0 15 = 0xBF7FEC44 := by
  decide +kernel

/-! ### Buffer and control commands: TV-B -/

theorem test_nop : registersAfter 0x00000000 State.reset = (0, 0, 0) := by decide +kernel
theorem test_zeroCoef :
    (let t := after 0x00010002 (poke 1 7 0x3F800000 (engine 0x76 2))
     (t.coefWord 1 7, t.readRegister 0x008)) = (0, 0x00000002) := by decide +kernel
theorem test_zeroCoef_bad_channel : registersAfter 0x00010002 (engine 0x66 1) = (0x00050006, 0x00010002, 0x166) := by
  decide +kernel
theorem test_zeroAll_unconfigured : registersAfter 0x00000003 State.reset = (0x00040004, 0x00000003, 0) := by decide +kernel
theorem test_zeroAll : (after 0x00000003 (poke 7 4095 0x3F800000 (engine 0x66 1))).coefWord 7 4095 = 0 := by decide +kernel
theorem test_restart : registersAfter 0x00000007 retained = (0x00000002, 0, 0x166) := by decide +kernel
theorem test_softReset : registersAfter 0x0000000F (after 0x00000008 (engine 0x66 1)) = (0, 0, 0) := by decide +kernel

/-! ### Errors and the command register: TV-E -/

theorem test_illegal_words :
    [0x00000008, 0x000000FF, 0x00100005, 0x0000010F].map (fun w => registersAfter w (engine 0x66 1)) =
      [0x00000008, 0x000000FF, 0x00100005, 0x0000010F].map fun w => (0x00010006, w, 0x166) := by decide +kernel

/-- TV-E, last row: a failed engine ignores a `CONFIG`. -/
theorem test_failed_ignores : registersAfter 0x00016601 (after 0x00000008 State.reset) = (0x00010004, 0x00000008, 0) := by
  decide +kernel

/-- R37: the `STATUS` reads placed during a first `CONFIG` see `BUSY` alone. -/
theorem test_polls_see_busy :
    (match step { State.reset with pending := [.command 0x00016601 2] } with
     | .next t => (t.reads, t.status.busy)
     | _ => ([], true)) = ([1, 1], false) := by decide +kernel

/-! ### Host accesses: TV-M -/

/-- What one read from `s` returns. -/
def readOf (s : State) (off : Offset) : Option (List Word) :=
  match step { s with pending := [.read off 4] } with
  | .next t => some t.reads
  | _ => none

theorem test_read_registers : [0x000, 0x004, 0x030].map (readOf State.reset) = [some [0x43444D49], some [0], some [0]] := by
  decide +kernel

/-- TV-M: the bus errors, by the event that takes them. -/
theorem test_bus_errors :
    ([.read 0x10001 1, .write 0x10000 2 0, .read 0x10002 4, .read 0x00100 4, .read 0x30000 4, .read 0xB0000 4, .read 0xE0000 4].map
      fun e => match step { State.reset with pending := [e] } with
        | .fault r => some r
        | _ => none) =
      [some .busErrorWidth, some .busErrorWidth, some .busErrorAlignment, some .busErrorUnmapped, some .busErrorUnmapped,
        some .busErrorUnmapped, some .busErrorUnmapped] := by decide +kernel

/-- TV-M: a write to the `COEF` window lands in `COEF[3][5]`, and one to `BLK` changes nothing. -/
theorem test_host_writes :
    (match step { State.reset with pending := [.write 0x1C014 4 0x3F800000] } with
     | .next t => some (t.coefWord 3 5)
     | _ => none) = some 0x3F800000 ∧
    (match step { State.reset with pending := [.write 0x40000 4 0x3F800000] } with
     | .next t => some t
     | _ => none) = some State.reset := by decide +kernel

/-- The host's first command after reset, as the host's own check places it. -/
theorem test_withFetchWord :
    (match step (State.reset.withFetchWord 32 0x00026601) with
     | .next t => some (t.configRb.word, t.pending)
     | _ => none) = some (0x266, []) := by decide +kernel

/-! ### The assembler: R108, R109 -/

theorem test_assemble :
    ["CONFIG 0xB8, 2", "imdct c7, long ; a comment", "  BLOCK short", "; nothing"].map Assembler.assemble =
      [some (.command (.config 0xB8 2)), some (.command (.imdct 7 .long)), some (.command (.block .short)), some .blank] := by
  decide +kernel

theorem test_assemble_pseudo :
    (Assembler.assemble "CONFIGSZ 256, 2048, 2" = some (.pseudo (.configSz 256 2048 2))) ∧
      Assembler.expand 1 (.configSz 256 2048 2) = some [.write 0x004 4 0x0002B801] ∧
      Assembler.expand 2 (.wrCoef 1 1 ⟨true, 5, 10⟩) = some [.write 0x14004 4 0xBF000000] := by
  decide +kernel

/-! ### Witnesses: the hypotheses of each obligation are met -/

section Witnesses

open Sys2Proof.Reference

/-- A step gives a next state. -/
def stepsOn (s : State) : Bool :=
  match step s with
  | .next _ => true
  | _ => false

theorem witness_DecodeFollowsTable : [0x00000008, 0x00100005, 0xFFFFFFFF].map tableDecode = [none, none, none] := by decide +kernel

theorem witness_DecodeEncodeAgree :
    (Instr.config 0xFF 15).WellFormed ∧ (Instr.zeroCoef 0).WellFormed ∧ (Instr.imdct 15 .long).WellFormed ∧
      decode 0x001F0004 = .ok (.imdct 15 .long) := by decide +kernel

theorem witness_RowsSelectCommands : Selects 0x001F0004 (rowOf (.imdct 0 .short)) ∧ Selects 0x000FFF01 (rowOf (.config 0 0)) := by
  unfold Selects; decide

theorem witness_ReservedOpcodesIllegal :
    State.reset.status.failed = false ∧
      [0x08, 0x0E, 0x10, 0xFF].all (fun op => (0x08 ≤ op % 256 ∧ op % 256 ≤ 0x0E) ∨ 0x10 ≤ op % 256) = true := by decide

/-- R109's example, and the smallest and the largest pair of exponents that fit. -/
theorem witness_ConfigSzAssembles :
    Assembler.configSz? 256 2048 2 = some (.config 0xB8 2) ∧ Assembler.configSz? 1 32768 15 = some (.config 0xF0 15) ∧
      Assembler.configSz? 96 2048 2 = none := by decide +kernel

/-- `StepRunsCommand`, `PollsSeeBusy`, `FailedExactlyOnError`. -/
theorem witness_StepRunsCommand :
    State.reset.status.failed = false ∧ State.reset.status.err = .none ∧ decode 0x00016601 = .ok (.config 0x66 1) ∧
      wordError 0x00016601 State.reset = none := by decide +kernel

/-- `ErrorsArePrecise`: every error of R253 is met. -/
theorem witness_ErrorsArePrecise :
    (engine 0x76 2).status.failed = false ∧ wordError 0x00000008 State.reset = some .illegalCmd ∧
      wordError 0x00015601 State.reset = some .malformedHeader ∧ wordError 0x00006601 State.reset = some .malformedHeader ∧
      wordError 0x00096601 State.reset = some .unsupportedFeature ∧ wordError 0x00190004 State.reset = some .notConfigured ∧
      wordError 0x00020002 (engine 0x76 2) = some .badChannel ∧ wordError 0x00000005 (engine 0x76 2) = some .sequence ∧
      wordError 0x00100004 { engine 0x76 2 with status := (engine 0x76 2).status.markTransformed 0 .short } = some .sequence := by
  decide +kernel

/-- A failed engine. -/
def failedEngine : State := raiseError .illegalCmd 0x00000008 State.reset

/-- `FailedIgnoresCommands`: the failed state, and the first and last offsets of each clause. -/
theorem witness_FailedIgnoresCommands :
    failedEngine.status.failed = true ∧ LegalAccess 0x00000 4 ∧ LegalAccess 0x000FC 4 ∧ LegalAccess 0x10000 4 ∧ LegalAccess 0xDFFFC 4 ∧
      (0x2FFFC : Offset).toNat % 4 = 0 ∧ 0x10000 ≤ (0x10000 : Offset).toNat ∧ (0x2FFFC : Offset).toNat < 0x30000 := by decide +kernel

/-- `FailedLeftByReset`: a step that leaves `FAILED`, and one that does not. -/
theorem witness_FailedLeftByReset :
    failedEngine.status.failed = true ∧ (after 0x0000000F failedEngine).status.failed = false ∧
      (after 0x00000000 failedEngine).status.failed = true ∧
      stepsOn { failedEngine with pending := [.hardReset] } = true := by decide +kernel

/-- `ConfiguredWrittenBy`: an unconfigured state, and the events of its fifth clause. -/
theorem witness_ConfiguredWrittenBy :
    firstError (.config 0x66 1) State.reset = none ∧ State.reset.status.configured = false ∧
      firstError (.config 0x56 1) State.reset ≠ none ∧ HostEvent.read 0x008 4 ≠ .hardReset ∧
      stepsOn { engine 0x66 1 with pending := [.read 0x008 4] } = true := by decide +kernel

/-- `BusErrorsExactly`: legal and illegal accesses at every edge of the map. -/
theorem witness_BusErrorsExactly :
    ([0x00000, 0x000FC, 0x10000, 0x2FFFC, 0x40000, 0xAFFFC, 0xC0000, 0xDFFFC] : List Offset).all (fun off => LegalAccess off 4) ∧
      ([0x00002, 0x00100, 0x0FFFC, 0x30000, 0x3FFFC, 0xB0000, 0xBFFFC, 0xE0000, 0xFFFFC] : List Offset).all
        (fun off => ¬ LegalAccess off 4) := by decide +kernel

/-- `RegisterReads`: the last register offset, and the largest `OUT_COUNT` with the largest `NCH`. -/
theorem witness_RegisterReads :
    (0x0FC : Offset).toNat < 0x100 ∧ 0x024 ≤ (0x0FC : Offset).toNat ∧
      ({ engine 0xDD 8 with outCount := 4096 } : State).outCount.toNat * (engine 0xDD 8).nch < 2 ^ 16 := by
  refine ⟨by decide, by decide, ?_⟩
  show (4096 : BitVec 13).toNat * (BitVec.ofNat 4 8).toNat < 2 ^ 16
  decide

/-- `RamReads`: the last word of each window. -/
theorem witness_RamReads :
    InRam (0x10000 + 4 * (7 * 4096 + 4095)) ∧ InRam (0x40000 + 4 * (7 * 8192 + 8191)) ∧ InRam (0x80000 + 4 * 16383) ∧ InRam 0x9FFFC ∧
      InRam (0xA0000 + shapeNumber .long .long * 0x4000 + 4 * 4095) ∧ InRam (0xC0000 + 4 * (7 * 4096 + 4095)) ∧
      (0xDFFFC : Offset).toNat % 4 = 0 := by decide +kernel

theorem witness_ReadOnlyWritesIgnored :
    LegalAccess 0x000 4 ∧ LegalAccess 0xDFFFC 4 ∧ (0x000 : Offset) ≠ 0x004 ∧
      ¬ (0x10000 ≤ (0xDFFFC : Offset).toNat ∧ (0xDFFFC : Offset).toNat < 0x30000) ∧
      (0x024 ≤ (0x0FC : Offset).toNat ∧ (0x0FC : Offset).toNat < 0x100) := by decide +kernel

theorem witness_SecondMasterRefused :
    State.reset.pending = [] ∧ step { State.reset with pending := [.otherMaster] } = .refused .secondMaster :=
  ⟨rfl, rfl⟩

theorem witness_RunsComplete :
    ∀ e ∈ [HostEvent.hardReset, .write 0x004 4 0x00016601, .read 0x008 4, .command 0x00000006 2], LegalEvent e := by
  simp [LegalEvent, LegalAccess, InRam]

/-- The engine of the block sizes 64/64 with one channel meets every invariant (`StepKeepsInvariants`). -/
theorem witness_StepKeepsInvariants :
    (engine 0x66 1).Inv ∧ stepsOn { engine 0x66 1 with pending := [.command 0x00000007 0] } = true :=
  ⟨{ memWf := wf_setupMemory (by decide) (by decide)
     idle := rfl
     legal := fun _ => by decide +kernel
     specified := fun _ => rfl
     unconfigured := fun h => by cases h
     doneConfigured := fun c h => by
       have h' : (0 : BitVec 8).getLsbD c = true := h
       simp at h'
     noPacket := fun _ => rfl
     failedIffErr := ⟨fun _ => rfl, fun _ => rfl⟩
     outTotal := by decide +kernel
     outCount := .inl rfl
     noRetained := fun _ => rfl
     errCmd := fun _ => rfl }, by decide +kernel⟩

/-- `StepKeepsLut`, `ZeroInputZeroBlock`: a configured engine's LUT storage is what `CONFIG` built. -/
theorem witness_LutBuilt : (engine 0x66 1).status.configured = true ∧ (engine 0x66 1).LutBuilt := by
  have h0 : (engine 0x66 1).exponent .short = (shortExp 0x66).toNat := rfl
  have h1 : (engine 0x66 1).exponent .long = (longExp 0x66).toNat := rfl
  have hm : (engine 0x66 1).mem = setupMemory (shortExp 0x66).toNat (longExp 0x66).toNat := by unfold engine configure; rfl
  exact ⟨rfl, fun _ a _ _ => by rw [h0, h1, hm]⟩

/-- `CommandsWriteTheirRams`, `LutImmutable`. -/
theorem witness_CommandsWriteTheirRams : (engine 0x66 1).ConfigLegal ∧ exec .nop (engine 0x66 1) = .next (engine 0x66 1) :=
  ⟨by decide +kernel, rfl⟩

/-- The `CONFIG`s whose checks pass, at both ends of the exponents and of the count; an index in each table, and beyond it. -/
theorem witness_Config :
    firstError (.config 0x66 1) State.reset = none ∧ firstError (.config 0xDD 8) State.reset = none ∧
      firstError (.config 0xD6 8) State.reset = none ∧ expOf 0xD6 .short = 6 ∧ expOf 0xD6 .long = 13 ∧
      2047 < 2 ^ expOf 0xD6 .long / 4 ∧ 1023 < 2 ^ expOf 0xD6 .long / 4 / 2 ∧ 4095 < slopeOf 0xD6 .long .long ∧
      31 < slopeOf 0xD6 .long .short ∧ 2 ^ expOf 0xD6 .short / 4 ≤ 16 ∧ slopeOf 0xD6 .short .long ≤ 32 := by decide +kernel

/-- `TablesDependOnSizes`: equal and unequal exponents, and equal slopes of different pairs. -/
theorem witness_TablesDependOnSizes :
    expOf 0x66 .short = expOf 0x76 .short ∧ expOf 0x66 .short = expOf 0x66 .long ∧ expOf 0x76 .short < expOf 0x76 .long ∧
      slopeOf 0x76 .short .short = slopeOf 0x76 .long .short ∧ firstError (.config 0x76 2) State.reset = none := by decide +kernel

/-- `ZeroCoefClears`, `ZeroAllClears`, `NopAndRestart`, `ImdctWritesBlock`, `BlockIsPacket`: the lowest channel, and the highest of eight. -/
theorem witness_engine :
    (engine 0x66 1).status.configured = true ∧ 0 < (engine 0x66 1).nch ∧ 7 < (engine 0xDD 8).nch ∧ (engine 0x66 1).ConfigLegal ∧
      (engine 0xDD 8).ConfigLegal ∧ (engine 0x66 1).status.xfDone = 0 := by decide +kernel

/-- `ImdctWritesBlock`, for a packet that has begun. -/
theorem witness_imdct_again : transformedOnce.status.xfDone ≠ 0 ∧ transformedOnce.status.xfFlag = .short := by decide +kernel

theorem witness_FiniteOpsRoundOnce : IsFinite (F32.ofBits 0x7F7FFFFF) ∧ IsFinite (F32.ofBits 0x80000001) := by
  have h1 : F32.ofBits 0x7F7FFFFF = .fin false (16777215 <<< 253) := by decide +kernel
  have h2 : F32.ofBits 0x80000001 = .fin true 1 := by decide +kernel
  rw [h1, h2]
  exact ⟨trivial, trivial⟩

theorem witness_SpecialValues :
    (F32.ofBits 0x7FC00000).isNaN = true ∧ F32.ofBits 0xFF800000 = .inf true ∧ F32.ofBits 0x80000000 = .fin true 0 := by decide +kernel

/-- `ImdctUsesTables`: a canonical memory whose bit-reversal words are below `M` = 16. -/
theorem witness_ImdctUsesTables :
    (engine 0x66 1).mem.Wf ∧
      ∀ m, m < 16 → (engine 0x66 1).mem.readWord (0x90000 + flagNumber .long * 0x8000 + 0x6000 + 4 * m) < BitVec.ofNat 32 16 :=
  ⟨wf_setupMemory (by decide) (by decide), by decide +kernel⟩

/-- `ImdctReadsOnly`: two states that differ beyond the coefficients of a short block. -/
theorem witness_ImdctReadsOnly :
    let s := engine 0x66 1
    let s' := poke 0 32 0x3F800000 s
    s'.status.configured = true ∧ s'.mem.Wf ∧ s.configRb = s'.configRb ∧ s'.status.xfDone = 0 ∧
      (∀ k, k < 2 ^ s.exponent .short / 2 → s.coefWord 0 k = s'.coefWord 0 k) ∧
      SameWithin (bankAddr .short) (bankAddr .short + 0x8000) s.mem s'.mem ∧ s.coefWord 0 32 ≠ s'.coefWord 0 32 := by
  have hw : (engine 0x66 1).mem.Wf := wf_setupMemory (by decide) (by decide)
  refine ⟨rfl, Memory.wf_writeWords hw (by decide), rfl, rfl, ?_, ?_, ?_⟩
  · intro k hk
    have hk' : k < 32 := hk
    exact (Memory.readWord_writeWords_outside _ _ _ _ (by simp [coefAddr, Config.coefDepth]; omega)).symm
  · intro a h1 h2
    exact Memory.readByte_writeWords_outside _ _ _ _ (by simp [coefAddr, bankAddr, Config.coefDepth] at h1 ⊢; omega)
  · decide +kernel

theorem witness_DatapathFollowsRules : ∀ r ∈ (List.range 16).map (Lut.bitrev 4), r < 2 ^ 4 := by decide +kernel

theorem witness_DatapathExact : (List.replicate 32 (1 : ℝ)).length = 2 * 2 ^ 4 := by simp

/-- `ZeroInputZeroBlock`, `SilenceStaysSilent`: after a `CONFIG` every coefficient and every retained word is `+0`. -/
theorem witness_zero_words (c k : Nat) (hc : c < 8) (hk : k < 4096) :
    (engine 0x66 1).coefWord c k = 0x00000000 ∧ (engine 0x66 1).prevWord c k = 0x00000000 := by
  have out : ∀ a, a < 0x90000 ∨ 0xB0000 ≤ a → (engine 0x66 1).mem.readByte a = 0 :=
    fun a h => readByte_setupMemory_outside (by decide) (by decide) a h
  have h1 : coefAddr c k + 3 < 0x90000 := by simp [coefAddr, Config.coefDepth]; omega
  have h2 : 0xB0000 ≤ prevAddr c k := by simp [prevAddr]; omega
  constructor
  · unfold State.coefWord Memory.readWord
    rw [out _ (by omega), out _ (by omega), out _ (by omega), out _ (by omega)]; rfl
  · unfold State.prevWord Memory.readWord
    rw [out _ (by omega), out _ (by omega), out _ (by omega), out _ (by omega)]; rfl

/-- `OverlapRanges`: the widest difference of sizes, at both ends of the output. -/
theorem witness_OverlapRanges :
    (engine 0xD6 8).ConfigLegal ∧
      (let o := (engine 0xD6 8).overlap .long .short
       o.first ≤ 2032 ∧ 2063 < o.count ∧ o.first = 2032 ∧ o.count = 2064) := by decide +kernel

/-- `PcmConvertRounds`: the largest and the smallest finite data. -/
theorem witness_PcmConvertRounds :
    (F32.ofBits 0x7F800001).isNaN = true ∧ F32.ofBits 0x7F800000 = .inf false ∧ F32.ofBits 0xFF800000 = .inf true := by decide +kernel

/-- `OlaFirstPacket`, `OlaRetainsBlocks`. -/
theorem witness_OlaFirstPacket :
    PacketComplete transformedOnce ∧ transformedOnce.ConfigLegal ∧ transformedOnce.mem.Wf ∧ transformedOnce.status.prevValid = false :=
  ⟨by decide +kernel, by decide +kernel, Memory.wf_writeWords Memory.wf_cleared (by decide), rfl⟩

/-- The same packet after another one. -/
def transformedNext : State := { transformedOnce with status := { transformedOnce.status with prevValid := true } }

theorem witness_OlaWritesSamples :
    PacketComplete transformedNext ∧ transformedNext.ConfigLegal ∧ transformedNext.mem.Wf ∧ transformedNext.status.prevValid = true :=
  ⟨by decide +kernel, by decide +kernel, Memory.wf_writeWords Memory.wf_cleared (by decide), rfl⟩

/-- `BlockTransformsAll`, `SilenceStaysSilent`: with and without a retained block. -/
theorem witness_SilenceStaysSilent :
    let s := { engine 0x66 1 with status := { (engine 0x66 1).status with prevValid := true } }
    s.status.configured = true ∧ s.ConfigLegal ∧ s.mem.Wf ∧ s.LutBuilt ∧
      (∀ c k, c < s.nch → k < 2 ^ s.exponent .short / 2 → IsZeroWord (s.coefWord c k)) ∧
      ∀ c i, c < s.nch → i < 2 ^ s.exponent s.status.prevFlag / 2 → IsZeroWord (s.prevWord c i) := by
  refine ⟨rfl, by decide +kernel, wf_setupMemory (by decide) (by decide), fun _ => witness_LutBuilt.2 rfl,
    fun c k hc hk => .inl ?_, fun c i hc hi => .inl ?_⟩
  · have h1 : c < 1 := hc
    have h2 : k < 32 := hk
    exact (witness_zero_words c k (by omega) (by omega)).1
  · have h1 : c < 1 := hc
    have h2 : i < 32 := hi
    exact (witness_zero_words c i (by omega) (by omega)).2

/-! `ParametersAreArguments` -/

/-- A host that goes on after a bus error. -/
def patient : Params := { Params.default with busErrorEffect := fun _ rest => some rest }

theorem witness_busErrorEffect :
    ¬ LegalAccess 0x00100 4 ∧
      (match stepWith patient { State.reset with pending := [.read 0x00100 4, .read 0x000 4] } with
       | .next t => some (t.pending, t.reads)
       | _ => none) = some ([.read 0x000 4], []) := by decide +kernel

/-- An `IMDCT_IMPL` that answers zeros, with the sum of the coefficients' magnitudes as its bound. -/
def silent : Params :=
  { Params.default with
    imdctImpl := fun e _ _ => List.replicate (2 ^ e) F32.zero
    imdctTol := fun _ X => some (X.map fun w => |value (F32.ofBits w)|).sum }

theorem sum_abs_getD (L : List ℝ) : ∑ k ∈ Finset.range L.length, |L.getD k 0| = (L.map fun x => |x|).sum := by
  induction L with
  | nil => simp
  | cons x L ih => rw [List.length_cons, Finset.sum_range_succ', List.map_cons, List.sum_cons, ← ih]; simp [add_comm]

theorem witness_MeetsTolerance : MeetsTolerance silent := by
  intro e _ _ X hX _ j hj
  have hz : F32.ofBits 0x00000000 = F32.zero := by decide +kernel
  refine ⟨0x00000000, ?_, ?_, ?_⟩
  · rw [hz]; simp [silent, hj]
  · rw [hz]; trivial
  · rw [hz, show value F32.zero = 0 by simp [value, F32.zero], Rat.cast_zero, zero_sub, abs_neg]
    have h := sum_abs_getD (X.map fun w => ((value (F32.ofBits w) : ℚ) : ℝ))
    rw [List.length_map, hX] at h
    refine (Finset.abs_sum_le_sum_abs _ _).trans (le_of_le_of_eq (Finset.sum_le_sum fun k _ => ?_) (h.trans ?_))
    · rw [abs_mul]
      exact mul_le_of_le_one_right (abs_nonneg _) (Real.abs_cos_le_one _)
    · rw [List.map_map, Rat.cast_list_sum, List.map_map]
      congr 1
      apply List.map_congr_left
      intro w _
      simp

/-- A configured engine with finite coefficients, for those parameters. -/
theorem witness_silent_engine :
    (engine 0x66 1).LutBuilt silent ∧ IsFinite (F32.ofBits 0x00000000) := by
  have hz : F32.ofBits 0x00000000 = F32.zero := by decide +kernel
  refine ⟨fun hc a h1 h2 => ?_, by rw [hz]; trivial⟩
  rw [setupMemory_congr (P := silent) (P' := .default) rfl]
  exact witness_LutBuilt.2 hc a h1 h2

/-! Several instances -/

/-- An instance without a configuration, whose host reads a misaligned offset, and one with the block sizes 64/64 and one channel, whose host
writes `ZERO_ALL`, in apertures side by side. -/
def twoInstances : Platform where
  instances :=
    [{ base := 0, engine := { State.powerOn 0 with pending := [.read 0x001 4] }, hostFault := none },
     { base := 0x100000, engine := { engine 0x66 1 with unit := 1, pending := [.write 0x004 4 0x00000003] }, hostFault := none }]
  schedule := [0, 1, 0]

/-- R91: the bus error of the first instance's host leaves the second's command to run, which 0x100004 reaches (R70). -/
theorem test_instances_are_apart :
    locate? 0x100004 twoInstances.instances = some (1, 0x004) ∧ locate? 0x200000 twoInstances.instances = none ∧
      (match twoInstances.runWith .default 3 with
       | .next q => some (q.schedule, q.instances.map fun i => (i.hostFault, i.engine.pending, i.engine.status.failed))
       | _ => none) = some ([], [(some .busErrorAlignment, [.read 0x001 4], false), (none, [], false)]) := by decide +kernel

/-- `ApertureAddresses`, `ResetMeetsInvariants`, for several instances: apertures that touch, and the last offset of the second. -/
theorem witness_ApertureAddresses_instances :
    (twoInstances.instances.Pairwise fun i j => ApertureApart i.base j.base) ∧
      twoInstances.instances[1]?.isSome ∧ hostAddress 0x100000 0xFFFFC = 0x1FFFFC ∧
      (∀ i ∈ twoInstances.instances, 0x200000 < i.base ∨ i.base + 0x100000 ≤ 0x200000) ∧
      [0, 0x100000].Pairwise ApertureApart ∧ [0, 0x100000][1]? = some 0x100000 := by decide +kernel

/-- `InstancesArePrivate`: an access that reaches the other instance, a run that comes to its end, and the instances' runs alone. -/
theorem witness_InstancesArePrivate :
    (∀ off, locate? (HostAccess.read 0x100000 4).address twoInstances.instances ≠ some (0, off)) ∧
      (∃ q, twoInstances.runWith .default 3 = .next q) ∧
      ∀ (k : Nat) (i : Instance), twoInstances.instances[k]? = some i →
        ∃ j, i.runWith .default ((twoInstances.schedule.take 3).count k) = .next j := by
  refine ⟨?_, ⟨_, rfl⟩, fun k i hi => ?_⟩
  · rw [show locate? (HostAccess.read 0x100000 4).address twoInstances.instances = some (1, 0x000) by decide +kernel]
    simp
  · match k, hi with
    | 0, hi => cases hi; exact ⟨_, rfl⟩
    | 1, hi => cases hi; exact ⟨_, rfl⟩

/-- `StepKeepsInvariants`, for a platform: an unconfigured and a configured instance. -/
theorem witness_StepKeepsInvariants_platform :
    twoInstances.Inv ∧ ∃ q, twoInstances.stepWith .default = .next q := by
  have h := witness_StepKeepsInvariants.1
  have h0 : { State.powerOn 0 with pending := [.read 0x001 4] : State }.Inv :=
    { memWf := ⟨.nil, by simp [State.powerOn]⟩
      idle := rfl
      legal := nofun
      specified := nofun
      unconfigured := fun _ => ⟨rfl, rfl, rfl, rfl, rfl⟩
      doneConfigured := fun c hc => by
        have hc' : (0 : BitVec 8).getLsbD c = true := hc
        simp at hc'
      noPacket := fun _ => rfl
      failedIffErr := ⟨fun _ => rfl, fun _ => rfl⟩
      outTotal := by decide +kernel
      outCount := .inl rfl
      noRetained := fun _ => rfl
      errCmd := fun _ => rfl }
  have h1 : { engine 0x66 1 with unit := 1, pending := [.write 0x004 4 0x00000003] : State }.Inv :=
    ⟨h.memWf, h.idle, h.legal, h.specified, h.unconfigured, h.doneConfigured, h.noPacket, h.failedIffErr, h.outTotal, h.outCount,
      h.noRetained, h.errCmd⟩
  refine ⟨⟨by decide +kernel, by decide +kernel, ?_, ?_, ?_⟩, ⟨_, rfl⟩⟩ <;>
    simp only [twoInstances, List.mem_cons, List.not_mem_nil, or_false, forall_eq_or_imp, forall_eq]
  · exact ⟨h0, h1⟩
  · exact ⟨nofun, (witness_LutBuilt.2 :)⟩
  · exact ⟨fun _ _ e => by cases e; exact ⟨rfl, rfl⟩, nofun⟩

end Witnesses

end Sys2Proof.Tests
end

section
/-!
PROOFS. The patterns of binary32 data (00_scope.md R15): which magnitudes have a pattern, what the pattern is, and that patterns and data
name each other.
-/

namespace Sys2Proof.Machine.F32

/-! ### Magnitudes and their patterns -/

/-- The magnitude of exponent field `e` and fraction field `f`: a subnormal where `e` is 0 (00_scope.md R15). -/
def fieldMag (e f : Nat) : Nat := if e = 0 then f else (f + 2 ^ 23) * 2 ^ (e - 1)

theorem log2_mul_two_pow {q d : Nat} (h : 2 ^ 23 ≤ q) (h' : q < 2 ^ 24) : (q * 2 ^ d).log2 = d + 23 := by
  have hd := Nat.two_pow_pos d
  refine (Nat.log2_eq_iff (by positivity)).2 ⟨?_, ?_⟩
  · rw [Nat.add_comm, Nat.pow_add]; exact Nat.mul_le_mul_right _ h
  · rw [show d + 23 + 1 = 24 + d by omega, Nat.pow_add]; exact Nat.mul_lt_mul_of_pos_right h' hd

/-- The pattern of a significand shifted by `d`: a carry out of its 24 bits goes into the exponent. -/
theorem magBits_mul_two_pow {q d : Nat} (hq : q ≤ 2 ^ 24) (hd : d = 0 ∨ 2 ^ 23 ≤ q) :
    magBits (q * 2 ^ d) = d * 2 ^ 23 + q := by
  rcases Nat.lt_or_ge q (2 ^ 23) with h | h
  · obtain rfl : d = 0 := by omega
    have hl : q.log2 ≤ 22 := by
      rcases Nat.eq_zero_or_pos q with rfl | h0
      · simp
      · have := (Nat.log2_lt (by omega : q ≠ 0)).2 h; omega
    simp [magBits, show q.log2 - 23 = 0 by omega]
  · rcases Nat.lt_or_ge q (2 ^ 24) with h' | h'
    · simp [magBits, log2_mul_two_pow h h', Nat.shiftRight_eq_div_pow]
    · obtain rfl : q = 2 ^ 24 := by omega
      have e : 2 ^ 24 * 2 ^ d = 2 ^ 23 * 2 ^ (d + 1) := by ring
      rw [e, magBits, log2_mul_two_pow (le_refl _) (by decide), Nat.add_sub_cancel, Nat.shiftRight_eq_div_pow,
        Nat.mul_div_cancel _ (by positivity)]
      omega

theorem magBits_fieldMag {e f : Nat} (hf : f < 2 ^ 23) : magBits (fieldMag e f) = e * 2 ^ 23 + f := by
  unfold fieldMag
  split
  · rename_i h; simpa [h] using magBits_mul_two_pow (q := f) (d := 0) (by omega) (.inl rfl)
  · rw [magBits_mul_two_pow (by omega) (.inr (by omega))]; omega

theorem overflowMag_eq (a b : Nat) (h : 277 = a + b) : overflowMag = 2 ^ a * 2 ^ b := by rw [overflowMag, ← Nat.pow_add, h]

/-- A significand of at most 24 bits, shifted, is a magnitude of binary32 if it is below 2^128: 2^24 is one too. -/
theorem exists_fieldMag {q d : Nat} (hq : q ≤ 2 ^ 24) (hd : d = 0 ∨ 2 ^ 23 ≤ q) (hm : q * 2 ^ d < overflowMag) :
    ∃ e f, e < 255 ∧ f < 2 ^ 23 ∧ q * 2 ^ d = fieldMag e f := by
  rcases Nat.lt_or_ge q (2 ^ 23) with h | h
  · obtain rfl : d = 0 := by omega
    exact ⟨0, q, by omega, h, by simp [fieldMag]⟩
  · have hd' : d < 254 := by
      refine (Nat.pow_lt_pow_iff_right (a := 2) (by omega)).1 (Nat.lt_of_mul_lt_mul_left (a := 2 ^ 23) ?_)
      calc 2 ^ 23 * 2 ^ d ≤ q * 2 ^ d := Nat.mul_le_mul_right _ h
        _ < 2 ^ 23 * 2 ^ 254 := overflowMag_eq 23 254 rfl ▸ hm
    rcases Nat.lt_or_ge q (2 ^ 24) with h' | h'
    · exact ⟨d + 1, q - 2 ^ 23, by omega, by omega, by simp only [fieldMag]; rw [if_neg (by omega), Nat.sub_add_cancel h]; rfl⟩
    · obtain rfl : q = 2 ^ 24 := by omega
      have hne : d ≠ 253 := by rintro rfl; exact absurd hm (overflowMag_eq 24 253 rfl ▸ lt_irrefl _)
      exact ⟨d + 2, 0, by omega, by omega, by simp only [fieldMag]; rw [if_neg (by omega), Nat.add_succ_sub_one]; ring⟩

/-- A magnitude from 2^23 · 2^d on is a multiple of 2^d: that is what 24 bits of significand are. -/
theorem two_pow_dvd_fieldMag {e f d : Nat} (hf : f < 2 ^ 23) (h : 2 ^ 23 * 2 ^ d ≤ fieldMag e f) : 2 ^ d ∣ fieldMag e f := by
  have hd := Nat.two_pow_pos d
  unfold fieldMag at h ⊢
  split_ifs at h ⊢ with he
  · omega
  · have hlt : 2 ^ d < 2 ^ e := by
      refine Nat.lt_of_mul_lt_mul_left (a := 2 ^ 23) (h.trans_lt ?_)
      calc (f + 2 ^ 23) * 2 ^ (e - 1) < 2 ^ 24 * 2 ^ (e - 1) := Nat.mul_lt_mul_of_pos_right (by omega) (by positivity)
        _ = 2 ^ 23 * 2 ^ e := by rw [← Nat.pow_add, ← Nat.pow_add]; congr 1; omega
    have := (Nat.pow_lt_pow_iff_right (a := 2) (by omega)).1 hlt
    exact Dvd.dvd.mul_left (Nat.pow_dvd_pow 2 (by omega)) _

/-! ### Patterns as numbers -/

theorem toNat_eq_sign_exp_frac (w : Word) :
    w.toNat = (w.getLsbD 31).toNat * 2 ^ 31 + (w.extractLsb' 23 8).toNat * 2 ^ 23 + (w.extractLsb' 0 23).toNat := by
  have h : (w.getLsbD 31).toNat = w.toNat / 2 ^ 31 % 2 := by rw [← BitVec.testBit_toNat, Nat.toNat_testBit]
  have := w.isLt
  rw [h, BitVec.extractLsb'_toNat, BitVec.extractLsb'_toNat]
  simp only [Nat.shiftRight_eq_div_pow]
  omega

theorem toNat_append_fields (neg : Bool) (e : BitVec 8) (frac : BitVec 23) :
    (BitVec.ofBool neg ++ e ++ frac).toNat = neg.toNat * 2 ^ 31 + e.toNat * 2 ^ 23 + frac.toNat := by
  rw [BitVec.toNat_append, BitVec.toNat_append, ← Nat.shiftLeft_add_eq_or_of_lt frac.isLt,
    ← Nat.shiftLeft_add_eq_or_of_lt e.isLt, Nat.shiftLeft_eq, Nat.shiftLeft_eq, BitVec.toNat_ofBool]
  omega

theorem toNat_toBits_fin (neg : Bool) (mag : Nat) :
    (F32.fin neg mag).toBits.toNat = neg.toNat * 2 ^ 31 + magBits mag % 2 ^ 31 := by
  rw [toBits, BitVec.toNat_append, ← Nat.shiftLeft_add_eq_or_of_lt (BitVec.isLt _), Nat.shiftLeft_eq, BitVec.toNat_ofBool,
    BitVec.toNat_ofNat]

/-- The datum of a pattern, by its exponent field. -/
theorem ofBits_eq (w : Word) :
    ofBits w =
      if (w.extractLsb' 23 8).toNat = 255 then
        (if w.extractLsb' 0 23 = 0 then .inf (w.getLsbD 31) else .nan (w.getLsbD 31) (w.extractLsb' 0 23))
      else .fin (w.getLsbD 31) (fieldMag (w.extractLsb' 23 8).toNat (w.extractLsb' 0 23).toNat) := by
  simp only [ofBits, fieldMag, Nat.shiftLeft_eq]
  split_ifs <;> rfl

/-- Every pattern survives the passage through the data type (00_scope.md R15). -/
@[simp] theorem toBits_ofBits (w : Word) : (ofBits w).toBits = w := by
  have hw := toNat_eq_sign_exp_frac w
  have hf := (w.extractLsb' 0 23).isLt
  have he := (w.extractLsb' 23 8).isLt
  apply BitVec.eq_of_toNat_eq
  rw [ofBits_eq]
  split_ifs with h255 h0
  · rw [hw, h255, h0]; exact toNat_append_fields _ _ _
  · rw [hw, h255]; exact toNat_append_fields _ _ _
  · rw [toNat_toBits_fin, magBits_fieldMag hf, hw]; omega

/-- Every magnitude of binary32 has a pattern, with either sign. -/
theorem exists_ofBits_fieldMag (neg : Bool) {e f : Nat} (he : e < 255) (hf : f < 2 ^ 23) :
    ∃ w, ofBits w = .fin neg (fieldMag e f) := by
  have hw := toNat_append_fields neg (BitVec.ofNat 8 e) (BitVec.ofNat 23 f)
  rw [BitVec.toNat_ofNat, BitVec.toNat_ofNat, Nat.mod_eq_of_lt (by omega), Nat.mod_eq_of_lt hf] at hw
  refine ⟨BitVec.ofBool neg ++ BitVec.ofNat 8 e ++ BitVec.ofNat 23 f, ?_⟩
  generalize (BitVec.ofBool neg ++ BitVec.ofNat 8 e ++ BitVec.ofNat 23 f : BitVec (1 + 8 + 23)) = w at hw
  rw [toNat_eq_sign_exp_frac] at hw
  have h8 := (w.extractLsb' 23 8).isLt
  have h23 := (w.extractLsb' 0 23).isLt
  have hsign : w.getLsbD 31 = neg := by cases hs : w.getLsbD 31 <;> cases neg <;> simp_all <;> omega
  rw [hsign] at hw
  rw [ofBits_eq, hsign, if_neg (by omega), show (w.extractLsb' 23 8).toNat = e by omega,
    show (w.extractLsb' 0 23).toNat = f by omega]

/-- The finite data of patterns. -/
theorem exists_ofBits_iff (neg : Bool) (m : Nat) :
    (∃ w, ofBits w = .fin neg m) ↔ ∃ e f, e < 255 ∧ f < 2 ^ 23 ∧ m = fieldMag e f := by
  constructor
  · rintro ⟨w, h⟩
    rw [ofBits_eq] at h
    split_ifs at h with he
    cases h
    have := (w.extractLsb' 23 8).isLt
    exact ⟨_, _, by omega, (w.extractLsb' 0 23).isLt, rfl⟩
  · rintro ⟨e, f, he, hf, rfl⟩
    exact exists_ofBits_fieldMag neg he hf

/-! ### The sign -/

theorem xor_signBit_append (neg : Bool) {n : Nat} (x : BitVec n) :
    (BitVec.ofBool neg ++ x) ^^^ ((1 : BitVec 1) ++ (0 : BitVec n)) = BitVec.ofBool (!neg) ++ x := by
  rw [BitVec.xor_append]
  cases neg <;> simp

/-- Negation flips the sign bit, of zeros and NaNs as well (00_scope.md R15). -/
theorem toBits_neg (x : F32) : x.neg.toBits = x.toBits ^^^ 0x80000000 := by
  have hfields (s : Bool) (frac : BitVec 23) :
      (BitVec.ofBool !s) ++ (255 : BitVec 8) ++ frac =
        (BitVec.ofBool s ++ (255 : BitVec 8) ++ frac) ^^^ ((1 : BitVec 1) ++ (0 : BitVec 8) ++ (0 : BitVec 23)) := by
    rw [BitVec.xor_append, xor_signBit_append]; simp
  cases x with
  | nan s frac => exact hfields s frac
  | inf s => exact hfields s 0
  | fin s mag => exact (xor_signBit_append s (BitVec.ofNat 31 (magBits mag))).symm

end Sys2Proof.Machine.F32
end

section
/-!
PROOFS. Binary32 arithmetic (00_scope.md R15): `round` gives the nearest datum, ties to even, and each operation on finite data is one `round`
of its exact result; and the special values.
-/

namespace Sys2Proof.Machine.F32

open Sys2Proof.Reference

/-! ### Rounding to an integer -/

/-- `roundShift` is within half a unit, and even where it is half a unit away. -/
theorem roundShift_near (m shift : Nat) :
    |2 * ((roundShift m shift : ℤ) * 2 ^ shift - m)| ≤ 2 ^ shift ∧
      (|2 * ((roundShift m shift : ℤ) * 2 ^ shift - m)| = 2 ^ shift → roundShift m shift % 2 = 0) := by
  have hD := Nat.two_pow_pos shift
  have hm := Nat.div_add_mod m (2 ^ shift)
  have hr := Nat.mod_lt m hD
  simp only [roundShift, Nat.shiftRight_eq_div_pow]
  have hcast : ((2 : ℤ) ^ shift) = ((2 ^ shift : ℕ) : ℤ) := by push_cast; rfl
  rw [hcast]
  generalize 2 ^ shift = D at *
  generalize m / D = q at *
  generalize m % D = r at *
  subst hm
  have hq : ((q : ℕ) : ℤ) * D - ((D * q + r : ℕ) : ℤ) = -r := by push_cast; ring
  have hq1 : ((q + 1 : ℕ) : ℤ) * D - ((D * q + r : ℕ) : ℤ) = D - r := by push_cast; ring
  split_ifs with h1 h2
  · rw [hq, abs_le, abs_eq (by omega)]; omega
  · rw [hq, abs_le, abs_eq (by omega)]; omega
  · rw [hq1, abs_le, abs_eq (by omega)]; omega

/-- A multiple of `D` within half of `D` of `X` is a nearest one; another is as near only at exactly half of `D`. -/
theorem abs_sub_le_of_near {q X D : ℤ} (h : |2 * (q * D - X)| ≤ D) (j : ℤ) :
    |q * D - X| ≤ |j * D - X| ∧ (|q * D - X| = |j * D - X| → j = q ∨ |2 * (q * D - X)| = D) := by
  rcases eq_or_ne j q with rfl | hne
  · exact ⟨le_rfl, fun _ => .inl rfl⟩
  · have hD : D ≤ |j * D - q * D| := by
      rw [← sub_mul, abs_mul, abs_of_nonneg ((abs_nonneg _).trans h)]
      exact le_mul_of_one_le_left ((abs_nonneg _).trans h) (Int.one_le_abs (sub_ne_zero.2 hne))
    have htri : |j * D - q * D| ≤ |j * D - X| + |q * D - X| := by
      rw [abs_sub_comm (q * D) X]; exact abs_sub_le _ _ _
    rw [abs_mul, abs_two] at h ⊢
    constructor
    · omega
    · intro he; right; omega

/-! ### Rounding to binary32 -/

/-- How far the significand of the rounded `mag * 2^-(149 + k)` is shifted. -/
def roundExp (mag k : Nat) : Nat := mag.log2 - 23 - k

/-- The significand of the rounded `mag * 2^-(149 + k)`. -/
def roundSig (mag k : Nat) : Nat := roundShift mag (k + roundExp mag k)

theorem round_eq (neg : Bool) (mag k : Nat) :
    round neg mag k =
      if roundSig mag k * 2 ^ roundExp mag k < overflowMag then .fin neg (roundSig mag k * 2 ^ roundExp mag k) else .inf neg := by
  have hs : max k (mag.log2 - 23) = k + roundExp mag k := by unfold roundExp; omega
  simp only [round, hs, Nat.add_sub_cancel_left, Nat.shiftLeft_eq]
  rfl

theorem round_of_lt (neg : Bool) {mag k : Nat} (h : roundSig mag k * 2 ^ roundExp mag k < overflowMag) :
    round neg mag k = .fin neg (roundSig mag k * 2 ^ roundExp mag k) := (round_eq neg mag k).trans (if_pos h)

theorem round_of_not_lt (neg : Bool) {mag k : Nat} (h : ¬ roundSig mag k * 2 ^ roundExp mag k < overflowMag) :
    round neg mag k = .inf neg := (round_eq neg mag k).trans (if_neg h)

theorem round_zero_mag (neg : Bool) (k : Nat) : round neg 0 k = .fin neg 0 := by
  have h : roundSig 0 k * 2 ^ roundExp 0 k = 0 := by simp [roundSig, roundShift]
  rw [round_of_lt _ (by rw [h, overflowMag_eq 24 253 rfl]; positivity), h]

/-- What is shifted has 24 significant bits. -/
theorem le_of_roundExp_ne_zero {mag k : Nat} (h : roundExp mag k ≠ 0) : 2 ^ 23 * 2 ^ (k + roundExp mag k) ≤ mag := by
  unfold roundExp at *
  rw [← Nat.pow_add]
  exact (Nat.pow_le_pow_right (by omega) (by omega)).trans (Nat.log2_self_le (by rintro rfl; simp at h))

theorem lt_two_pow_roundExp (mag k : Nat) : mag < 2 ^ 24 * 2 ^ (k + roundExp mag k) := by
  rw [← Nat.pow_add]
  exact Nat.lt_log2_self.trans_le (Nat.pow_le_pow_right (by omega) (by unfold roundExp; omega))

theorem roundSig_near (mag k : Nat) :
    |2 * ((roundSig mag k : ℤ) * 2 ^ (k + roundExp mag k) - mag)| ≤ 2 ^ (k + roundExp mag k) ∧
      (|2 * ((roundSig mag k : ℤ) * 2 ^ (k + roundExp mag k) - mag)| = 2 ^ (k + roundExp mag k) → roundSig mag k % 2 = 0) :=
  roundShift_near _ _

theorem roundSig_le (mag k : Nat) : roundSig mag k ≤ 2 ^ 24 := by
  have h := (abs_le.1 (roundSig_near mag k).1).2
  have hX := lt_two_pow_roundExp mag k
  have hD := Nat.two_pow_pos (k + roundExp mag k)
  zify at hX hD ⊢
  generalize (2 : ℤ) ^ (k + roundExp mag k) = D at *
  by_contra hq
  nlinarith

theorem le_roundSig {mag k : Nat} (h : roundExp mag k ≠ 0) : 2 ^ 23 ≤ roundSig mag k := by
  have hn := (abs_le.1 (roundSig_near mag k).1).1
  have hX := le_of_roundExp_ne_zero h
  have hD := Nat.two_pow_pos (k + roundExp mag k)
  zify at hX hD ⊢
  generalize (2 : ℤ) ^ (k + roundExp mag k) = D at *
  by_contra hq
  nlinarith

/-- No magnitude of binary32, of either sign, is nearer than the rounded one; where another is as near, the rounded one is even. -/
theorem round_nearest (mag k : Nat) {z : ℤ} {e f : Nat} (hf : f < 2 ^ 23) (hz : z.natAbs = fieldMag e f) :
    |(roundSig mag k * 2 ^ roundExp mag k : ℤ) * 2 ^ k - mag| ≤ |z * 2 ^ k - mag| ∧
      (|(roundSig mag k * 2 ^ roundExp mag k : ℤ) * 2 ^ k - mag| = |z * 2 ^ k - mag| →
        z = roundSig mag k * 2 ^ roundExp mag k ∨ roundSig mag k % 2 = 0) := by
  obtain ⟨hnear, heven⟩ := roundSig_near mag k
  have e1 : ∀ j : ℤ, j * 2 ^ roundExp mag k * 2 ^ k = j * 2 ^ (k + roundExp mag k) := fun j => by ring
  rw [e1]
  by_cases hdvd : (2 : ℤ) ^ roundExp mag k ∣ z
  · obtain ⟨j, rfl⟩ := hdvd
    rw [mul_comm _ j, e1]
    obtain ⟨h1, h2⟩ := abs_sub_le_of_near hnear j
    exact ⟨h1, fun h => (h2 h).imp (fun h => by rw [h]) heven⟩
  · have hX := le_of_roundExp_ne_zero (mag := mag) (k := k) fun h => hdvd (by simp [h])
    have hsmall : z.natAbs < 2 ^ 23 * 2 ^ roundExp mag k := by
      by_contra! hle
      rw [hz] at hle
      exact hdvd (by exact_mod_cast Int.natCast_dvd.2 (hz ▸ two_pow_dvd_fieldMag hf hle))
    have hz' : z * 2 ^ k < 2 ^ 23 * 2 ^ (k + roundExp mag k) := by
      have : z < 2 ^ 23 * 2 ^ roundExp mag k := by zify at hsmall; exact (le_abs_self z).trans_lt hsmall
      calc z * 2 ^ k < 2 ^ 23 * 2 ^ roundExp mag k * 2 ^ k := mul_lt_mul_of_pos_right this (by positivity)
        _ = _ := e1 _
    have hlt : |(roundSig mag k : ℤ) * 2 ^ (k + roundExp mag k) - mag| < |z * 2 ^ k - mag| := by
      zify at hX
      calc _ ≤ |2 ^ 23 * 2 ^ (k + roundExp mag k) - (mag : ℤ)| := (abs_sub_le_of_near hnear _).1
        _ = mag - 2 ^ 23 * 2 ^ (k + roundExp mag k) := by rw [abs_sub_comm]; exact abs_of_nonneg (by linarith)
        _ < mag - z * 2 ^ k := by linarith
        _ ≤ _ := by rw [abs_sub_comm]; exact le_abs_self _
    exact ⟨hlt.le, fun h => absurd h hlt.ne⟩

/-- Below halfway between the largest finite datum and 2^128, a magnitude rounds below 2^128. -/
theorem roundSig_mul_lt {mag k : Nat} (hX : mag < (2 ^ 25 - 1) * 2 ^ (252 + k)) :
    roundSig mag k * 2 ^ (k + roundExp mag k) < 2 ^ 25 * 2 ^ (252 + k) := by
  have hlog : mag.log2 < 277 + k := by
    rcases Nat.eq_zero_or_pos mag with rfl | hpos
    · simp
    · refine (Nat.log2_lt (by omega)).2 (hX.trans_le ?_)
      rw [show 277 + k = 25 + (252 + k) by omega, Nat.pow_add 2 25]
      exact Nat.mul_le_mul_right _ (Nat.sub_le _ _)
  have hD : 2 ^ (k + roundExp mag k) ≤ 2 ^ (253 + k) := Nat.pow_le_pow_right (by omega) (by unfold roundExp; omega)
  have hlo := (abs_le.1 (roundSig_near mag k).1).2
  by_contra! hge
  rw [show 253 + k = 1 + (252 + k) by omega, Nat.pow_add 2 1] at hD
  zify at hX hD hge
  push_cast at hX
  linarith

/-- From that halfway point on, a magnitude rounds to 2^128 or more: at the point itself because the largest significand is odd. -/
theorem le_roundSig_mul {mag k : Nat} (hX : (2 ^ 25 - 1) * 2 ^ (252 + k) ≤ mag) :
    2 ^ 25 * 2 ^ (252 + k) ≤ roundSig mag k * 2 ^ (k + roundExp mag k) := by
  have hK := Nat.two_pow_pos (252 + k)
  have hmag : 2 ^ (276 + k) ≤ mag := by rw [show 276 + k = 24 + (252 + k) by omega, Nat.pow_add]; omega
  have hlog : 276 + k ≤ mag.log2 := (Nat.le_log2 (by have := Nat.two_pow_pos (276 + k); omega)).2 hmag
  have hexp : 253 ≤ roundExp mag k := by unfold roundExp; omega
  have hsig := le_roundSig (mag := mag) (k := k) (by omega)
  rcases hexp.eq_or_lt with h253 | h254
  · have hD : 2 ^ (k + roundExp mag k) = 2 * 2 ^ (252 + k) := by rw [← h253]; ring
    obtain ⟨hnear, heven⟩ := roundSig_near mag k
    have hlo := (abs_le.1 hnear).1
    by_contra! hlt
    have hDz : (2 : ℤ) ^ (k + roundExp mag k) = 2 * 2 ^ (252 + k) := by exact_mod_cast hD
    rw [hD] at hlt
    rw [hDz] at hlo heven
    zify at hlt hX hK
    push_cast at hX
    generalize (2 : ℤ) ^ (252 + k) = K at *
    have hup : roundSig mag k < (2 ^ 24 : ℤ) := by nlinarith
    have hdown : (2 ^ 24 - 1 : ℤ) ≤ roundSig mag k := by nlinarith
    have hodd : (roundSig mag k : ℤ) = 2 ^ 24 - 1 := by omega
    rw [hodd] at heven hlo
    have := heven (by rw [abs_eq (by omega)]; right; omega)
    omega
  · have hD : 2 ^ (254 + k) ≤ 2 ^ (k + roundExp mag k) := Nat.pow_le_pow_right (by omega) (by omega)
    have := Nat.mul_le_mul hsig hD
    rw [show 254 + k = 2 + (252 + k) by omega, Nat.pow_add] at this
    omega

/-- A result rounds below 2^128 exactly below halfway between the largest finite datum and 2^128. -/
theorem round_lt_iff (mag k : Nat) :
    roundSig mag k * 2 ^ roundExp mag k < overflowMag ↔ mag < (2 ^ 25 - 1) * 2 ^ (252 + k) := by
  have hscale : roundSig mag k * 2 ^ roundExp mag k < overflowMag ↔
      roundSig mag k * 2 ^ (k + roundExp mag k) < 2 ^ 25 * 2 ^ (252 + k) := by
    rw [overflowMag_eq 25 252 rfl, ← Nat.mul_lt_mul_right (Nat.two_pow_pos k), Nat.pow_add 2 k, Nat.pow_add 2 252 k]
    simp only [Nat.mul_assoc, Nat.mul_comm (2 ^ k)]
  rw [hscale]
  exact ⟨fun h => lt_of_not_ge fun hX => h.not_ge (le_roundSig_mul hX), roundSig_mul_lt⟩

/-! ### Correct rounding of rational numbers -/

/-- The sign of a datum as a number. -/
def signOf (neg : Bool) : ℚ := if neg then -1 else 1

/-- The number that `round neg mag k` rounds. -/
def scaled (neg : Bool) (mag k : Nat) : ℚ := signOf neg * mag / 2 ^ (149 + k)

theorem abs_signOf (neg : Bool) : |signOf neg| = 1 := by cases neg <;> simp [signOf]

theorem value_fin (neg : Bool) (mag : Nat) : value (.fin neg mag) = scaled neg mag 0 := rfl

theorem abs_scaled (neg : Bool) (mag k : Nat) : |scaled neg mag k| = mag / 2 ^ (149 + k) := by
  rw [scaled, abs_div, abs_mul, abs_signOf, one_mul, Nat.abs_cast, abs_of_pos (by positivity)]

/-- The sign of a scaled magnitude that is not 0 is its sign bit. -/
theorem scaled_lt_zero_iff (neg : Bool) {mag : Nat} (h : mag ≠ 0) (k : Nat) : scaled neg mag k < 0 ↔ neg = true := by
  have hpos : (0 : ℚ) < mag / 2 ^ (149 + k) := by positivity
  cases neg
  · simpa [scaled, signOf] using hpos.le
  · simpa [scaled, signOf, neg_div] using hpos

/-- The value of a finite datum against the sign of another: an integer multiple of 2^-149. -/
theorem exists_value_eq (neg s : Bool) (m : Nat) : ∃ z : ℤ, z.natAbs = m ∧ value (.fin s m) = signOf neg * z / 2 ^ 149 := by
  by_cases h : s = neg
  · exact ⟨m, rfl, by rw [h]; rfl⟩
  · refine ⟨-m, by simp, ?_⟩
    cases s <;> cases neg <;> simp_all [value, signOf]

theorem abs_sub_scaled (neg : Bool) (z : ℤ) (mag k : Nat) :
    |signOf neg * z / 2 ^ 149 - scaled neg mag k| = ((|z * 2 ^ k - mag| : ℤ) : ℚ) / 2 ^ (149 + k) := by
  have h : signOf neg * z / 2 ^ 149 - scaled neg mag k = signOf neg * ((z * 2 ^ k - mag : ℤ) : ℚ) / 2 ^ (149 + k) := by
    rw [scaled, pow_add]; push_cast; field_simp
  rw [h, abs_div, abs_mul, abs_signOf, one_mul, abs_of_pos (by positivity : (0 : ℚ) < 2 ^ (149 + k)), Int.cast_abs]

theorem abs_scaled_lt_iff (neg : Bool) (mag k : Nat) :
    |scaled neg mag k| < (2 : ℚ) ^ 128 - 2 ^ 103 ↔ mag < (2 ^ 25 - 1) * 2 ^ (252 + k) := by
  have h : ((2 : ℚ) ^ 128 - 2 ^ 103) * 2 ^ (149 + k) = ((2 ^ 25 - 1) * 2 ^ (252 + k) : ℕ) := by push_cast; ring
  rw [abs_scaled, div_lt_iff₀ (by positivity), h, Nat.cast_lt]

/-- An even significand is an even pattern. -/
theorem getLsbD_zero_toBits {q d : Nat} (neg : Bool) (hq : q ≤ 2 ^ 24) (hd : d = 0 ∨ 2 ^ 23 ≤ q) (he : q % 2 = 0) :
    (F32.fin neg (q * 2 ^ d)).toBits.getLsbD 0 = false := by
  rw [← BitVec.testBit_toNat, toNat_toBits_fin, magBits_mul_two_pow hq hd, Nat.testBit_zero, decide_eq_false_iff_not]
  omega

theorem exists_fin_of_isFinite {x : F32} (h : IsFinite x) : ∃ s m, x = .fin s m := by
  cases x with
  | fin s m => exact ⟨s, m, rfl⟩
  | inf s => cases h
  | nan s p => cases h

/-- A rounded magnitude below 2^128 is a nearest datum, and the even one of two. -/
theorem isRounded_of_lt (neg : Bool) {mag k : Nat} (hm : roundSig mag k * 2 ^ roundExp mag k < overflowMag) :
    IsRounded (scaled neg mag k) (.fin neg (roundSig mag k * 2 ^ roundExp mag k)) := by
  have hexp : roundExp mag k = 0 ∨ 2 ^ 23 ≤ roundSig mag k := or_iff_not_imp_left.2 le_roundSig
  refine ⟨(abs_scaled_lt_iff neg mag k).2 ((round_lt_iff mag k).1 hm),
    (exists_ofBits_iff _ _).2 (exists_fieldMag (roundSig_le mag k) hexp hm), fun w hw => ?_⟩
  obtain ⟨s, m, hwm⟩ := exists_fin_of_isFinite hw
  obtain ⟨e, f, -, hf, rfl⟩ := (exists_ofBits_iff s m).1 ⟨w, hwm⟩
  obtain ⟨z, hz, hv⟩ := exists_value_eq neg s (fieldMag e f)
  obtain ⟨hle, heq⟩ := round_nearest mag k hf hz
  have hq : value (.fin neg (roundSig mag k * 2 ^ roundExp mag k)) =
      signOf neg * ((roundSig mag k * 2 ^ roundExp mag k : ℤ) : ℚ) / 2 ^ 149 := by
    rw [value_fin, scaled]; push_cast; rfl
  have hpos : (0 : ℚ) < 2 ^ (149 + k) := by positivity
  rw [hwm, hv, hq, abs_sub_scaled, abs_sub_scaled, div_le_div_iff_of_pos_right hpos, div_left_inj' hpos.ne', Int.cast_le,
    Int.cast_inj]
  exact ⟨hle, fun h => (heq h).imp (fun h => by rw [h]) (getLsbD_zero_toBits neg (roundSig_le mag k) hexp)⟩

/-- A result that is not zero gives its sign to whatever it rounds to, a zero included (00_scope.md R15). -/
theorem hasSignOf_fin (neg : Bool) (mag k m : Nat) : HasSignOf (scaled neg mag k) (.fin neg m) := by
  rcases Nat.eq_zero_or_pos mag with rfl | hpos
  · simp [HasSignOf, scaled]
  · have hs := scaled_lt_zero_iff neg hpos.ne' k
    exact ⟨hs.1, fun h => by simpa using mt hs.2 h.not_gt⟩

/-- `round` rounds correctly (00_scope.md R15). -/
theorem round_correct (neg : Bool) (mag k : Nat) :
    IsRounded (scaled neg mag k) (round neg mag k) ∧ HasSignOf (scaled neg mag k) (round neg mag k) := by
  cases em (roundSig mag k * 2 ^ roundExp mag k < overflowMag) with
  | inl hm =>
    rw [round_of_lt neg hm]
    exact ⟨isRounded_of_lt neg hm, hasSignOf_fin neg mag k _⟩
  | inr hm =>
    rw [round_of_not_lt neg hm]
    have hbig : ¬ mag < (2 ^ 25 - 1) * 2 ^ (252 + k) := mt (round_lt_iff mag k).2 hm
    have hs := (scaled_lt_zero_iff neg (mag := mag) (by rintro rfl; exact hbig (by positivity)) k).symm
    exact ⟨⟨le_of_not_gt (mt (abs_scaled_lt_iff neg mag k).1 hbig), hs⟩, hs⟩

/-! ### The operations on finite data -/

theorem mul_fin (s t : Bool) (m n : Nat) : (F32.fin s m).mul (.fin t n) = round (s ^^ t) (m * n) 149 := rfl

theorem add_fin (s t : Bool) (m n : Nat) : (F32.fin s m).add (.fin t n) = addFinite s m t n := rfl

theorem sub_fin (s t : Bool) (m n : Nat) : (F32.fin s m).sub (.fin t n) = addFinite s m (!t) n := rfl

theorem value_mul_fin (s t : Bool) (m n : Nat) : value (.fin s m) * value (.fin t n) = scaled (s ^^ t) (m * n) 149 := by
  have h : signOf (s ^^ t) = signOf s * signOf t := by cases s <;> cases t <;> simp [signOf]
  rw [value_fin, value_fin, scaled, scaled, scaled, h, div_mul_div_comm, ← pow_add]
  push_cast
  congr 1
  ring

/-- The exact sum of two finite data is a magnitude with a sign, and the machine rounds that. -/
theorem addFinite_eq_round (s t : Bool) (m n : Nat) :
    ∃ neg mag, addFinite s m t n = round neg mag 0 ∧ value (.fin s m) + value (.fin t n) = scaled neg mag 0 := by
  have hval (a b : Bool) (p q : Nat) : value (.fin a p) + value (.fin b q) = (signOf a * p + signOf b * q) / 2 ^ 149 := by
    rw [value_fin, value_fin, scaled, scaled]; ring
  have hopp (h : ¬ s = t) : signOf t = -signOf s := by cases s <;> cases t <;> simp_all [signOf]
  rw [hval]
  unfold addFinite
  split_ifs with hst hmn hlt
  · exact ⟨s, m + n, rfl, by rw [scaled, hst]; push_cast; ring⟩
  · exact ⟨false, 0, (round_zero_mag _ _).symm, by rw [hopp hst, hmn, scaled]; push_cast; ring⟩
  · exact ⟨s, m - n, rfl, by rw [scaled, hopp hst, Nat.cast_sub hlt.le]; ring⟩
  · exact ⟨t, n - m, rfl, by rw [scaled, hopp hst, Nat.cast_sub (not_lt.1 hlt)]; ring⟩

theorem value_neg (a : F32) : value a.neg = - value a := by
  cases a with
  | fin s m => cases s <;> simp [neg, value, neg_div]
  | inf s => simp [neg, value]
  | nan s p => simp [neg, value]

/-! ### The special values -/

theorem isQuietNaN_quietNaN (op : Config.NanOp) (a b : F32) : IsQuietNaN (quietNaN op a b) :=
  ⟨_, _, rfl, (BitVec.getLsbD_append ..).trans (by simp)⟩

theorem isNaN_neg (a : F32) : a.neg.isNaN = a.isNaN := by cases a <;> rfl

theorem mul_of_isNaN {a b : F32} (h : a.isNaN = true ∨ b.isNaN = true) : a.mul b = quietNaN .mul a b := by
  cases a <;> cases b <;> simp_all [isNaN, mul]

theorem sum_of_isNaN (op : Config.NanOp) {a b c : F32} (h : a.isNaN = true ∨ c.isNaN = true) :
    sum op a b c = quietNaN op a b := by
  cases a <;> cases c <;> simp_all [isNaN, sum]

end Sys2Proof.Machine.F32

namespace Sys2Proof.Machine

open Sys2Proof.Reference F32

/-- Settles O43: each operation is one `round` of the exact result. -/
theorem finiteOpsRoundOnce : Obligations.FiniteOpsRoundOnce := by
  intro v w a b ha hb
  obtain ⟨s, m, hm⟩ := exists_fin_of_isFinite ha
  obtain ⟨t, n, hn⟩ := exists_fin_of_isFinite hb
  have hsum (t : Bool) : IsRounded (value (.fin s m) + value (.fin t n)) (addFinite s m t n) ∧
      HasSignOf (value (.fin s m) + value (.fin t n)) (addFinite s m t n) := by
    obtain ⟨neg, mag, hr, hv⟩ := addFinite_eq_round s t m n
    rw [hr, hv]
    exact round_correct neg mag 0
  rw [hm, hn]
  refine ⟨?_, add_fin s t m n ▸ hsum t, ?_⟩
  · rw [value_mul_fin, mul_fin]
    exact round_correct (s ^^ t) (m * n) 149
  · rw [sub_eq_add_neg, ← value_neg, sub_fin]
    exact hsum !t

/-- Settles O44: each clause by the kinds of the operands; a NaN among them decides first. -/
theorem specialValues : Obligations.SpecialValues := by
  refine ⟨fun w => ⟨by rw [toBits_neg, toBits_ofBits], toBits_ofBits w⟩, fun a b h => ⟨?_, ?_, ?_⟩, fun s t => ?_, fun s t m => ?_,
    fun s m => ?_, fun s t m => ?_⟩
  · rw [mul_of_isNaN h]; exact isQuietNaN_quietNaN ..
  · rw [add, sum_of_isNaN _ h]; exact isQuietNaN_quietNaN ..
  · rw [sub, sum_of_isNaN _ (by rwa [isNaN_neg])]; exact isQuietNaN_quietNaN ..
  · have hinf : (s ^^ t) = (s != t) := rfl
    simp [mul, add, sub, neg, sum, isQuietNaN_quietNaN, hinf]
  · have hxor : (s ^^ t) = (s != t) ∧ (t ^^ s) = (s != t) := by cases s <;> cases t <;> decide
    simp +contextual [mul, add, sub, neg, sum, hxor]
  · simp [add, sub, neg, sum, addFinite, F32.zero]
  · have hxor : (s ^^ t) = (s != t) ∧ (t ^^ s) = (s != t) := by cases s <;> cases t <;> decide
    simp [add, sum, addFinite, mul_fin, round_zero_mag, hxor]

end Sys2Proof.Machine
end

section
/-!
PROOFS. The parameters (00_scope.md R10): what each operation that reads one does with it, for every value of the parameters.
-/

namespace Sys2Proof.Machine

open Sys2Proof.Reference

variable {P : Params}

/-! ### `CONFIG` for given parameters -/

/-- R253's reading of `CONFIG`'s checks and the machine's are one. -/
theorem firstError_config (b8 : Byte) (nch : Nat) (s : State) : firstError (.config b8 nch) s = configError? b8 nch := by
  have h : (¬ legalExponents (shortExp b8).toNat (longExp b8).toNat = true) ↔
      ¬ (6 ≤ (shortExp b8).toNat ∧ (shortExp b8).toNat ≤ 13 ∧ 6 ≤ (longExp b8).toNat ∧ (longExp b8).toNat ≤ 13 ∧
        (shortExp b8).toNat ≤ (longExp b8).toNat) := by
    rw [legalExponents_iff]; omega
  simp only [configError?, h]
  rfl

theorem expOf_eq (b8 : Byte) (f : BlockFlag) : expOf b8 f = expOfFlag (shortExp b8).toNat (longExp b8).toNat f := by
  cases f
  · exact (toNat_shortExp b8).symm
  · exact (toNat_longExp b8).symm

/-- The exponents of a `CONFIG` that passes its checks (40_setup.md R131). -/
theorem expOf_bounds {b8 : Byte} {nch : Nat} (h : configError? b8 nch = none) (f : BlockFlag) : 6 ≤ expOf b8 f ∧ expOf b8 f ≤ 13 := by
  obtain ⟨h1, h2, h3, -, -⟩ := (configError?_none_iff b8 nch).1 h
  rw [expOf_eq]
  cases f <;> simp only [expOfFlag] <;> omega

/-- `n/4 = M` (00_scope.md R17). -/
theorem two_pow_div_four {e : Nat} (h : 2 ≤ e) : 2 ^ e / 4 = Lut.fftSize e := by
  obtain ⟨k, rfl⟩ := Nat.exists_eq_add_of_le' h
  rw [Lut.fftSize, Nat.pow_add, Nat.add_sub_cancel]; omega

theorem slopeOf_eq (b8 : Byte) (pf cf : BlockFlag) :
    slopeOf b8 pf cf = Overlap.slope { P := 2 ^ expOf b8 pf, C := 2 ^ expOf b8 cf } := rfl

section Config
variable {b8 : Byte} {nch : Nat} (h : configError? b8 nch = none) (s : State)
include h

theorem configure_rotations (f : BlockFlag) {m : Nat} (hm : m < 2 ^ expOf b8 f / 4) :
    (configure b8 nch s P).mem.readWord (rotcAddr f m) = Lut.word (.rotc (expOf b8 f) m) P ∧
      (configure b8 nch s P).mem.readWord (rotsAddr f m) = Lut.word (.rots (expOf b8 f) m) P := by
  obtain ⟨-, h2, h3, -, -⟩ := (configError?_none_iff b8 nch).1 h
  obtain ⟨h6, h13⟩ := expOf_bounds h f
  have hM := Lut.fftSize_le h13
  rw [two_pow_div_four (by omega)] at hm
  rw [configure_mem, readWord_setupMemory_rotc (h2.trans h3) h3 f m (by omega), readWord_setupMemory_rots (h2.trans h3) h3 f m (by omega),
    ← expOf_eq, if_pos hm, if_pos hm]
  exact ⟨rfl, rfl⟩

theorem configure_twiddles (f : BlockFlag) {k : Nat} (hk : k < 2 ^ expOf b8 f / 4 / 2) :
    (configure b8 nch s P).mem.readWord (twcAddr f k) = Lut.word (.twc (expOf b8 f) k) P ∧
      (configure b8 nch s P).mem.readWord (twsAddr f k) = Lut.word (.tws (expOf b8 f) k) P := by
  obtain ⟨-, h2, h3, -, -⟩ := (configError?_none_iff b8 nch).1 h
  obtain ⟨h6, h13⟩ := expOf_bounds h f
  have hM := Lut.fftSize_le h13
  rw [two_pow_div_four (by omega)] at hk
  rw [configure_mem, readWord_setupMemory_twc (h2.trans h3) h3 f k (by omega), readWord_setupMemory_tws (h2.trans h3) h3 f k (by omega),
    ← expOf_eq, if_pos hk, if_pos hk]
  exact ⟨rfl, rfl⟩

theorem configure_windows (pf cf : BlockFlag) {k : Nat} (hk : k < slopeOf b8 pf cf) :
    (configure b8 nch s P).winWord pf cf k = Lut.word (.win (slopeOf b8 pf cf) k) P := by
  obtain ⟨-, h2, h3, -, -⟩ := (configError?_none_iff b8 nch).1 h
  have hL : slopeOf b8 pf cf ≤ 4096 := slope_le (expOf_bounds h pf).2
  rw [State.winWord, configure_mem, readWord_setupMemory_win (h2.trans h3) h3 pf cf k (by omega), ← expOf_eq, ← expOf_eq]
  exact if_pos hk

end Config

/-- A quarter of the way round, and at the start, the tables hold exact zeros (40_setup.md R140, R142). -/
theorem twiddle_zeros {e : Nat} (he : 4 ≤ e) (k : Nat) :
    (k = 0 → Lut.word (.tws e k) P = 0x00000000) ∧ (k = 2 ^ e / 4 / 4 → Lut.word (.twc e k) P = 0x00000000) := by
  refine ⟨fun h => Lut.word_of_isZero (by simp [Lut.Entry.isZero, h]), fun h => Lut.word_of_isZero ?_⟩
  obtain ⟨d, rfl⟩ := Nat.exists_eq_add_of_le' he
  have hM : Lut.fftSize (d + 4) = 4 * 2 ^ d := by rw [Lut.fftSize, show d + 4 - 2 = d + 2 by omega, Nat.pow_add]; omega
  rw [two_pow_div_four (by omega), hM] at h
  simp only [Lut.Entry.isZero, decide_eq_true_eq]
  omega

/-! ### `IMDCT` for given parameters -/

/-- Words in pairs, by their index. -/
theorem pairsOfWords_map (g : Nat → Word) (n : Nat) :
    pairsOfWords ((List.range (2 * n)).map g) =
      (List.range n).map fun i => ⟨F32.ofBits (g (2 * i)), F32.ofBits (g (2 * i + 1))⟩ := by
  induction n generalizing g with
  | zero => rfl
  | succ n ih =>
    rw [show 2 * (n + 1) = 2 * n + 1 + 1 by omega, List.range_succ_eq_map, List.range_succ_eq_map, List.range_succ_eq_map]
    simp only [List.map_cons, List.map_map, pairsOfWords]
    rw [show (g ∘ Nat.succ ∘ Nat.succ) = fun i => g (i + 2) from rfl, ih]
    rfl

/-- `bitrev_b` stays below 2^b (40_setup.md R143). -/
theorem bitrev_lt (b i : Nat) : Lut.bitrev b i < 2 ^ b := by
  induction b generalizing i with
  | zero => simp [Lut.bitrev]
  | succ b ih =>
    have h := ih (i / 2)
    have : i % 2 * 2 ^ b ≤ 1 * 2 ^ b := Nat.mul_le_mul_right _ (by omega)
    rw [Lut.bitrev, Nat.pow_succ]; omega

theorem bankAddr_bounds (f : BlockFlag) : 0x90000 ≤ bankAddr f ∧ bankAddr f + 0x8000 ≤ 0xA0000 := by cases f <;> decide

theorem expOfFlag_exponent (s : State) (f : BlockFlag) : expOfFlag (s.exponent .short) (s.exponent .long) f = s.exponent f := by
  cases f <;> rfl

section Built
variable {s : State} (hc : s.status.configured = true) (hl : s.ConfigLegal) (hb : s.LutBuilt P)
include hc hb

/-- A word of the LUT storage of a configured engine is what `CONFIG` wrote there (40_setup.md R134). -/
theorem readWord_of_lutBuilt {a : Nat} (h1 : 0x90000 ≤ a) (h2 : a + 4 ≤ 0xB0000) :
    s.mem.readWord a = (setupMemory (s.exponent .short) (s.exponent .long) P).readWord a :=
  Memory.readWord_congr fun i hi => hb hc _ (by omega) (by omega)

include hl

theorem rotations_of_lutBuilt (f : BlockFlag) {m : Nat} (hm : m < Lut.fftSize (s.exponent f)) :
    s.mem.readWord (rotcAddr f m) = Lut.word (.rotc (s.exponent f) m) P ∧
      s.mem.readWord (rotsAddr f m) = Lut.word (.rots (s.exponent f) m) P := by
  have hM := Lut.fftSize_le (exponent_bounds hl f).2
  have hT := bankAddr_bounds f
  have h0 := (exponent_bounds hl .short).2
  have h1 := (exponent_bounds hl .long).2
  rw [readWord_of_lutBuilt hc hb (by unfold rotcAddr; omega) (by unfold rotcAddr; omega),
    readWord_of_lutBuilt hc hb (by unfold rotsAddr; omega) (by unfold rotsAddr; omega),
    readWord_setupMemory_rotc h0 h1 f m (by omega), readWord_setupMemory_rots h0 h1 f m (by omega), expOfFlag_exponent]
  exact ⟨if_pos hm, if_pos hm⟩

theorem twiddles_of_lutBuilt (f : BlockFlag) {k : Nat} (hk : k < Lut.fftSize (s.exponent f) / 2) :
    s.mem.readWord (twcAddr f k) = Lut.word (.twc (s.exponent f) k) P ∧
      s.mem.readWord (twsAddr f k) = Lut.word (.tws (s.exponent f) k) P := by
  have hM := Lut.fftSize_le (exponent_bounds hl f).2
  have hT := bankAddr_bounds f
  have h0 := (exponent_bounds hl .short).2
  have h1 := (exponent_bounds hl .long).2
  rw [readWord_of_lutBuilt hc hb (by unfold twcAddr; omega) (by unfold twcAddr; omega),
    readWord_of_lutBuilt hc hb (by unfold twsAddr; omega) (by unfold twsAddr; omega),
    readWord_setupMemory_twc h0 h1 f k (by omega), readWord_setupMemory_tws h0 h1 f k (by omega), expOfFlag_exponent]
  exact ⟨if_pos hk, if_pos hk⟩

theorem bitrev_of_lutBuilt (f : BlockFlag) {i : Nat} (hi : i < Lut.fftSize (s.exponent f)) :
    (s.mem.readWord (brAddr f i)).toNat = Lut.bitrev (s.exponent f - 2) i := by
  have hM := Lut.fftSize_le (exponent_bounds hl f).2
  have hT := bankAddr_bounds f
  have hr : Lut.bitrev (s.exponent f - 2) i < Lut.fftSize (s.exponent f) := bitrev_lt _ _
  rw [readWord_of_lutBuilt hc hb (by unfold brAddr; omega) (by unfold brAddr; omega),
    readWord_setupMemory_br (exponent_bounds hl .short).2 (exponent_bounds hl .long).2 f i (by omega), expOfFlag_exponent, if_pos hi,
    BitVec.toNat_ofNat]
  exact Nat.mod_eq_of_lt (by omega)

/-- A transform on a configured engine reads the tables as `CONFIG` built them. -/
theorem bank_eq_builtBank (hm : s.mem.Wf) (f : BlockFlag) : s.bank f = builtBank (s.exponent f) P := by
  have h6 := (exponent_bounds hl f).1
  have hhalf : 2 ^ (s.exponent f - 2) = 2 * (2 ^ (s.exponent f - 2) / 2) := by
    rw [show s.exponent f - 2 = s.exponent f - 3 + 1 by omega, Nat.pow_succ]; omega
  have hrot : pairsOfWords (s.mem.readWords (bankAddr f) (2 * 2 ^ s.passCount f)) = (builtBank (s.exponent f) P).rot := by
    rw [Memory.readWords_eq_map_readWord hm, pairsOfWords_map]
    refine List.map_congr_left fun i hi => ?_
    obtain ⟨h1, h2⟩ := rotations_of_lutBuilt hc hl hb f (List.mem_range.1 hi)
    rw [← h1, ← h2, rotcAddr, rotsAddr]
    congr 3 <;> omega
  have htw : pairsOfWords (s.mem.readWords (bankAddr f + 0x4000) (2 ^ s.passCount f)) = (builtBank (s.exponent f) P).tw := by
    rw [State.passCount, hhalf, Memory.readWords_eq_map_readWord hm, pairsOfWords_map]
    refine List.map_congr_left fun k hk => ?_
    obtain ⟨h1, h2⟩ := twiddles_of_lutBuilt hc hl hb f (List.mem_range.1 hk)
    rw [← h1, ← h2, twcAddr, twsAddr]
    congr 3 <;> omega
  have hbr : (s.mem.readWords (bankAddr f + 0x6000) (2 ^ s.passCount f)).map BitVec.toNat = (builtBank (s.exponent f) P).br := by
    rw [Memory.readWords_eq_map_readWord hm, List.map_map]
    exact List.map_congr_left fun i hi => bitrev_of_lutBuilt hc hl hb f (List.mem_range.1 hi)
  rw [State.bank, hrot, htw, hbr]

end Built

/-- What a transform reads of `COEF`, by its index (41_imdct.md R177). -/
theorem spectrum_eq_map {s : State} (hm : s.mem.Wf) (ch : Nat) (f : BlockFlag) :
    s.spectrum ch f = ((List.range (2 ^ s.exponent f / 2)).map (s.coefWord ch)).map F32.ofBits := by
  rw [State.spectrum, Memory.readWords_eq_map_readWord hm]
  refine congrArg _ (List.map_congr_left fun k _ => ?_)
  rw [State.coefWord, show coefAddr ch k = coefAddr ch 0 + 4 * k by simp [coefAddr]; omega]

/-- Whatever word's datum the `IMDCT_IMPL` returns at an index is the word the engine stores there (41_imdct.md R162). -/
theorem blkWord_of_imdctImpl {s : State} {ch : Nat} {f : BlockFlag} {j : Nat} {w : Word} (hj : j < 2 ^ s.exponent f)
    (hw : (P.imdctImpl (s.exponent f) (s.bank f) (s.spectrum ch f))[j]? = some (F32.ofBits w)) :
    (transformChannel ch f s P).blkWord ch j = w := by
  have h := blkWord_transformChannel (P := P) (ch := ch) j hj
  rw [State.transformed, State.blockSize, fitBlock_getElem? _ _ _ _ hj hw, Option.map_some, F32.toBits_ofBits] at h
  exact Option.some.inj h

/-! ### `OLA` for given parameters -/

/-- An element of a table of data read from memory. -/
theorem getD_readWords {m : Memory} (hm : m.Wf) {lo n i : Nat} (hi : i < n) :
    ((m.readWords lo n).map F32.ofBits).toArray.getD i F32.zero = F32.ofBits (m.readWord (lo + 4 * i)) := by
  simp [Memory.readWords_eq_map_readWord hm, hi]

/-- The indices of an overlap stay inside the half blocks and the slope they index (42_window_ola.md R193). -/
theorem overlap_indices (o : Overlap) {t : Nat} :
    (t < o.past → t < o.P / 2) ∧ (o.first ≤ t → t < o.past → t - o.first < o.slope) ∧
      (o.first ≤ t → t < o.count → o.current t < o.C / 2) := by
  simp only [Overlap.past, Overlap.first, Overlap.slope, Overlap.current, Overlap.count]
  omega

/-- R194's sample in the terms of the machine's overlap. -/
theorem overlapSample_eq (s : State) (pf cf : BlockFlag) (c t : Nat) :
    overlapSample s pf cf c t =
      let o := s.overlap pf cf
      let prev := F32.ofBits (s.prevWord c t)
      let cur := F32.ofBits (s.blkWord c (o.current t))
      let win := fun k => F32.ofBits (s.winWord pf cf k)
      if t < o.first then prev
      else if t < o.past then (prev.mul (win (o.slope - 1 - (t - o.first)))).add (cur.mul (win (t - o.first)))
      else cur := rfl

/-- The machine's sample is the one that R194 names by its words. -/
theorem olaSample_eq_overlapSample {s : State} (hm : s.mem.Wf) (pf cf : BlockFlag) (c : Nat) {t : Nat}
    (ht : t < (s.overlap pf cf).count) :
    olaSample (s.overlap pf cf) (s.slopeTable pf cf) (s.rows (s.overlap pf cf) c) t = overlapSample s pf cf c t := by
  obtain ⟨hprev, hslope, hcur⟩ := overlap_indices (s.overlap pf cf) (t := t)
  have hp (h : t < (s.overlap pf cf).past) :
      (s.rows (s.overlap pf cf) c).prev.getD t F32.zero = F32.ofBits (s.prevWord c t) := by
    rw [State.rows, getD_readWords hm (hprev h), State.prevWord]
    congr 2; simp [prevAddr]; omega
  have hb (h : (s.overlap pf cf).first ≤ t) :
      (s.rows (s.overlap pf cf) c).blk.getD ((s.overlap pf cf).current t) F32.zero =
        F32.ofBits (s.blkWord c ((s.overlap pf cf).current t)) := by
    rw [State.rows, getD_readWords hm (hcur h ht), State.blkWord]
    congr 2; simp [blkAddr]; omega
  have hw (k : Nat) (h : k < (s.overlap pf cf).slope) :
      (s.slopeTable pf cf).getD k F32.zero = F32.ofBits (s.winWord pf cf k) := by
    rw [State.slopeTable, getD_readWords hm h]; rfl
  rw [overlapSample_eq, olaSample]
  dsimp only
  split_ifs with h1 h2
  · exact hp (h1.trans_le (by simp only [Overlap.first, Overlap.past]; omega))
  · have hk := hslope (not_lt.1 h1) h2
    rw [hp h2, hb (not_lt.1 h1), hw _ hk, hw _ (by omega)]
  · exact hb (not_lt.1 h1)

/-! ### Bus errors for given parameters -/

theorem busError?_of_not_legalAccess {off : Offset} {width : Nat} (h : ¬ LegalAccess off width) :
    ∃ r, busError? off width = some r := by
  refine Option.ne_none_iff_exists'.1 fun hn => h ?_
  obtain ⟨h4, ha, hr⟩ := busError?_none.1 hn
  exact ⟨h4, ha, not_not.1 (mt (regionOf_unmapped_iff off).2 hr)⟩

/-- An access that takes a bus error is answered by `BUS_ERROR_EFFECT` (20_memory.md R74). -/
theorem stepWith_busError {s : State} {e : HostEvent} {rest : List HostEvent} {off : Offset} {width : Nat} {r : Fault}
    (he : e = .read off width ∨ ∃ v, e = .write off width v) (hr : busError? off width = some r) :
    stepWith P { s with pending := e :: rest } = busErrorOutcome r { s with pending := rest } P.busErrorEffect := by
  rw [stepWith_cons P _ e rest rfl]
  obtain rfl | ⟨v, rfl⟩ := he <;> simp [perform, hr]

/-! ### The statement's clauses -/

theorem imdct_meets_tolerance (hP : MeetsTolerance P) {s : State} {ch : Nat} {f : BlockFlag} (hc : s.status.configured = true)
    (hl : s.ConfigLegal) (hm : s.mem.Wf) (hb : s.LutBuilt P)
    (hfin : ∀ k, k < 2 ^ s.exponent f / 2 → IsFinite (F32.ofBits (s.coefWord ch k))) {j : Nat} (hj : j < 2 ^ s.exponent f) :
    let X := (List.range (2 ^ s.exponent f / 2)).map (s.coefWord ch)
    Within (F32.ofBits ((transformChannel ch f s P).blkWord ch j)) (exactBlock (2 ^ s.exponent f) X j)
      (P.imdctTol (2 ^ s.exponent f) X) := by
  intro X
  obtain ⟨h6, h13⟩ := exponent_bounds hl f
  have hX : ∀ w ∈ X, IsFinite (F32.ofBits w) := fun w hw => by
    obtain ⟨k, hk, rfl⟩ := List.mem_map.1 hw
    exact hfin k (List.mem_range.1 hk)
  obtain ⟨w, hw, hin⟩ := hP _ h6 h13 X (by simp [X]) hX j hj
  rw [← bank_eq_builtBank hc hl hb hm, ← spectrum_eq_map hm] at hw
  rwa [blkWord_of_imdctImpl hj hw]

/-- Settles O59: the default is definitional, and each parameter's clause is the lemma about the operation that reads it. -/
theorem parametersAreArguments : Obligations.ParametersAreArguments := by
  refine ⟨fun i s => congrFun (congrFun exec_eq_execWith i) s, fun s => congrFun step_eq_stepWith s, ?_, ?_, ?_, ?_⟩
  · intro P b8 nch s hfirst
    have h := (firstError_config b8 nch s).symm.trans hfirst
    refine ⟨_, execConfig_ok h s, fun f m hm => configure_rotations h s f hm, fun f k hk => ?_,
      fun pf cf k hk => configure_windows h s pf cf hk⟩
    obtain ⟨hc, hs⟩ := configure_twiddles (P := P) h s f hk
    have h6 := (expOf_bounds h f).1
    exact ⟨hc, hs, twiddle_zeros (by omega) k⟩
  · intro P hP s ch f hc hl hm hb hch hseq hfin
    exact ⟨_, execImdct_ok ((imdctError?_none_iff ch f s).2 ⟨hc, hch, hseq⟩),
      fun j hj => imdct_meets_tolerance hP hc hl hm hb hfin hj⟩
  · intro P s hdone hl hm hv
    refine ⟨_, execOla_ok ((olaError?_none_iff s).2 hdone), fun t c ht hc => ?_⟩
    rw [← olaSample_eq_overlapSample hm _ _ _ ht]
    exact (olaCore_mem hl hm).2.2 hv t c ht hc
  · intro P s e rest off width he hbad
    obtain ⟨r, hr⟩ := busError?_of_not_legalAccess hbad
    rw [stepWith_busError he hr]
    exact ⟨r, fun h => by simp [busErrorOutcome, h], fun rest' h => by simp [busErrorOutcome, h]⟩

end Sys2Proof.Machine
end

section
/-!
PROOFS. What each command writes, said once (10_state.md R38, R49 to R54): the bytes of the aperture, the configuration and the host's lists.
-/

namespace Sys2Proof.Machine

variable {P : Params} {i : Instr} {s t : State}

/-- The offsets whose bytes a command may change on an engine with legal sizes (R49 to R54). -/
def Writes : Instr → Nat → Prop
  | .config _ _, _ => True
  | .zeroCoef _, a | .zeroAll, a => 0x10000 ≤ a ∧ a < 0x30000
  | .imdct _ _, a => 0x40000 ≤ a ∧ a < 0x80000
  | .ola, a => (0x80000 ≤ a ∧ a < 0x90000) ∨ (0xC0000 ≤ a ∧ a < 0xE0000)
  | .block _, a => (0x40000 ≤ a ∧ a < 0x90000) ∨ (0xC0000 ≤ a ∧ a < 0xE0000)
  | .nop, _ | .restart, _ | .softReset, _ => False

theorem transformAll_configLegal (hl : s.ConfigLegal) (f : BlockFlag) : (transformAll f s P).ConfigLegal :=
  configLegal_congr (transformAll_configRb f s).symm hl

/-- A command changes no byte outside its windows. -/
theorem execWith_frame (hl : s.status.configured = true → s.ConfigLegal) (h : execWith P i s = .next t) {a : Nat} (ha : ¬ Writes i a) :
    t.mem.readByte a = s.mem.readByte a := by
  obtain ⟨code, -, rfl⟩ | ⟨rfl, rfl⟩ | ⟨b8, nch, rfl, -, rfl⟩ | ⟨ch, rfl, he, rfl⟩ | ⟨rfl, -, rfl⟩ | ⟨ch, f, rfl, he, rfl⟩ | ⟨rfl, he, rfl⟩ |
    ⟨f, rfl, hc, rfl⟩ | ⟨rfl, -, rfl⟩ | ⟨rfl, rfl⟩ := execWith_cases h
  · rfl
  · rfl
  · exact absurd trivial ha
  · obtain ⟨hc, hch⟩ := (zeroCoefError?_none_iff ch s).1 he
    have h8 := (hl hc).2.2.2.2
    rw [clearCoef_mem, Memory.readByte_clearBytes]
    refine if_neg fun h => ha ?_
    simp only [Writes, coefAddr, Config.coefDepth] at *
    omega
  · rw [clearAllCoef_mem, Memory.readByte_clearBytes]
    exact if_neg ha
  · obtain ⟨hc, hch, -⟩ := (imdctError?_none_iff ch f s).1 he
    have h8 := (hl hc).2.2.2.2
    have hn := Nat.pow_le_pow_right (n := 2) (by omega) (exponent_bounds (hl hc) f).2
    refine readByte_transformChannel_outside a ?_
    simp only [Writes, blkAddr, Config.blkDepth] at *
    omega
  · obtain ⟨hc, -⟩ := (olaError?_none_iff s).1 he
    simp only [Writes] at ha
    exact olaCore_windows (hl hc) a (by omega)
  · simp only [Writes] at ha
    rw [olaCore_windows (transformAll_configLegal (hl hc) f) a (by omega), transformAll_windows (hl hc) f a (by omega)]
  · rfl
  · rfl

/-- Only `CONFIG` and `SOFT_RESET` write `CONFIGURED` and `CONFIG_RB` (R38, R43). -/
theorem execWith_configuration (h : execWith P i s = .next t) :
    (i = .softReset ∧ t = resetRegisters s) ∨ (∃ b8 nch, i = .config b8 nch ∧ configError? b8 nch = none ∧ t = configure b8 nch s P) ∨
      (t.status.configured = s.status.configured ∧ t.configRb = s.configRb) := by
  obtain ⟨code, -, rfl⟩ | ⟨-, rfl⟩ | hconfig | ⟨ch, -, -, rfl⟩ | ⟨-, -, rfl⟩ | ⟨ch, f, -, -, rfl⟩ | ⟨-, -, rfl⟩ |
    ⟨f, -, -, rfl⟩ | ⟨-, -, rfl⟩ | hreset := execWith_cases h
  case inr.inr.inl => exact .inr (.inl hconfig)
  case inr.inr.inr.inr.inr.inr.inr.inr.inr => exact .inl hreset
  all_goals exact .inr (.inr ⟨by simp, by simp⟩)

/-- A command changes neither what the host has still to do nor what it has been told (20_memory.md R84; log 1, 2). -/
theorem execWith_host (h : execWith P i s = .next t) : t.pending = s.pending ∧ t.reads = s.reads := by
  obtain ⟨code, -, rfl⟩ | ⟨-, rfl⟩ | ⟨b8, nch, -, -, rfl⟩ | ⟨ch, -, -, rfl⟩ | ⟨-, -, rfl⟩ | ⟨ch, f, -, -, rfl⟩ | ⟨-, -, rfl⟩ |
    ⟨f, -, -, rfl⟩ | ⟨-, -, rfl⟩ | ⟨-, rfl⟩ := execWith_cases h
  all_goals exact ⟨by simp, by simp⟩

end Sys2Proof.Machine
end

section
/-!
PROOFS. What a command word does (30_encoding.md R107, R110): the decoder and the check order of R253 are the machine's, and the record of
errors and the host's reads follow from them.
-/

namespace Sys2Proof.Machine

open Sys2Proof.Reference

variable {P : Params} {i : Instr} {s t : State}

/-! ### The decoder is the table's -/

theorem toNat_opField (w : Word) : (opField w).toNat = w.toNat % 256 := by simp [opField]

theorem extractLsb'_eq_zero_iff (w : Word) (start len : Nat) :
    w.extractLsb' start len = 0 ↔ w.toNat / 2 ^ start % 2 ^ len = 0 := by
  rw [← BitVec.toNat_inj, BitVec.extractLsb'_toNat, Nat.shiftRight_eq_div_pow]
  simp

theorem flagOfBit_getLsbD (w : Word) : flagOfBit (w.getLsbD 20) = BlockFlag.ofBit (flagField w) := by
  have h : flagField w = BitVec.ofBool (w.getLsbD 20) := by
    ext k hk
    obtain rfl : k = 0 := by omega
    simp [flagField]
  rw [h]
  cases w.getLsbD 20 <;> rfl

theorem toOption_guardReserved (w : Word) {zero : Bool} {q : Prop} [Decidable q] (h : zero = true ↔ q) :
    (guardReserved w zero i).toOption = if q then some i else none := by
  by_cases hq : q <;> simp [guardReserved, h, hq, Except.toOption]

/-- R107: a word decodes to the command that the table gives it. -/
theorem toOption_decode (w : Word) : (decode w).toOption = tableDecode w := by
  have hw := w.isLt
  have hop := toNat_opField w
  have h4 : w.toNat / 2 ^ 16 % 16 = (arg4Field w).toNat := by simp [arg4Field, Nat.shiftRight_eq_div_pow]
  have h8 : BitVec.ofNat 8 (w.toNat / 2 ^ 8 % 256) = arg8Field w := by
    apply BitVec.eq_of_toNat_eq; simp [arg8Field, Nat.shiftRight_eq_div_pow]
  simp only [decode, tableDecode, ← hop, h4, h8, flagOfBit_getLsbD]
  split
  case h_10 =>
    iterate 9 rw [if_neg (by assumption)]
    rfl
  all_goals
    rename_i hcase
    simp only [hcase, Nat.reduceEqDiff, OfNat.ofNat_ne_zero, OfNat.ofNat_ne_one, one_ne_zero, reduceIte]
    refine toOption_guardReserved w ?_
    simp only [decide_eq_true_eq, rsvField, flagField, arg4Field, arg8Field, extractLsb'_eq_zero_iff, ← BitVec.toNat_inj (x := w),
      BitVec.reduceToNat]
    omega

/-! ### The check order of R253 is the machine's -/

theorem firstError_zeroCoef (ch : Nat) (s : State) : firstError (.zeroCoef ch) s = zeroCoefError? ch s := by
  simp [firstError, zeroCoefError?]

theorem firstError_imdct (ch : Nat) (f : BlockFlag) (s : State) : firstError (.imdct ch f) s = imdctError? ch f s := by
  simp [firstError, imdctError?]

theorem firstError_ola (s : State) : firstError .ola s = olaError? s := by
  simp only [firstError, olaError?, State.allChannels, Bool.not_eq_true]
  rfl

theorem firstError_eq_notConfigured (hi : i = .zeroAll ∨ i = .restart ∨ ∃ f, i = .block f) (s : State) :
    firstError i s = if s.status.configured = false then some .notConfigured else none := by
  obtain rfl | rfl | ⟨f, rfl⟩ := hi <;> rfl

/-- A command whose checks fail raises the first one's error (R253). -/
theorem execWith_error {code : ErrCode} (h : firstError i s = some code) : execWith P i s = .next (raiseError code (encode i) s) := by
  have hconf (hi : i = .zeroAll ∨ i = .restart ∨ ∃ f, i = .block f) : s.status.configured = false ∧ code = .notConfigured := by
    rw [firstError_eq_notConfigured hi] at h
    cases hc : s.status.configured <;> simp_all
  cases i with
  | nop | softReset => cases h
  | config b8 nch => exact execConfig_error ((firstError_config b8 nch s).symm.trans h) s
  | zeroCoef ch => exact execZeroCoef_error ((firstError_zeroCoef ch s).symm.trans h)
  | imdct ch f => exact execImdct_error ((firstError_imdct ch f s).symm.trans h)
  | ola => exact execOla_error ((firstError_ola s).symm.trans h)
  | zeroAll => obtain ⟨hc, rfl⟩ := hconf (by simp); exact execZeroAll_error hc
  | restart => obtain ⟨hc, rfl⟩ := hconf (by simp); exact execRestart_error hc
  | block f => obtain ⟨hc, rfl⟩ := hconf (by simp); exact execBlock_error hc

/-- A command whose checks pass records no error (R42, R47), but for `SOFT_RESET`, which clears the record. -/
theorem execWith_ok (h : firstError i s = none) (hi : i ≠ .softReset) (hx : execWith P i s = .next t) :
    t.status.failed = s.status.failed ∧ t.status.err = s.status.err ∧ t.errCmd = s.errCmd := by
  have hconf (hi : i = .zeroAll ∨ i = .restart ∨ ∃ f, i = .block f) : s.status.configured = true := by
    rw [firstError_eq_notConfigured hi] at h
    cases hc : s.status.configured <;> simp_all
  cases i with
  | nop => cases hx; exact ⟨rfl, rfl, rfl⟩
  | softReset => exact absurd rfl hi
  | config b8 nch => cases (execConfig_ok ((firstError_config b8 nch s).symm.trans h) s).symm.trans hx; exact ⟨rfl, rfl, rfl⟩
  | zeroCoef ch => cases (execZeroCoef_ok ((firstError_zeroCoef ch s).symm.trans h)).symm.trans hx; exact ⟨rfl, rfl, rfl⟩
  | imdct ch f => cases (execImdct_ok ((firstError_imdct ch f s).symm.trans h)).symm.trans hx; exact ⟨rfl, rfl, rfl⟩
  | ola => cases (execOla_ok ((firstError_ola s).symm.trans h)).symm.trans hx; simp
  | zeroAll => cases (execZeroAll_ok (hconf (by simp))).symm.trans hx; exact ⟨rfl, rfl, rfl⟩
  | restart => cases (execRestart_ok (hconf (by simp))).symm.trans hx; exact ⟨rfl, rfl, rfl⟩
  | block f => cases (execBlock_ok (hconf (by simp))).symm.trans hx; simp

/-- While the engine is not configured the data commands raise `NOT_CONFIGURED` (R38). -/
theorem firstError_unconfigured (hc : s.status.configured = false) (h1 : i ≠ .nop) (h2 : i ≠ .softReset)
    (h3 : ∀ b8 nch, i ≠ .config b8 nch) : firstError i s = some .notConfigured := by
  cases i with
  | nop => exact absurd rfl h1
  | softReset => exact absurd rfl h2
  | config b8 nch => exact absurd rfl (h3 b8 nch)
  | _ => exact if_pos hc

/-! ### A command word -/

/-- A word that an engine which has not failed is given executes, and completes (R37, R110). -/
theorem step_command (w : Word) (polls : Nat) (rest : List HostEvent) (hf : s.status.failed = false) :
    ∃ t, execWord w ({ s with pending := rest }.accept.pollStatus polls) = .next t ∧
      step { s with pending := .command w polls :: rest } = .next t.complete := by
  have hacc : ({ s with pending := rest } : State).accepts w = true := by simp [State.accepts, hf]
  obtain ⟨-, h⟩ | ⟨hno, -⟩ := issue_cases w polls { s with pending := rest }
  · exact h
  · exact absurd (hacc.symm.trans hno) (by decide)

/-- What a write of `CMD` leaves: nothing but the reads of an ignored word, or what the word's execution does (R254). -/
theorem issue_eq_next {w : Word} {polls : Nat} (h : issue w polls s = .next t) :
    t = s.pollStatus polls ∨ ∃ t', execWord w (s.accept.pollStatus polls) = .next t' ∧ t = t'.complete := by
  obtain ⟨-, t', ht', h'⟩ | ⟨-, h'⟩ := issue_cases w polls s
  · cases h'.symm.trans h
    exact .inr ⟨t', ht', rfl⟩
  · cases h'.symm.trans h
    exact .inl rfl

/-- An executed word is the command that the table gives it, or raises `ILLEGAL_CMD` (R107). -/
theorem execWord_cases {w : Word} (h : execWord w s = .next t) :
    (tableDecode w = none ∧ t = raiseError .illegalCmd w s) ∨ ∃ i, tableDecode w = some i ∧ execWith .default i s = .next t := by
  unfold execWord at h
  rw [← toOption_decode]
  split at h
  · rename_i i hi
    exact .inr ⟨i, by rw [hi]; rfl, exec_eq_execWith ▸ h⟩
  · rename_i e he
    cases h
    exact .inl ⟨by rw [he]; rfl, rfl⟩

theorem execWord_host {w : Word} (h : execWord w s = .next t) : t.pending = s.pending ∧ t.reads = s.reads := by
  obtain ⟨-, rfl⟩ | ⟨i, -, h⟩ := execWord_cases h
  · exact ⟨rfl, rfl⟩
  · exact execWith_host h

/-- The one word of `SOFT_RESET` (R254). -/
theorem tableDecode_softReset {w : Word} (h : tableDecode w = some .softReset) : w = 0x0000000F := by
  unfold tableDecode at h
  iterate 8
    obtain ⟨-, h⟩ | ⟨-, h⟩ := ite_eq_iff.1 h
    · cases (Option.ite_none_right_eq_some.1 h).2
  obtain ⟨-, h⟩ | ⟨-, h⟩ := ite_eq_iff.1 h
  · exact (Option.ite_none_right_eq_some.1 h).1
  · cases h

/-- What a word leaves of the error record, by the check order of R253. -/
theorem execWord_record {w : Word} (h : execWord w s = .next t) (hf : s.status.failed = false) (he : s.status.err = .none) :
    (t.status.failed = true ↔ wordError w s ≠ none) ∧ (wordError w s = none → t.status.err = .none) ∧
      (wordError w s = none → w ≠ 0x0000000F → t.errCmd = s.errCmd) := by
  obtain ⟨hd, rfl⟩ | ⟨i, hd, h⟩ := execWord_cases h
  · simp [wordError, hd]
  · have hw : wordError w s = firstError i s := by simp [wordError, hd]
    rw [hw]
    cases hi : firstError i s with
    | some code =>
      cases (execWith_error hi).symm.trans h
      simp
    | none =>
      by_cases hr : i = .softReset
      · subst hr
        cases h
        exact ⟨by simp [Status.reset], fun _ => rfl, fun _ hne => absurd (tableDecode_softReset hd) hne⟩
      · obtain ⟨h1, h2, h3⟩ := execWith_ok hi hr h
        exact ⟨by simp [h1, hf], fun _ => h2.trans he, fun _ _ => h3⟩

/-- Settles O11: a command word runs as `execWord`, from a state that differs in `BUSY` and the reads alone. -/
theorem failedExactlyOnError : Obligations.FailedExactlyOnError := by
  intro s w polls rest hf he
  obtain ⟨t, ht, hstep⟩ := step_command w polls rest hf
  have hw : wordError w ({ s with pending := rest }.accept.pollStatus polls) = wordError w s := by
    unfold wordError
    cases tableDecode w with
    | none => rfl
    | some i => cases i <;> rfl
  have hrec := execWord_record ht hf he
  rw [hw] at hrec
  exact ⟨_, hstep, hrec⟩

/-! ### `BUSY` during a command -/

theorem append_ofBool_true (x : BitVec 31) (b : Bool) : x ++ BitVec.ofBool true = (x ++ BitVec.ofBool b : BitVec 32) ||| 1 := by
  apply BitVec.eq_of_getLsbD_eq
  intro k _
  rw [BitVec.getLsbD_or, BitVec.getLsbD_append, BitVec.getLsbD_append]
  cases k <;> simp

/-- `STATUS` with `BUSY` set is `STATUS` with bit 0 set (R36, R37). -/
theorem Status.word_busy (st : Status) : { st with busy := true : Status }.word = st.word ||| 1 := append_ofBool_true _ _

/-- Settles O8: the reads placed during the command see the accepted state, and a command adds none. -/
theorem pollsSeeBusy : Obligations.PollsSeeBusy := by
  intro s w polls rest hf
  obtain ⟨t, ht, hstep⟩ := step_command w polls rest hf
  obtain ⟨hpending, hreads⟩ := execWord_host ht
  refine ⟨_, hstep, ?_, rfl, hpending⟩
  rw [← Status.word_busy]
  exact hreads

/-! ### `CONFIGURED` -/

/-- Settles O14: `execWith_configuration` for the commands, `perform_cases` for the host's other events. -/
theorem configuredWrittenBy : Obligations.ConfiguredWrittenBy := by
  rw [Obligations.ConfiguredWrittenBy, exec_eq_execWith]
  refine ⟨fun s t b8 nch hx h => ?_, fun s t hx => ?_, fun s t rest hx => ?_, fun i s t hx hr hc => ?_, fun s t e rest hx he hcmd hw => ?_,
    fun s i hu h1 h2 h3 => ⟨encode i, execWith_error (firstError_unconfigured hu h1 h2 h3)⟩⟩
  · rw [execConfig_ok ((firstError_config b8 nch s).symm.trans h)] at hx
    cases hx
    rfl
  · cases hx
    rfl
  · cases hx
    rfl
  · obtain ⟨hi, -⟩ | ⟨b8, nch, rfl, hok, -⟩ | ⟨h, -⟩ := execWith_configuration hx
    · exact absurd hi hr
    · exact absurd ((firstError_config b8 nch s).trans hok) (hc b8 nch rfl)
    · exact h
  · rw [step_cons _ e rest rfl] at hx
    obtain ⟨off, -, -, rfl⟩ | ⟨off, v, -, -, -, rfl⟩ | ⟨w, polls, hissue | ⟨hissue, -⟩, -⟩ | ⟨hreset, -⟩ := perform_cases hx
    · rfl
    · unfold State.writeAperture
      split <;> rfl
    · exact absurd hissue (hcmd w polls)
    · exact absurd hissue (hw w)
    · exact absurd hreset he

end Sys2Proof.Machine
end

section
/-!
PROOFS. The invariants of R58, with those of R37, R43 and R47, and of a platform (20_memory.md R91): right after reset, and kept by every step.
A command runs with `BUSY` set (R37), so what it keeps are the invariants of the state that it leaves when it completes.
-/

namespace Sys2Proof.Machine

variable {P : Params} {s t : State}

/-! ### Shapes of states that meet the invariants -/

/-- `OUT_COUNT · NCH` fits `OUT_TOTAL` (R45) up to the whole of `PCM`. -/
theorem State.outTotal_toNat (h : s.outCount.toNat * s.nch ≤ 4096 * 8) : s.outTotal.toNat = s.outCount.toNat * s.nch := by
  rw [State.outTotal, BitVec.toNat_ofNat]
  exact Nat.mod_eq_of_lt (by omega)

/-- A state without a retained block, a packet or samples. -/
theorem State.inv_of_forgotten (hm : s.mem.Wf) (hb : s.status.busy = false) (hl : s.status.configured = true → s.ConfigLegal)
    (hz : s.status.configured = true → s.mem.fill = .zero) (hr : s.status.configured = false → s.configRb = ConfigRb.reset)
    (hst : s.status = s.status.forget) (hc : s.outCount = 0) (hf : s.status.failed = false ↔ s.status.err = .none)
    (he : s.status.failed = false → s.errCmd = 0) : s.Inv where
  memWf := hm
  idle := hb
  legal := hl
  specified := hz
  unconfigured h := by rw [hst]; exact ⟨rfl, rfl, rfl, hr h, hc⟩
  doneConfigured c h := by rw [hst] at h; simp at h
  noPacket _ := by rw [hst]; rfl
  failedIffErr := hf
  outTotal := State.outTotal_toNat (by simp [hc])
  outCount := .inl (by simp [hc])
  noRetained _ := by rw [hst]; rfl
  errCmd := he

/-- A state with every register at its reset value (R57). -/
theorem State.inv_of_reset (hm : s.mem.Wf) (hst : s.status = Status.reset) (hr : s.configRb = ConfigRb.reset) (hc : s.outCount = 0)
    (he : s.errCmd = 0) : s.Inv :=
  State.inv_of_forgotten hm (by rw [hst]; rfl) (by rw [hst]; nofun) (by rw [hst]; nofun) (fun _ => hr) (by rw [hst]; rfl) hc
    (by rw [hst]; exact ⟨fun _ => rfl, fun _ => rfl⟩) fun _ => he

/-- The invariants are of the registers and the memory alone, and of the memory they ask only this. -/
theorem State.Inv.congr (h : s.Inv) (hst : t.status = s.status) (hr : t.configRb = s.configRb) (hc : t.outCount = s.outCount)
    (he : t.errCmd = s.errCmd) (hm : t.mem.Wf) (hf : t.mem.fill = s.mem.fill) : t.Inv := by
  cases s
  cases t
  cases hst
  cases hr
  cases hc
  cases he
  exact ⟨hm, h.idle, h.legal, fun hc => hf.trans (h.specified hc), h.unconfigured, h.doneConfigured, h.noPacket, h.failedIffErr, h.outTotal,
    h.outCount, h.noRetained, h.errCmd⟩

/-! ### Commands -/

section Command
variable (h : s.complete.Inv)
include h

/-- R252: an error records itself and changes nothing else. -/
theorem raiseError_inv {code : ErrCode} (hcode : code ≠ .none) (w : Word) : (raiseError code w s).complete.Inv where
  memWf := h.memWf
  idle := rfl
  legal := h.legal
  specified := h.specified
  unconfigured := h.unconfigured
  doneConfigured := h.doneConfigured
  noPacket := h.noPacket
  failedIffErr := ⟨nofun, fun e => absurd e hcode⟩
  outTotal := h.outTotal
  outCount := h.outCount
  noRetained := h.noRetained
  errCmd := nofun

/-- R221, R222: a change of `COEF` alone. -/
theorem clearBytes_inv {lo len : Nat} (hb : lo + len ≤ Config.apertureBytes) :
    { s with mem := s.mem.clearBytes lo len : State }.complete.Inv :=
  h.congr rfl rfl rfl rfl (Memory.wf_clearBytes h.memWf hb) (Memory.fill_clearBytes ..)

/-- R162, R41: the channel that is marked done is a configured one, and `XF_DONE` is not 0. -/
theorem transformChannel_inv {ch : Nat} {f : BlockFlag} (he : imdctError? ch f s = none) :
    { transformChannel ch f s P with status := s.status.markTransformed ch f : State }.complete.Inv := by
  obtain ⟨hc, hch, -⟩ := (imdctError?_none_iff ch f s).1 he
  have hl : s.ConfigLegal := h.legal hc
  have h8 : ch < 8 := hch.trans_le hl.2.2.2.2
  have hbit := Status.getLsbD_markTransformed s.status ch f
  exact
    { memWf := wf_transformChannel (exponent_bounds hl f).2 h8 h.memWf
      idle := rfl
      legal := h.legal
      specified := h.specified
      unconfigured := fun hu => absurd (hc.symm.trans hu) (by decide)
      doneConfigured := fun c hd => by
        obtain hd | hd := Bool.or_eq_true_iff.1 ((hbit c).symm.trans hd)
        · exact h.doneConfigured c hd
        · exact (of_decide_eq_true hd).2 ▸ hch
      noPacket := fun h0 => by
        have := hbit ch
        rw [show (s.status.markTransformed ch f).xfDone = 0 from h0] at this
        simp [h8] at this
      failedIffErr := h.failedIffErr
      outTotal := h.outTotal
      outCount := h.outCount
      noRetained := h.noRetained
      errCmd := h.errCmd }

variable (hc : s.status.configured = true)
include hc

/-- R200: all configured channels are marked done, and there is at least one. -/
theorem transformAll_inv (f : BlockFlag) : (transformAll f s P).complete.Inv := by
  have hl : s.ConfigLegal := h.legal hc
  have hbit : ∀ c, (s.status.markAll s.allChannels f).xfDone.getLsbD c = decide (c < 8 ∧ c < s.nch) :=
    Status.getLsbD_markAll s.status s.nch f
  have hm : (transformAll f s P).mem.Wf := by
    rw [transformAll_mem]
    exact (transformFirst_spec (exponent_bounds hl f).2 h.memWf s.nch hl.2.2.2.2).1
  have hf : (transformAll f s P).mem.fill = .zero := (transformAll_fill f s).trans (h.specified hc)
  rw [transformAll_eq] at hm hf ⊢
  exact
    { memWf := hm
      idle := rfl
      legal := h.legal
      specified := fun _ => hf
      unconfigured := fun hu => absurd (hc.symm.trans hu) (by decide)
      doneConfigured := fun c hd => (of_decide_eq_true ((hbit c).symm.trans hd)).2
      noPacket := fun h0 => by
        have h1 : 0 < s.nch := hl.2.2.2.1
        have := hbit 0
        rw [show (s.status.markAll s.allChannels f).xfDone = 0 from h0] at this
        simp [h1] at this
      failedIffErr := h.failedIffErr
      outTotal := h.outTotal
      outCount := h.outCount
      noRetained := h.noRetained
      errCmd := h.errCmd }

/-- R190, R197: the count is that of the overlap of two blocks, and the packet ends. -/
theorem olaCore_inv : (olaCore s P).complete.Inv := by
  have hl : s.ConfigLegal := h.legal hc
  have hcount := olaCore_outCount_toNat (P := P) hl
  have hrb : s.configRb = (olaCore s P).complete.configRb := (olaCore_configRb s).symm
  exact
    { memWf := (olaCore_mem hl h.memWf).1
      idle := rfl
      legal := fun _ => configLegal_congr hrb hl
      specified := fun _ => (olaCore_fill s).trans (h.specified hc)
      unconfigured := by simp [hc]
      doneConfigured := by simp
      noPacket := by simp
      failedIffErr := by simpa using h.failedIffErr
      outTotal := State.outTotal_toNat (by rw [← State.nch_congr hrb]; exact olaCore_samples_le hl)
      outCount := by
        simp only [← State.blockSize_congr hrb]
        rw [State.complete_outCount, hcount]
        split
        · exact .inr ⟨_, _, rfl⟩
        · exact .inl rfl
      noRetained := by simp
      errCmd := by simpa using h.errCmd }

/-- R223. -/
theorem forget_inv : { s with status := s.status.forget, outCount := 0 : State }.complete.Inv :=
  State.inv_of_forgotten h.memWf rfl h.legal h.specified (fun hu => absurd (hc.symm.trans hu) (by decide)) rfl rfl h.failedIffErr h.errCmd

omit hc

/-- R130 to R133: legal sizes, cleared RAMs and no packet. -/
theorem configure_inv {b8 : Byte} {nch : Nat} (he : configError? b8 nch = none) : (configure b8 nch s P).complete.Inv := by
  obtain ⟨-, h01, h1, -, -⟩ := (configError?_none_iff b8 nch).1 he
  exact State.inv_of_forgotten (wf_setupMemory (h01.trans h1) h1) rfl (fun _ => configure_legal (P := P) he s) (fun _ => rfl) nofun rfl rfl
    h.failedIffErr h.errCmd

/-- Every command keeps the invariants. -/
theorem execWith_inv {i : Instr} (hx : execWith P i s = .next t) : t.complete.Inv := by
  obtain ⟨code, hne, rfl⟩ | ⟨-, rfl⟩ | ⟨b8, nch, -, he, rfl⟩ | ⟨ch, -, he, rfl⟩ | ⟨-, hc, rfl⟩ | ⟨ch, f, -, he, rfl⟩ | ⟨-, he, rfl⟩ |
    ⟨f, -, hc, rfl⟩ | ⟨-, hc, rfl⟩ | ⟨-, rfl⟩ := execWith_cases hx
  · exact raiseError_inv h hne _
  · exact h
  · exact configure_inv h he
  · obtain ⟨hc, hch⟩ := (zeroCoefError?_none_iff ch s).1 he
    have h8 : s.nch ≤ 8 := (h.legal hc).2.2.2.2
    exact clearBytes_inv h (by simp only [coefAddr, Config.coefDepth, Config.apertureBytes]; omega)
  · exact clearBytes_inv h (by decide)
  · exact transformChannel_inv h he
  · exact olaCore_inv h ((olaError?_none_iff s).1 he).1
  · exact olaCore_inv (transformAll_inv h hc f) (by simpa using hc)
  · exact forget_inv h hc
  · exact State.inv_of_reset h.memWf rfl rfl rfl rfl

end Command

/-! ### Steps -/

theorem issue_inv (h : s.Inv) {w : Word} {polls : Nat} (hx : issue w polls s = .next t) : t.Inv := by
  obtain rfl | ⟨t, hword, rfl⟩ := issue_eq_next hx
  · exact h.congr rfl rfl rfl rfl h.memWf rfl
  · have hrun : (s.accept.pollStatus polls).complete.Inv := h.congr (by simp [← h.idle]) rfl rfl rfl h.memWf rfl
    obtain ⟨-, rfl⟩ | ⟨i, -, hx⟩ := execWord_cases hword
    · exact raiseError_inv hrun (by decide) w
    · exact execWith_inv hrun hx

theorem writeAperture_inv (h : s.Inv) (off : Offset) (v : Word) : (s.writeAperture off v).Inv := by
  unfold State.writeAperture
  split
  · rename_i hreg
    obtain ⟨-, hlt⟩ := (regionOf_coef_iff off).1 hreg
    refine h.congr rfl rfl rfl rfl (Memory.wf_writeWords h.memWf ?_) rfl
    simp only [List.length_singleton, Config.apertureBytes]
    omega
  · exact h

/-- Every step keeps the invariants. -/
theorem step_inv (h : s.Inv) (hx : step s = .next t) : t.Inv := by
  obtain ⟨-, rfl⟩ | ⟨e, rest, -, hx⟩ := step_cases hx
  · exact h
  · have h' : { s with pending := rest : State }.Inv := h.congr rfl rfl rfl rfl h.memWf rfl
    obtain ⟨off, -, -, rfl⟩ | ⟨off, v, -, -, -, rfl⟩ | ⟨w, polls, -, hx⟩ | ⟨-, rfl⟩ := perform_cases hx
    · exact h'.congr rfl rfl rfl rfl h.memWf rfl
    · exact writeAperture_inv h' off v
    · exact issue_inv h' hx
    · exact State.inv_of_reset (Memory.wf_powerOn ..) rfl rfl rfl rfl

/-! ### The LUT storage (40_setup.md R134) -/

/-- What keeps the configuration and the LUT bytes keeps the LUT storage as the last `CONFIG` built it. -/
theorem State.LutBuilt.of_frame (h : s.LutBuilt P) (hc : t.status.configured = s.status.configured) (hr : t.configRb = s.configRb)
    (hf : ∀ a, 0x90000 ≤ a → a < 0xB0000 → t.mem.readByte a = s.mem.readByte a) : t.LutBuilt P := by
  intro htc a h1 h2
  rw [hf a h1 h2, State.exponent_congr hr, State.exponent_congr hr]
  exact h (hc ▸ htc) a h1 h2

theorem not_writes_lut {i : Instr} (hi : ∀ b8 nch, i ≠ .config b8 nch) {a : Nat} (h1 : 0x90000 ≤ a) (h2 : a < 0xB0000) : ¬ Writes i a := by
  cases i with
  | config b8 nch => exact absurd rfl (hi b8 nch)
  | nop | restart | softReset => exact id
  | zeroCoef _ | zeroAll | imdct _ _ | ola | block _ => simp only [Writes]; omega

theorem execWith_lutBuilt (hl : s.status.configured = true → s.ConfigLegal) (h : s.LutBuilt P) {i : Instr}
    (hx : execWith P i s = .next t) : t.LutBuilt P := by
  by_cases hi : ∃ b8 nch, i = .config b8 nch
  · obtain ⟨b8, nch, rfl⟩ := hi
    cases he : configError? b8 nch with
    | none => rw [execConfig_ok he] at hx; cases hx; exact fun _ _ _ _ => rfl
    | some code => rw [execConfig_error he] at hx; cases hx; exact h
  · push Not at hi
    have hf a (h1 : 0x90000 ≤ a) (h2 : a < 0xB0000) := execWith_frame hl hx (not_writes_lut hi h1 h2)
    obtain ⟨-, rfl⟩ | ⟨b8, nch, rfl, -, -⟩ | ⟨hc, hr⟩ := execWith_configuration hx
    · nofun
    · exact absurd rfl (hi b8 nch)
    · exact h.of_frame hc hr hf

theorem issue_lutBuilt (hl : s.status.configured = true → s.ConfigLegal) (h : s.LutBuilt) {w : Word} {polls : Nat}
    (hx : issue w polls s = .next t) : t.LutBuilt := by
  obtain rfl | ⟨t, hword, rfl⟩ := issue_eq_next hx
  · exact h
  · obtain ⟨-, rfl⟩ | ⟨i, -, hx⟩ := execWord_cases hword
    · exact h
    · exact (execWith_lutBuilt (s := s.accept.pollStatus polls) hl h hx :)

theorem writeAperture_lutBuilt (h : s.LutBuilt P) (off : Offset) (v : Word) : (s.writeAperture off v).LutBuilt P := by
  unfold State.writeAperture
  split
  · rename_i hreg
    obtain ⟨-, hlt⟩ := (regionOf_coef_iff off).1 hreg
    refine h.of_frame rfl rfl fun a h1 _ => Memory.readByte_writeWords_outside _ _ _ _ (.inr ?_)
    simp only [List.length_singleton]
    omega
  · exact h

/-- Every step of an engine with legal sizes keeps the LUT storage as its last `CONFIG` built it. -/
theorem step_lutBuilt (hl : s.status.configured = true → s.ConfigLegal) (h : s.LutBuilt) (hx : step s = .next t) : t.LutBuilt := by
  obtain ⟨-, rfl⟩ | ⟨e, rest, -, hx⟩ := step_cases hx
  · exact h
  · obtain ⟨off, -, -, rfl⟩ | ⟨off, v, -, -, -, rfl⟩ | ⟨w, polls, -, hx⟩ | ⟨-, rfl⟩ := perform_cases hx
    · exact h
    · exact writeAperture_lutBuilt (s := { s with pending := rest }) h off v
    · exact issue_lutBuilt (s := { s with pending := rest }) hl h hx
    · nofun

/-! ### Platforms (20_memory.md R91) -/

/-- A list with one element replaced has the same values of a function that does not tell the two elements apart. -/
theorem map_set_of_eq {α β : Type} (f : α → β) {l : List α} {k : Nat} {i j : α} (hk : l[k]? = some i) (hf : f j = f i) :
    (l.set k j).map f = l.map f := by
  obtain ⟨hlt, rfl⟩ := List.getElem?_eq_some_iff.1 hk
  rw [List.map_set, hf, ← List.map_set, List.set_getElem_self]

/-- A step of an instance keeps its `ENGINE_BASE`, and its engine is as it was or has made one step. -/
theorem Instance.stepWith_engine {i j : Instance} (h : i.stepWith .default = .next j) :
    j.base = i.base ∧ (j.engine = i.engine ∨ step i.engine = .next j.engine) := by
  obtain rfl | ⟨t, ht, rfl⟩ | ⟨r, -, rfl⟩ := Instance.stepWith_cases h
  · exact ⟨rfl, .inl rfl⟩
  · exact ⟨rfl, .inr (step_eq_stepWith ▸ ht)⟩
  · exact ⟨rfl, .inl rfl⟩

/-- What R58, R134 and R90 say of one instance. -/
abbrev Instance.Inv (i : Instance) : Prop := i.engine.Inv ∧ i.engine.LutBuilt ∧ i.engine.OwnPowerOn

theorem Platform.inv_iff (p : Platform) :
    p.Inv ↔ (p.instances.map Instance.base).Pairwise ApertureApart ∧ (p.instances.map fun i => i.engine.unit).Pairwise (· ≠ ·) ∧
      ∀ i ∈ p.instances, i.Inv := by
  rw [List.pairwise_map, List.pairwise_map]
  exact ⟨fun h => ⟨h.apertures, h.units, fun i hi => ⟨h.engines i hi, h.luts i hi, h.contents i hi⟩⟩,
    fun ⟨ha, hu, hi⟩ => ⟨ha, hu, fun i h => (hi i h).1, fun i h => (hi i h).2.1, fun i h => (hi i h).2.2⟩⟩

theorem Instance.stepWith_inv {i j : Instance} (h : i.Inv) (hx : i.stepWith .default = .next j) :
    j.base = i.base ∧ j.engine.unit = i.engine.unit ∧ j.Inv := by
  obtain ⟨hb, he | hs⟩ := Instance.stepWith_engine hx
  · rw [Instance.Inv, he]; exact ⟨hb, rfl, h⟩
  · obtain ⟨hinv, hlut, hown⟩ := h
    obtain ⟨hunit, hkeep⟩ := step_keepsOwn hs
    exact ⟨hb, hunit, step_inv hinv hs, step_lutBuilt hinv.legal hlut hs, hkeep hown⟩

theorem Platform.stepWith_inv {p q : Platform} (h : p.Inv) (hx : p.stepWith .default = .next q) : q.Inv := by
  obtain ⟨-, rfl⟩ | ⟨k, rest, -, -, rfl⟩ | ⟨k, rest, i, j, -, hk, hj, rfl⟩ := Platform.stepWith_cases hx
  · exact h
  · exact ⟨h.apertures, h.units, h.engines, h.luts, h.contents⟩
  · rw [Platform.inv_iff] at h ⊢
    obtain ⟨ha, hu, hi⟩ := h
    obtain ⟨hb, hunit, hj⟩ := Instance.stepWith_inv (hi i (List.mem_of_getElem? hk)) hj
    rw [map_set_of_eq Instance.base hk hb, map_set_of_eq (fun i => i.engine.unit) hk hunit]
    refine ⟨ha, hu, fun i' hi' => ?_⟩
    obtain hi' | rfl := List.mem_or_eq_of_mem_set hi'
    · exact hi i' hi'
    · exact hj

/-- Settles O26: one instance's steps by `step_inv`, a platform's by the step of the one instance whose host moves. -/
theorem stepKeepsInvariants : Obligations.StepKeepsInvariants :=
  ⟨fun _ _ => step_inv, fun _ _ => Platform.stepWith_inv⟩

/-! ### Right after hardware reset (R57, 70_reset_and_hazards.md R280) -/

theorem State.powerOn_inv (unit : Nat) : (State.powerOn unit).Inv := State.inv_of_reset (Memory.wf_powerOn ..) rfl rfl rfl rfl

theorem instancesFrom_getElem? (unit : Nat) (bases : List Nat) (k : Nat) :
    (instancesFrom unit bases)[k]? = bases[k]?.map fun b => { base := b, engine := State.powerOn (unit + k), hostFault := none } := by
  induction bases generalizing unit k with
  | nil => rfl
  | cons b bases ih =>
    cases k with
    | zero => rfl
    | succ k => simp [instancesFrom, ih, Nat.add_assoc, Nat.add_comm 1]

theorem map_base_instancesFrom (unit : Nat) (bases : List Nat) : (instancesFrom unit bases).map Instance.base = bases := by
  induction bases generalizing unit with
  | nil => rfl
  | cons b bases ih => rw [instancesFrom, List.map_cons, ih]

theorem map_unit_instancesFrom (unit : Nat) (bases : List Nat) :
    (instancesFrom unit bases).map (fun i => i.engine.unit) = List.range' unit bases.length := by
  induction bases generalizing unit with
  | nil => rfl
  | cons b bases ih => rw [instancesFrom, List.map_cons, ih]; rfl

theorem Platform.reset_inv {bases : List Nat} (h : bases.Pairwise ApertureApart) : (Platform.reset bases).Inv := by
  rw [Platform.inv_iff, Platform.reset, map_base_instancesFrom, map_unit_instancesFrom]
  refine ⟨h, List.nodup_range', fun i hi => ?_⟩
  obtain ⟨k, hk⟩ := List.getElem?_of_mem hi
  rw [instancesFrom_getElem?] at hk
  obtain ⟨b, -, rfl⟩ := Option.map_eq_some_iff.1 hk
  exact ⟨State.powerOn_inv _, nofun, fun _ _ e => by cases e; exact ⟨rfl, rfl⟩⟩

/-- Settles O25: instance `k` of the platform is `State.powerOn k`, and `State.reset` is the number 0. -/
theorem resetMeetsInvariants : Obligations.ResetMeetsInvariants := by
  refine ⟨State.powerOn_inv 0, fun bases => ⟨fun k b hb => ?_, Platform.reset_inv⟩⟩
  refine ⟨{ base := b, engine := State.powerOn k, hostFault := none }, ?_, rfl, rfl, rfl, rfl, rfl, rfl, fun a => rfl⟩
  rw [Platform.reset, instancesFrom_getElem?, hb, Nat.zero_add]
  rfl

end Sys2Proof.Machine
end

section
/-!
PROOFS. The registers as the host reads them (10_state.md R33 to R48), the hardware reset (70_reset_and_hazards.md R280), and which command
can change which RAM (10_state.md R49 to R52).
-/

namespace Sys2Proof.Machine

open Sys2Proof.Reference

/-! ### The layout of `STATUS` (R36) -/

theorem getLsbD_bit (f : BlockFlag) : f.bit.getLsbD 0 = decide (f = .long) := by cases f <;> rfl
theorem getLsbD_ofBool_zero (b : Bool) : (BitVec.ofBool b).getLsbD 0 = b := by cases b <;> rfl

theorem Status.getLsbD_word_of_lt (st : Status) {k : Nat} (hk : k < 8) :
    st.word.getLsbD k =
      [st.busy, st.configured, st.failed, st.prevValid, decide (st.prevFlag = .long), decide (st.xfFlag = .long)].getD k false := by
  unfold Status.word
  interval_cases k <;>
    simp only [BitVec.getLsbD_append, Nat.reduceLT, Nat.reduceSub, reduceIte, getLsbD_bit, getLsbD_ofBool_zero] <;> rfl

theorem Status.getLsbD_word_add (st : Status) (k : Nat) :
    st.word.getLsbD (8 + k) = if k < 8 then st.xfDone.getLsbD k else if k < 16 then st.err.code.getLsbD (k - 8) else false := by
  unfold Status.word
  iterate 7 rw [BitVec.getLsbD_append, if_neg (by omega)]
  rw [show 8 + k - 1 - 1 - 1 - 1 - 1 - 1 - 2 = k by omega, BitVec.getLsbD_append, BitVec.getLsbD_append]
  split_ifs
  · rfl
  · rfl
  · omega
  · omega
  · simp

/-- Settles O18: the low eight bits one by one, the two fields above them by their offsets. -/
theorem statusLayout : Obligations.StatusLayout := by
  refine ⟨fun st => ?_, rfl, rfl⟩
  have hbit (k : Nat) (hk : k < 8) := st.getLsbD_word_of_lt hk
  have hfield := st.getLsbD_word_add
  refine ⟨hbit 0 (by decide), hbit 1 (by decide), hbit 2 (by decide), hbit 3 (by decide), hbit 4 (by decide), hbit 5 (by decide),
    ?_, ?_, ?_, ?_⟩
  all_goals
    apply BitVec.eq_of_getLsbD_eq
    intro k hk
    rw [BitVec.getLsbD_extractLsb']
  · rw [hbit _ (by omega)]
    interval_cases k <;> rfl
  · rw [hfield]
    simp [hk]
  · rw [show 16 + k = 8 + (8 + k) by omega, hfield, if_neg (by omega), if_pos (by omega)]
    simp [hk]
  · rw [show 24 + k = 8 + (16 + k) by omega, hfield, if_neg (by omega), if_neg (by omega)]
    simp


/-! ### Reads of registers -/

theorem ConfigRb.toNat_word (c : ConfigRb) : c.word.toNat = c.e0.toNat + 16 * c.e1.toNat + 256 * c.nch.toNat := by
  have h0 := c.e0.isLt
  have h1 := c.e1.isLt
  simp only [ConfigRb.word, BitVec.toNat_append]
  rw [← Nat.shiftLeft_add_eq_or_of_lt h0, ← Nat.shiftLeft_add_eq_or_of_lt h1]
  simp [Nat.shiftLeft_eq]
  omega

theorem State.toNat_blockSizeWord (s : State) (f : BlockFlag) :
    (s.blockSizeWord f).toNat = if s.status.configured then 2 ^ s.exponent f else 0 := by
  have he : s.exponent f < 16 := by cases f <;> exact BitVec.isLt _
  have hp : 2 ^ s.exponent f < 2 ^ 32 := Nat.pow_lt_pow_right (by omega) (by omega)
  unfold State.blockSizeWord
  split
  · exact Nat.mod_eq_of_lt hp
  · rfl

/-- A register offset from 0x024 on is reserved (R48). -/
theorem State.readRegister_reserved (s : State) {off : Offset} (h : 0x024 ≤ off.toNat) : s.readRegister off = 0 := by
  unfold State.readRegister
  split <;> first | omega | rfl

/-- A legal read of a register answers its value and changes nothing else (R83). -/
theorem step_readRegister (s : State) (off : Offset) (rest : List HostEvent) (h : off.toNat < 0x100) (h4 : off.toNat % 4 = 0) :
    step { s with pending := .read off 4 :: rest } = .next { s with pending := rest, reads := s.reads ++ [s.readRegister off] } := by
  have hreg : regionOf off = .registers := (regionOf_registers_iff off).2 h
  have hbus : busError? off 4 = none := busError?_none.2 ⟨rfl, h4, by rw [hreg]; decide⟩
  rw [step_cons _ _ rest rfl, perform]
  simp only [hbus, State.readAperture, hreg]
  rfl

/-- Settles O17: each register by the definition of its value. -/
theorem registerReads : Obligations.RegisterReads := by
  intro s off rest h h4
  refine ⟨_, step_readRegister s off rest h h4, ?_, ?_, ?_, ?_, ?_, ?_, ?_, ?_, ?_, s.readRegister_reserved⟩ <;> rintro rfl
  · rfl
  · rfl
  · rfl
  · exact s.configRb.toNat_word
  · exact BitVec.toNat_setWidth_of_le (by decide)
  · intro hfit
    show (s.outTotal.zeroExtend 32).toNat = _
    exact (BitVec.toNat_setWidth_of_le (by decide)).trans (Nat.mod_eq_of_lt hfit)
  · exact s.toNat_blockSizeWord .short
  · exact s.toNat_blockSizeWord .long
  · rfl

/-! ### The hardware reset -/

/-- Settles O24: the step is `hardwareReset`. -/
theorem hardwareResetClears : Obligations.HardwareResetClears := by
  intro s rest
  have hstep : step { s with pending := .hardReset :: rest } = .next (hardwareReset { s with pending := rest }) := by
    rw [step_cons _ _ rest rfl]; rfl
  have htotal : (hardwareReset { s with pending := rest }).outTotal = 0 := by simp [State.outTotal]
  exact ⟨_, hstep, rfl, rfl, rfl, rfl, htotal, rfl, rfl, fun _ => rfl, rfl, rfl, rfl, rfl⟩

/-! ### Which command can change which RAM -/

/-- Settles O28: an offset of a window is none that the other commands write. -/
theorem commandsWriteTheirRams : Obligations.CommandsWriteTheirRams := by
  intro i s t hl hx hcfg
  rw [exec_eq_execWith] at hx
  have frame {lo hi : Nat} (h : ∀ a, lo ≤ a → a < hi → ¬ Writes i a) : SameWithin lo hi s.mem t.mem :=
    fun a h1 h2 => execWith_frame hl hx (h a h1 h2)
  refine ⟨fun h1 h2 => frame fun a ha hb => ?_, fun h1 h2 => frame fun a ha hb => ?_,
    fun h1 h2 => ⟨frame fun a ha hb => ?_, frame fun a ha hb => ?_⟩⟩
  · cases i with
    | config b8 nch => exact absurd rfl (hcfg b8 nch)
    | zeroCoef ch => exact absurd rfl (h1 ch)
    | zeroAll => exact absurd rfl h2
    | nop | restart | softReset => exact id
    | imdct _ _ | ola | block _ => simp only [Writes]; omega
  · cases i with
    | config b8 nch => exact absurd rfl (hcfg b8 nch)
    | imdct ch f => exact absurd rfl (h1 ch f)
    | block f => exact absurd rfl (h2 f)
    | nop | restart | softReset => exact id
    | zeroCoef _ | zeroAll | ola => simp only [Writes]; omega
  all_goals
    cases i with
    | config b8 nch => exact absurd rfl (hcfg b8 nch)
    | ola => exact absurd rfl h1
    | block f => exact absurd rfl (h2 f)
    | nop | restart | softReset => exact id
    | zeroCoef _ | zeroAll | imdct _ _ => simp only [Writes]; omega

end Sys2Proof.Machine
end

section
/-!
PROOFS. The datapath as 41_imdct.md R165 to R170 index it: each step of the list datapath is a function of the index, over any arithmetic and
any tables.
-/

namespace Sys2Proof.Machine.Transform

open Sys2Proof.Reference

variable {α : Type} (A : Arith α)

/-! ### Vectors as functions of the index -/

/-- The vector of the first `n` values of a function of the index. -/
def vec {β : Type} (n : Nat) (v : Nat → β) : List β := (List.range n).map v

section Vec
variable {β γ : Type}

@[simp] theorem length_vec (n : Nat) (v : Nat → β) : (vec n v).length = n := by simp [vec]

theorem vec_congr {n : Nat} {v w : Nat → β} (h : ∀ i, i < n → v i = w i) : vec n v = vec n w :=
  List.map_congr_left fun i hi => h i (List.mem_range.1 hi)

theorem getD_vec {n i : Nat} (h : i < n) (v : Nat → β) (d : β) : (vec n v).getD i d = v i := by
  simp [vec, h]

theorem map_vec (n : Nat) (f : β → γ) (v : Nat → β) : (vec n v).map f = vec n fun i => f (v i) := by
  simp [vec, Function.comp_def]

theorem vec_add (m n : Nat) (v : Nat → β) : vec (m + n) v = vec m v ++ vec n fun i => v (m + i) := by
  simp [vec, List.range_add, Function.comp_def]

theorem take_vec_add (m n : Nat) (v : Nat → β) : (vec (m + n) v).take m = vec m v := by
  rw [vec_add, List.take_left' (length_vec ..)]

theorem drop_vec_add (m n : Nat) (v : Nat → β) : (vec (m + n) v).drop m = vec n fun i => v (m + i) := by
  rw [vec_add, List.drop_left' (length_vec ..)]

theorem zipWith_vec {δ : Type} (n : Nat) (f : β → γ → δ) (v : Nat → β) (w : Nat → γ) :
    List.zipWith f (vec n v) (vec n w) = vec n fun i => f (v i) (w i) := by
  simp [vec, List.zipWith_map, List.zipWith_self]

theorem reverse_vec (n : Nat) (v : Nat → β) : (vec n v).reverse = vec n fun i => v (n - 1 - i) := by
  refine List.ext_getElem (by simp) fun i h1 h2 => ?_
  simp [vec]

theorem flatMap_pair (n : Nat) (v : Nat → β) : ((List.range n).flatMap fun q => [v (2 * q), v (2 * q + 1)]) = vec (2 * n) v := by
  induction n with
  | zero => rfl
  | succ n ih => rw [List.range_succ, List.flatMap_append, ih, Nat.mul_succ, vec_add]; simp [vec, List.range_succ]

end Vec

/-! ### The steps -/

theorem preRotate_eq (T : Bank α) {M : Nat} {X : List α} {x : Nat → α} {ω : Nat → Cplx α} (hX : ∀ k, k < 2 * M → X.getD k A.zero = x k)
    (hω : ∀ m, m < M → T.rot.getD m (czero A) = ω m) : preRotate A T M X = vec M (indexPreRotate A M x ω) := by
  refine vec_congr fun m hm => ?_
  rw [hX _ (by omega), hX _ (by omega), hω m hm]
  rfl

theorem permute_eq (T : Bank α) {M : Nat} {br : Nat → Nat} (hbr : ∀ i, i < M → T.br.getD i 0 = br i ∧ br i < M) (v : Nat → Cplx α) :
    permute A T M (vec M v) = vec M fun i => v (br i) := by
  refine vec_congr fun i hi => ?_
  obtain ⟨h, hlt⟩ := hbr i hi
  rw [h, getD_vec hlt]

/-- Value `i` of a pass of span `h` in terms of its own butterfly alone (R167). -/
def butterfly (h : Nat) (W v : Nat → Cplx α) (i : Nat) : Cplx α :=
  if i % (2 * h) < h then cadd A (v i) (rotate A (v (i + h)) (W (i % (2 * h))))
  else csub A (v (i - h)) (rotate A (v i) (W (i % (2 * h) - h)))

theorem indexPass_eq_butterfly (M h : Nat) (W v : Nat → Cplx α) :
    indexPass A M h W v = butterfly A h (fun j => W (j * (M / (2 * h)))) v := rfl

/-- The groups of a pass are alike: a shift of the vector by whole groups shifts what the pass leaves. -/
theorem butterfly_shift (h : Nat) (W v : Nat → Cplx α) (i : Nat) :
    butterfly A h W v (2 * h + i) = butterfly A h W (fun i => v (2 * h + i)) i := by
  unfold butterfly
  rw [Nat.add_mod_left]
  split
  · rw [Nat.add_assoc]
  · have := Nat.mod_le i (2 * h)
    rw [Nat.add_sub_assoc (by omega)]

theorem pass_eq (h : Nat) (W : Nat → Cplx α) (groups : Nat) (v : Nat → Cplx α) :
    pass A h (vec h W) groups (vec (groups * (2 * h)) v) = vec (groups * (2 * h)) (butterfly A h W v) := by
  induction groups generalizing v with
  | zero => simp [pass, vec]
  | succ n ih =>
    have hn : (n + 1) * (2 * h) = 2 * h + n * (2 * h) := by rw [Nat.succ_mul, Nat.add_comm]
    have hh : 2 * h + n * (2 * h) = h + (h + n * (2 * h)) := by omega
    rw [hn, pass, drop_vec_add, ih, hh, take_vec_add, drop_vec_add, take_vec_add, zipWith_vec, zipWith_vec, zipWith_vec]
    rw [vec_add h, vec_add h, ← List.append_assoc]
    congr 1
    · congr 1
      · refine vec_congr fun i hi => ?_
        rw [butterfly, Nat.mod_eq_of_lt (by omega), if_pos hi, Nat.add_comm i h]
      · refine vec_congr fun i hi => ?_
        rw [butterfly, Nat.mod_eq_of_lt (by omega), if_neg (by omega), Nat.add_sub_cancel_left]
    · refine vec_congr fun i hi => ?_
      rw [← butterfly_shift]
      congr 1
      omega

theorem passes_eq (T : Bank α) {M : Nat} {W : Nat → Cplx α} (hW : ∀ k, k < M / 2 → T.tw.getD k (czero A) = W k) :
    ∀ (count h : Nat) (v : Nat → Cplx α), M = 2 ^ count * h → 0 < h →
      passes A T M count h (vec M v) = vec M (indexPasses A M W count h v) := by
  intro count
  induction count with
  | zero => intro h v _ _; rfl
  | succ c ih =>
    intro h v hM hh
    have hM' : M = 2 ^ c * (2 * h) := by rw [hM, Nat.pow_succ, Nat.mul_assoc]
    have hdiv : M / (2 * h) = 2 ^ c := by rw [hM']; exact Nat.mul_div_cancel _ (by omega)
    have htw : strided A T h (M / (2 * h)) = vec h fun j => W (j * (M / (2 * h))) := by
      refine vec_congr fun j hj => hW _ ?_
      have hlt : j * 2 ^ c < h * 2 ^ c := Nat.mul_lt_mul_of_pos_right hj (by positivity)
      have hM2 : M = 2 * (h * 2 ^ c) := by rw [hM']; ring
      rw [hdiv]
      omega
    have hpass : pass A h (strided A T h (M / (2 * h))) (M / (2 * h)) (vec M v) = vec M (indexPass A M h W v) := by
      rw [htw, indexPass_eq_butterfly]
      have := pass_eq A h (fun j => W (j * (M / (2 * h)))) (2 ^ c) v
      rwa [← hM', ← hdiv] at this
    rw [passes, hpass, ih _ _ hM' (by omega)]
    rfl

theorem postRotate_eq (T : Bank α) {M : Nat} {ω : Nat → Cplx α} (hω : ∀ m, m < M → T.rot.getD m (czero A) = ω m) (v : Nat → Cplx α) :
    postRotate A T M (vec M v) = vec M (indexPostRotate A v ω) := by
  refine vec_congr fun q hq => ?_
  rw [getD_vec hq, hω q hq]
  rfl

theorem dct4_eq (M : Nat) (Z : Nat → Cplx α) : dct4 A M (vec M Z) = vec (2 * M) (indexUnfold A M Z) := by
  rw [← flatMap_pair]
  refine List.flatMap_congr fun q hq => ?_
  have hq := List.mem_range.1 hq
  rw [getD_vec hq, getD_vec (by omega)]
  have h1 : (2 * M - 1 - (2 * q + 1)) / 2 = M - 1 - q := by omega
  have h2 : (2 * q + 1) % 2 ≠ 0 := by omega
  simp [indexUnfold, h1]

theorem unfoldBlock_eq (M : Nat) (u : Nat → α) : unfoldBlock A M (vec (2 * M) u) = vec (4 * M) (indexBlock A M u) := by
  have h2 : 2 * M = M + M := by omega
  have h4 : 4 * M = M + (2 * M + M) := by omega
  rw [unfoldBlock, reverse_vec, h4, vec_add, vec_add, map_vec, h2, drop_vec_add, take_vec_add, map_vec]
  congr 1
  · refine vec_congr fun i hi => ?_
    simp [indexBlock, hi, Nat.add_comm]
  congr 1
  · refine vec_congr fun i hi => ?_
    rw [indexBlock, if_neg (by omega), if_pos (by omega)]
    congr 2; omega
  · refine vec_congr fun i hi => ?_
    rw [indexBlock, if_neg (by omega), if_neg (by omega)]
    congr 2; omega

/-- The datapath is the six steps as R165 to R170 index them, for coefficients and tables given by their index. -/
theorem imdct_eq_vec (T : Bank α) {b : Nat} {X : List α} {x : Nat → α} {ω W : Nat → Cplx α} {br : Nat → Nat}
    (hX : ∀ k, k < 2 * 2 ^ b → X.getD k A.zero = x k) (hω : ∀ m, m < 2 ^ b → T.rot.getD m (czero A) = ω m)
    (hW : ∀ k, k < 2 ^ b / 2 → T.tw.getD k (czero A) = W k) (hbr : ∀ i, i < 2 ^ b → T.br.getD i 0 = br i ∧ br i < 2 ^ b) :
    imdct A T b X = vec (4 * 2 ^ b) (indexImdct A b x ω W br) := by
  rw [imdct, preRotate_eq A T hX hω, permute_eq A T hbr, passes_eq A T hW b 1 _ (Nat.mul_one _).symm Nat.one_pos,
    postRotate_eq A T hω, dct4_eq, unfoldBlock_eq]
  rfl

end Sys2Proof.Machine.Transform
end

section
/-!
PROOFS. What the transform reads (10_state.md R53, 20_memory.md R79): the words of `COEF` and of one bank, by their offsets.
-/

namespace Sys2Proof.Machine

open Sys2Proof.Reference Transform

/-- A pair of a table read from memory. -/
theorem getD_pairsOfWords {m : Memory} (hm : m.Wf) {lo n i : Nat} (hi : i < n) (d : Cplx F32) :
    (pairsOfWords (m.readWords lo (2 * n))).getD i d = ⟨F32.ofBits (m.readWord (lo + 8 * i)), F32.ofBits (m.readWord (lo + 8 * i + 4))⟩ := by
  rw [Memory.readWords_eq_map_readWord hm, pairsOfWords_map, show lo + 8 * i = lo + 4 * (2 * i) by omega,
    show lo + 4 * (2 * i) + 4 = lo + 4 * (2 * i + 1) by omega]
  exact getD_vec hi _ d

theorem State.rot_bank {s : State} (hm : s.mem.Wf) (f : BlockFlag) {m : Nat} (h : m < 2 ^ s.passCount f) (d : Cplx F32) :
    (s.bank f).rot.getD m d = ⟨F32.ofBits (s.mem.readWord (rotcAddr f m)), F32.ofBits (s.mem.readWord (rotsAddr f m))⟩ :=
  getD_pairsOfWords hm h d

theorem State.tw_bank {s : State} (hm : s.mem.Wf) (f : BlockFlag) {M k : Nat} (hM : 2 ^ s.passCount f = 2 * M) (h : k < M) (d : Cplx F32) :
    (s.bank f).tw.getD k d = ⟨F32.ofBits (s.mem.readWord (twcAddr f k)), F32.ofBits (s.mem.readWord (twsAddr f k))⟩ := by
  rw [State.bank, hM]
  exact getD_pairsOfWords hm h d

theorem State.br_bank {s : State} (hm : s.mem.Wf) (f : BlockFlag) {i : Nat} (h : i < 2 ^ s.passCount f) :
    (s.bank f).br.getD i 0 = (s.mem.readWord (brAddr f i)).toNat := by
  have hbr : (s.bank f).br = (s.mem.readWords (bankAddr f + 0x6000) (2 ^ s.passCount f)).map BitVec.toNat := rfl
  rw [hbr, Memory.readWords_eq_map_readWord hm, List.map_map]
  exact getD_vec h _ 0

theorem State.getD_spectrum {s : State} (hm : s.mem.Wf) (ch : Nat) (f : BlockFlag) {k : Nat} (h : k < 2 ^ s.exponent f / 2) (d : F32) :
    (s.spectrum ch f).getD k d = F32.ofBits (s.coefWord ch k) := by
  rw [spectrum_eq_map hm, List.map_map]
  exact getD_vec h _ d

/-- Settles O46: `imdct_eq_vec` at the words that the transform reads. -/
theorem imdctUsesTables : Obligations.ImdctUsesTables := by
  intro s ch f hl hm hch hbr word bank
  obtain ⟨h6, h13⟩ := exponent_bounds hl f
  obtain ⟨d, hd, hd10⟩ : ∃ d, s.passCount f = d + 1 ∧ d ≤ 10 := ⟨s.exponent f - 3, by rw [State.passCount]; omega, by omega⟩
  have hM : 2 ^ s.passCount f ≤ 2 ^ 11 := Nat.pow_le_pow_right (by omega) (by omega)
  have hhalf : 2 ^ s.passCount f = 2 * 2 ^ d := by rw [hd, Nat.pow_succ']
  have hn : 2 ^ s.exponent f = 4 * 2 ^ s.passCount f := by
    rw [show s.exponent f = s.passCount f + 2 by rw [State.passCount]; omega, Nat.pow_add, Nat.mul_comm]
  rw [State.transformed_default (by omega), hn]
  refine imdct_eq_vec Arith.binary32 (s.bank f) (fun k hk => s.getD_spectrum hm ch f (by omega) _) (fun m hm' => s.rot_bank hm f hm' _)
    (fun k hk => s.tw_bank hm f hhalf (by omega) _) fun i hi => ⟨s.br_bank hm f hi, ?_⟩
  have hlt := hbr i hi
  rw [BitVec.lt_def, BitVec.toNat_ofNat, Nat.mod_eq_of_lt] at hlt
  · exact hlt
  · exact hM.trans_lt (by decide)

end Sys2Proof.Machine
end

section
/-!
PROOFS. The host's accesses of one instance (20_memory.md R71 to R86): which take a bus error, what a read returns and what a write stores.
-/

namespace Sys2Proof.Machine

open Sys2Proof.Reference

/-! ### Legal accesses (R71, R73) -/

theorem busError?_eq_none_iff_legalAccess {off : Offset} {width : Nat} : busError? off width = none ↔ LegalAccess off width := by
  rw [busError?_none, ne_eq, regionOf_unmapped_iff, not_not]

/-- A legal read answers the word at its offset and changes nothing else (R83). -/
theorem step_read {off : Offset} (h : LegalAccess off 4) (s : State) (rest : List HostEvent) :
    step { s with pending := .read off 4 :: rest } = .next { s with pending := rest, reads := s.reads ++ [s.readAperture off] } := by
  rw [step_cons _ _ rest rfl, perform]
  simp only [busError?_eq_none_iff_legalAccess.2 h]
  rfl

/-- A legal write of an offset other than `CMD` does to the aperture what `writeAperture` says. -/
theorem step_write {off : Offset} (h : LegalAccess off 4) (hcmd : off ≠ cmdOffset) (s : State) (v : Word) (rest : List HostEvent) :
    step { s with pending := .write off 4 v :: rest } = .next ({ s with pending := rest }.writeAperture off v) := by
  rw [step_cons _ _ rest rfl, perform]
  simp only [busError?_eq_none_iff_legalAccess.2 h, if_neg hcmd]

/-! ### What stops a step (R74, R86) -/

/-- A step that gives no next state performed a pending event. -/
theorem step_stops {s : State} (h : ∀ t, step s ≠ .next t) :
    ∃ e rest, s.pending = e :: rest ∧ step s = perform e { s with pending := rest } := by
  cases hp : s.pending with
  | nil => exact absurd (by rw [step, performNext, hp]) (h s)
  | cons e rest => exact ⟨e, rest, rfl, step_cons s e rest hp⟩

/-- Only an access that is not legal faults. -/
theorem step_fault {s : State} {r : Fault} (h : step s = .fault r) :
    ∃ off width rest, ¬ LegalAccess off width ∧ (s.pending = .read off width :: rest ∨ ∃ v, s.pending = .write off width v :: rest) := by
  obtain ⟨e, rest, hp, hs⟩ := step_stops (s := s) (by simp [h])
  obtain ⟨off, width, hr, he⟩ := perform_fault (hs.symm.trans h)
  refine ⟨off, width, rest, fun hl => ?_, ?_⟩
  · rw [busError?_eq_none_iff_legalAccess.2 hl] at hr
    cases hr
  · obtain rfl | ⟨v, rfl⟩ := he
    · exact .inl hp
    · exact .inr ⟨v, hp⟩

/-- An access faults exactly when it is not legal. -/
theorem step_fault_iff {e : HostEvent} {off : Offset} {width : Nat} (he : e = .read off width ∨ ∃ v, e = .write off width v)
    (s : State) (rest : List HostEvent) : (∃ r, step { s with pending := e :: rest } = .fault r) ↔ ¬ LegalAccess off width := by
  constructor
  · rintro ⟨r, hr⟩
    obtain ⟨_, _, _, hbad, hp⟩ := step_fault hr
    obtain rfl | ⟨v, rfl⟩ := he <;> obtain hp | ⟨_, hp⟩ := hp <;> cases hp <;> exact hbad
  · intro hbad
    obtain ⟨r, hr⟩ := busError?_of_not_legalAccess hbad
    exact ⟨r, by rw [step_eq_stepWith, stepWith_busError he hr]; rfl⟩

/-- Settles O16: `step_fault_iff` for an access, `step_fault` for every event. -/
theorem busErrorsExactly : Obligations.BusErrorsExactly :=
  ⟨fun s _ _ v rest => ⟨step_fault_iff (.inl rfl) s rest, step_fault_iff (.inr ⟨v, rfl⟩) s rest⟩, fun _ _ => step_fault⟩

/-- Settles O22: `perform_refused` for the one refusal; a step with no event pending is the state itself. -/
theorem secondMasterRefused : Obligations.SecondMasterRefused := by
  refine ⟨fun s rest => (step_cons _ _ rest rfl).trans rfl, fun s r h => ?_, fun s hp => ?_⟩
  · obtain ⟨e, rest, hp, hs⟩ := step_stops (s := s) (by simp [h])
    obtain ⟨rfl, rfl⟩ := perform_refused (hs.symm.trans h)
    exact ⟨rfl, rest, hp⟩
  · rw [step, performNext, hp]

/-! ### The RAM and LUT windows (R72, R76 to R81) -/

theorem regionOf_ne_registers {off : Offset} (h : InRam off.toNat) : regionOf off ≠ .registers := by
  rw [ne_eq, regionOf_registers_iff]
  omega

theorem State.readAperture_ram (s : State) {off : Offset} (h : InRam off.toNat) : s.readAperture off = s.mem.readWord off.toNat := by
  have := regionOf_ne_registers h
  unfold State.readAperture
  split
  · contradiction
  · rfl

/-- The bytes of a word put together from four (R72). -/
theorem extractLsb'_wordOfBytes (b0 b1 b2 b3 : Byte) :
    (wordOfBytes b0 b1 b2 b3).extractLsb' 0 8 = b0 ∧ (wordOfBytes b0 b1 b2 b3).extractLsb' 8 8 = b1 ∧
      (wordOfBytes b0 b1 b2 b3).extractLsb' 16 8 = b2 ∧ (wordOfBytes b0 b1 b2 b3).extractLsb' 24 8 = b3 := by
  have skip {n k : Nat} (x : BitVec n) (b : Byte) : (x ++ b).extractLsb' (k + 8) 8 = x.extractLsb' k 8 :=
    BitVec.extractLsb'_append_eq_of_le (Nat.le_add_left 8 k)
  have low {n : Nat} (x : BitVec n) (b : Byte) : (x ++ b).extractLsb' 0 8 = b := BitVec.extractLsb'_append_eq_right
  exact ⟨low _ b0, (skip _ b0).trans (low _ b1), (skip _ b0).trans ((skip _ b1).trans (low _ b2)),
    (skip _ b0).trans ((skip _ b1).trans BitVec.extractLsb'_append_eq_left)⟩

/-- A word as its two halves. -/
theorem wordOfBytes_halves (b0 b1 b2 b3 : Byte) : wordOfBytes b0 b1 b2 b3 = (b3 ++ b2) ++ (b1 ++ b0) := by
  rw [wordOfBytes, BitVec.append_assoc]
  rfl

/-- Byte `i` of a word is the byte at its offset plus `i` (R72). -/
theorem Memory.extractLsb'_readWord (m : Memory) (a : Nat) {i : Nat} (hi : i < 4) :
    (m.readWord a).extractLsb' (8 * i) 8 = m.readByte (a + i) := by
  obtain ⟨h0, h1, h2, h3⟩ :=
    extractLsb'_wordOfBytes (m.readByte a) (m.readByte (a + 1)) (m.readByte (a + 2)) (m.readByte (a + 3))
  interval_cases i
  · exact h0
  · exact h1
  · exact h2
  · exact h3

/-- A word of the `PCM` window holds two samples, the earlier one in the low half (R78). -/
theorem State.readWord_pcm (s : State) (w : Nat) : s.mem.readWord (0x80000 + 4 * w) = s.pcm (2 * w + 1) ++ s.pcm (2 * w) := by
  have hlow : pcmAddr (2 * w) = 0x80000 + 4 * w := by simp only [pcmAddr]; omega
  have hhigh : pcmAddr (2 * w + 1) = 0x80000 + 4 * w + 2 := by simp only [pcmAddr]; omega
  rw [State.pcm, State.pcm, hlow, hhigh, Memory.readWord, wordOfBytes_halves]

/-- Settles O19: each window's element is the word at the offset that its rule gives. -/
theorem ramReads : Obligations.RamReads := by
  intro s off rest h4 hram
  refine ⟨s.mem.readWord off.toNat, ?_, fun i hi => s.mem.extractLsb'_readWord _ hi, ?_, ?_, ?_, ?_, ?_⟩
  · rw [step_read ⟨rfl, h4, .inr hram⟩, s.readAperture_ram hram]
  · exact fun c k _ _ ho => congrArg s.mem.readWord ho
  · exact fun c j _ _ ho => congrArg s.mem.readWord ho
  · intro w _ ho
    rw [ho, s.readWord_pcm]
  · exact fun pf cf k _ ho => congrArg s.mem.readWord ho
  · exact fun c i _ _ ho => congrArg s.mem.readWord ho

/-! ### Writes (R75, R76) -/

theorem State.writeAperture_coef (s : State) {off : Offset} (h : 0x10000 ≤ off.toNat ∧ off.toNat < 0x30000) (v : Word) :
    s.writeAperture off v = { s with mem := s.mem.writeWords off.toNat [v] } := by
  rw [State.writeAperture, (regionOf_coef_iff off).2 h]

theorem State.writeAperture_readOnly (s : State) {off : Offset} (h : ¬ (0x10000 ≤ off.toNat ∧ off.toNat < 0x30000)) (v : Word) :
    s.writeAperture off v = s := by
  rw [← regionOf_coef_iff] at h
  unfold State.writeAperture
  split
  · contradiction
  · rfl

/-- Settles O20: the write is `writeWords` of one word at the offset of `COEF[c][k]`, and the read that follows reads that word. -/
theorem coefWriteStores : Obligations.CoefWriteStores := by
  intro s c k v rest hc hk off
  have hoff : off.toNat = 0x10000 + 4 * (c * 4096 + k) := Nat.mod_eq_of_lt (by omega)
  clear_value off
  have hcoef : 0x10000 ≤ off.toNat ∧ off.toNat < 0x30000 := by omega
  have hram : InRam off.toNat := .inl hcoef
  have hlegal : LegalAccess off 4 := ⟨rfl, by omega, .inr hram⟩
  have hcmd : off ≠ cmdOffset := by rintro rfl; exact absurd hcoef (by decide)
  have hword : (s.mem.writeWords off.toNat [v]).readWord off.toNat = v :=
    Memory.readWord_writeWords_inside s.mem off.toNat [v] 0 Nat.one_pos
  refine ⟨{ s with pending := rest, mem := s.mem.writeWords off.toNat [v] }, ?_, rfl, ?_, ?_, ?_⟩
  · rw [step_write hlegal hcmd, State.writeAperture_coef _ hcoef]
  · exact (congrArg _ hoff.symm).trans hword
  · exact fun a ha => Memory.readByte_writeWords_outside _ _ _ _ (hoff ▸ ha)
  · rw [step_read hlegal, State.readAperture_ram _ hram, hword]

/-- Settles O21: a write elsewhere than `CMD` and `COEF` is `writeAperture_readOnly`; `CMD` and the reserved registers are registers that
read 0. -/
theorem readOnlyWritesIgnored : Obligations.ReadOnlyWritesIgnored := by
  refine ⟨fun s off v rest hlegal hcmd hcoef => ?_, fun s off rest h4 hoff => ?_⟩
  · rw [step_write hlegal hcmd, State.writeAperture_readOnly _ hcoef]
  · have hzero : s.readRegister off = 0 := by
      obtain rfl | ⟨hres, -⟩ := hoff
      · rfl
      · exact s.readRegister_reserved hres
    have hreg : off.toNat < 0x100 := by
      obtain rfl | ⟨-, hlt⟩ := hoff
      · decide
      · exact hlt
    rw [step_readRegister s off rest hreg h4, hzero]

end Sys2Proof.Machine
end

section
/-!
PROOFS. Several instances (20_memory.md R70, R91): which instance a host address reaches, and that a run of a platform is each instance's run
alone.
-/

namespace Sys2Proof.Machine

variable {P : Params}

/-! ### Addresses (R70) -/

/-- Apertures that do not overlap have no host address in common. -/
theorem offsetOfHost?_of_apart {b c : Nat} (h : ApertureApart b c) (off : Offset) : offsetOfHost? b (hostAddress c off) = none := by
  rw [offsetOfHost?_eq_none, hostAddress]
  have := off.isLt
  simp only [ApertureApart, Config.apertureBytes] at h ⊢
  omega

/-- The host address of an offset of an instance's aperture reaches that instance at that offset. -/
theorem locate?_hostAddress {is : List Instance} (hp : is.Pairwise fun i j => ApertureApart i.base j.base) {k : Nat} {i : Instance}
    (hk : is[k]? = some i) (off : Offset) : locate? (hostAddress i.base off) is = some (k, off) := by
  induction is generalizing k with
  | nil => cases hk
  | cons i0 is ih =>
    obtain ⟨h0, hp⟩ := List.pairwise_cons.1 hp
    cases k with
    | zero =>
      cases hk
      rw [locate?, offsetOfHost?_eq_some.2 rfl]
    | succ k =>
      rw [List.getElem?_cons_succ] at hk
      rw [locate?, offsetOfHost?_of_apart (h0 i (List.mem_of_getElem? hk)), ih hp hk]
      rfl

/-- An access that reaches an instance is the last event of that instance, which moves last. -/
theorem Platform.request_of_locate? {p : Platform} {a : HostAccess} {k : Nat} {i : Instance} {off : Offset} (hk : p.instances[k]? = some i)
    (h : locate? a.address p.instances = some (k, off)) :
    p.request a = { instances := p.instances.set k (i.enqueue (a.event off)), schedule := p.schedule ++ [k] } := by
  simp only [Platform.request, h, List.modify_eq_set_getElem?, hk]
  rfl

/-- An access leaves every instance but the one it reaches as it is. -/
theorem Platform.getElem?_request (p : Platform) (a : HostAccess) {k : Nat} (h : ∀ off, locate? a.address p.instances ≠ some (k, off)) :
    (p.request a).instances[k]? = p.instances[k]? := by
  unfold Platform.request
  split
  · rfl
  · rename_i m off hm
    exact List.getElem?_modify_ne _ _ fun (e : m = k) => h off (e ▸ hm)

/-- Settles O15: offsets and addresses by `offsetOfHost?_eq_some`, routing by `locate?_hostAddress`. -/
theorem apertureAddresses : Obligations.ApertureAddresses := by
  refine ⟨fun base => ⟨fun off => offsetOfHost?_eq_some.2 rfl, fun address off h => (offsetOfHost?_eq_some.1 h).symm,
    fun address => offsetOfHost?_eq_none⟩, fun p hp => ⟨fun k i off hk => locate?_hostAddress hp hk off, fun address => ?_,
    fun k i off width v hk => ?_⟩⟩
  · simp only [locate?_eq_none, offsetOfHost?_eq_none, Config.apertureBytes]
  · have hloc := locate?_hostAddress hp hk off
    exact ⟨Platform.request_of_locate? (a := .read _ width) hk hloc, Platform.request_of_locate? (a := .write _ width v) hk hloc⟩

/-! ### Runs (R91) -/

theorem Instance.runWith_succ {i j : Instance} (h : i.stepWith P = .next j) (n : Nat) : i.runWith P (n + 1) = j.runWith P n := by
  rw [Instance.runWith, h]

/-- An instance whose run does not stop makes its first step. -/
theorem Instance.stepWith_of_runWith {i j : Instance} {n : Nat} (h : i.runWith P (n + 1) = .next j) : ∃ i', i.stepWith P = .next i' := by
  unfold Instance.runWith at h
  split at h
  · exact ⟨_, ‹_›⟩
  · cases h
  · cases h

theorem Platform.runWith_succ {p q : Platform} (h : p.stepWith P = .next q) (n : Nat) : p.runWith P (n + 1) = q.runWith P n := by
  rw [Platform.runWith, h]

/-- A platform whose run does not stop makes its first step. -/
theorem Platform.stepWith_of_runWith {p q : Platform} {n : Nat} (h : p.runWith P (n + 1) = .next q) : ∃ p', p.stepWith P = .next p' := by
  unfold Platform.runWith at h
  split at h
  · exact ⟨_, ‹_›⟩
  · cases h
  · cases h

/-- A platform's step is refused only where the instance whose turn it is is refused alone. -/
theorem Platform.stepWith_next {p : Platform}
    (h : ∀ k rest i, p.schedule = k :: rest → p.instances[k]? = some i → ∃ j, i.stepWith P = .next j) : ∃ q, p.stepWith P = .next q := by
  cases hs : p.schedule with
  | nil => simp [Platform.stepWith, hs]
  | cons k rest =>
    cases hk : p.instances[k]? with
    | none => simp [Platform.stepWith, hs, hk]
    | some i =>
      obtain ⟨j, hj⟩ := h k rest i hs hk
      simp [Platform.stepWith, hs, hk, hj]

/-- How many of the next `n` turns of a platform are instance `k`'s (log 22). -/
def Platform.turns (p : Platform) (n k : Nat) : Nat := (p.schedule.take n).count k

/-- One step of a platform keeps the number of instances, and what is left of each instance's own run is the run of what the step left of it:
the instance whose turn it was has made its first step, and every other is as it was. -/
theorem Platform.stepWith_turns {p q : Platform} (h : p.stepWith P = .next q) :
    q.instances.length = p.instances.length ∧
    ∀ (k : Nat) (i : Instance), p.instances[k]? = some i →
      ∃ j, q.instances[k]? = some j ∧ ∀ n, i.runWith P (p.turns (n + 1) k) = j.runWith P (q.turns n k) := by
  obtain ⟨hs, rfl⟩ | ⟨m, rest, hs, hm, rfl⟩ | ⟨m, rest, i0, j0, hs, hm, hj, rfl⟩ := Platform.stepWith_cases h
  · exact ⟨rfl, fun k i hk => ⟨i, hk, fun n => by simp [Platform.turns, hs]⟩⟩
  · refine ⟨rfl, fun k i hk => ⟨i, hk, fun n => ?_⟩⟩
    have hne : m ≠ k := by rintro rfl; rw [hm] at hk; cases hk
    simp [Platform.turns, hs, hne]
  · refine ⟨List.length_set, fun k i hk => ?_⟩
    by_cases hmk : m = k
    · subst hmk
      obtain ⟨hlt, -⟩ := List.getElem?_eq_some_iff.1 hm
      cases hm.symm.trans hk
      refine ⟨j0, List.getElem?_set_self hlt, fun n => ?_⟩
      simp only [Platform.turns, hs, List.take_succ_cons, List.count_cons_self]
      exact Instance.runWith_succ hj _
    · exact ⟨i, (List.getElem?_set_ne hmk).trans hk, fun n => by simp [Platform.turns, hs, hmk]⟩

/-- A run of a platform keeps the number of instances and takes each instance where its own turns take it alone. -/
theorem Platform.runWith_instances {p q : Platform} {n : Nat} (h : p.runWith P n = .next q) :
    q.instances.length = p.instances.length ∧
    ∀ (k : Nat) (i : Instance), p.instances[k]? = some i → ∃ j, i.runWith P (p.turns n k) = .next j ∧ q.instances[k]? = some j := by
  induction n generalizing p with
  | zero =>
    cases h
    exact ⟨rfl, fun k i hk => ⟨i, by rfl, hk⟩⟩
  | succ n ih =>
    obtain ⟨p', hp'⟩ := Platform.stepWith_of_runWith h
    obtain ⟨hlen, hturns⟩ := Platform.stepWith_turns hp'
    obtain ⟨hlen', hrun⟩ := ih ((Platform.runWith_succ hp' n).symm.trans h)
    refine ⟨hlen'.trans hlen, fun k i hk => ?_⟩
    obtain ⟨i', hk', hi'⟩ := hturns k i hk
    rw [hi' n]
    exact hrun k i' hk'

/-- A run of a platform comes to its end where each instance's own turns do alone. -/
theorem Platform.runWith_next {p : Platform} {n : Nat}
    (h : ∀ (k : Nat) (i : Instance), p.instances[k]? = some i → ∃ j, i.runWith P (p.turns n k) = .next j) :
    ∃ q, p.runWith P n = .next q := by
  induction n generalizing p with
  | zero => exact ⟨p, rfl⟩
  | succ n ih =>
    obtain ⟨p', hp'⟩ : ∃ p', p.stepWith P = .next p' := by
      refine Platform.stepWith_next fun k rest i hs hk => ?_
      obtain ⟨j, hj⟩ := h k i hk
      rw [Platform.turns, hs, List.take_succ_cons, List.count_cons_self] at hj
      exact Instance.stepWith_of_runWith hj
    rw [Platform.runWith_succ hp']
    obtain ⟨hlen, hturns⟩ := Platform.stepWith_turns hp'
    refine ih fun k i' hk' => ?_
    have hlt : k < p.instances.length := hlen ▸ (List.getElem?_eq_some_iff.1 hk').1
    obtain ⟨j, hj, hrun⟩ := hturns k _ (List.getElem?_eq_getElem hlt)
    cases hj.symm.trans hk'
    rw [← hrun n]
    exact h k _ (List.getElem?_eq_getElem hlt)

/-- Settles O60: an access by `getElem?_request`, runs by induction on the steps, each of which is one of one instance alone. -/
theorem instancesArePrivate : Obligations.InstancesArePrivate :=
  ⟨fun p a _ h => p.getElem?_request a h, fun _ _ _ _ => Platform.runWith_instances, fun _ _ _ => Platform.runWith_next⟩

end Sys2Proof.Machine
end

section
/-!
PROOFS. The encoding (30_encoding.md R100 to R109): a word is the command word of its fields, decoding and encoding undo each other, and the
rows of R103, the reserved opcodes of R105 and a step at a command word follow from that.
-/

namespace Sys2Proof

open Sys2Proof.Machine Sys2Proof.Reference

/-! ### Decoding and encoding (R102, R107, R108) -/

theorem guardReserved_eq_ok {w : Word} {zero : Bool} {i j : Instr} : guardReserved w zero i = .ok j ↔ zero = true ∧ i = j := by
  cases zero <;> simp [guardReserved]

theorem decode_encode {i : Instr} (h : i.WellFormed) : decode (encode i) = .ok i := by
  cases i with
  | config b8 n | zeroCoef n | imdct n _ =>
    have hn : n % 16 = n := Nat.mod_eq_of_lt h
    simp [decode, encode, guardReserved_eq_ok, hn]
  | nop | zeroAll | ola | block _ | restart | softReset => simp [decode, encode, guardReserved_eq_ok]

/-- A word with no reserved bit set is the command word of its other four fields. -/
theorem commandWord_fields {w : Word} (h : rsvField w = 0) :
    commandWord (opField w) (arg8Field w) (arg4Field w) (flagField w) = w :=
  eq_of_fields (by simp) (by simp) (by simp) (by simp) (by simp [h])

theorem encode_of_decode {w : Word} {i : Instr} (h : decode w = .ok i) : i.WellFormed ∧ encode i = w := by
  have harg4 : (arg4Field w).toNat < arg4Values := (arg4Field w).isLt
  simp only [decode] at h
  split at h
  case h_10 => cases h
  all_goals
    rename_i hop
    obtain ⟨hfields, rfl⟩ := guardReserved_eq_ok.1 h
    simp only [decide_eq_true_eq] at hfields
    have hw := commandWord_fields (w := w) (by simp [hfields])
    simp only [hfields, (BitVec.toNat_eq_nat.1 hop).2] at hw
    exact ⟨by simp [Instr.WellFormed, harg4], by simpa [encode] using hw⟩

theorem decodeBytes_bytesOfWord (w : Word) : decodeBytes (bytesOfWord w) = decode w :=
  congrArg decode (wordOfBytes_bytes w)

/-- The opcode table numbers a word by its value. -/
theorem decodeTableWord_toNat (w : Word) : decodeTableWord 32 w.toNat = (decode w).toOption := by
  rw [decodeTableWord, Nat.mod_eq_of_lt w.isLt, BitVec.ofNat_toNat, BitVec.setWidth_eq, decodeBytes_bytesOfWord]

/-- Settles O3: `decode_encode`, `encode_of_decode`, and the bytes and the number of a word decode as the word does. -/
theorem decodeEncodeAgree : Obligations.DecodeEncodeAgree := by
  refine ⟨fun i hi => ?_, fun w i => encode_of_decode⟩
  have h := decode_encode hi
  exact ⟨h, (decodeBytes_bytesOfWord _).trans h, by rw [decodeTableWord_toNat, h]; rfl⟩

/-! ### The rows of the opcode table (R103) -/

/-- A command of the same row, with the operands that a word's fields hold (R102). -/
def Instr.withOperands (w : Word) : Instr → Instr
  | .config _ _ => .config (arg8Field w) (arg4Field w).toNat
  | .zeroCoef _ => .zeroCoef (arg4Field w).toNat
  | .imdct _ _ => .imdct (arg4Field w).toNat (BlockFlag.ofBit (flagField w))
  | .block _ => .block (BlockFlag.ofBit (flagField w))
  | i => i

theorem rowOf_withOperands (w : Word) (i : Instr) : rowOf (i.withOperands w) = rowOf i := by cases i <;> rfl

theorem wellFormed_withOperands (w : Word) (i : Instr) : (i.withOperands w).WellFormed := by
  cases i with
  | config _ _ | zeroCoef _ | imdct _ _ => exact (arg4Field w).isLt
  | nop | zeroAll | ola | block _ | restart | softReset => trivial

/-- A well-formed command's word holds its operands. -/
theorem withOperands_encode {i : Instr} (h : i.WellFormed) : i.withOperands (encode i) = i := by
  cases i with
  | config _ n | zeroCoef n | imdct n _ =>
    have hn : n % 16 = n := Nat.mod_eq_of_lt h
    simp [Instr.withOperands, encode, hn]
  | block _ => simp [Instr.withOperands, encode]
  | nop | zeroAll | ola | restart | softReset => rfl

theorem eq_iff_fields (w v : Word) : w = v ↔ opField w = opField v ∧ arg8Field w = arg8Field v ∧ arg4Field w = arg4Field v ∧
    flagField w = flagField v ∧ rsvField w = rsvField v :=
  ⟨by rintro rfl; simp, fun ⟨h1, h2, h3, h4, h5⟩ => eq_of_fields h1 h2 h3 h4 h5⟩

/-- The bits that a row fixes, field by field (R101). -/
theorem selects_iff_fields (w : Word) (r : Word × Word) :
    Selects w r ↔ opField w &&& opField r.2 = opField r.1 ∧ arg8Field w &&& arg8Field r.2 = arg8Field r.1 ∧
      arg4Field w &&& arg4Field r.2 = arg4Field r.1 ∧ flagField w &&& flagField r.2 = flagField r.1 ∧
      rsvField w &&& rsvField r.2 = rsvField r.1 := by
  simp only [Selects, eq_iff_fields, opField, arg8Field, arg4Field, flagField, rsvField, BitVec.extractLsb'_and]

/-- A word selects a row when it is the word of that row's command with the operands that it holds itself. -/
theorem selects_rowOf_iff (w : Word) (i : Instr) : Selects w (rowOf i) ↔ encode (i.withOperands w) = w := by
  have h8 (x : BitVec 8) : x &&& 255#8 = x := BitVec.and_allOnes
  have h4 (x : BitVec 4) : x &&& 15#4 = x := BitVec.and_allOnes
  have h1 (x : BitVec 1) : x &&& 1#1 = x := BitVec.and_allOnes
  have h11 (x : BitVec 11) : x &&& 2047#11 = x := BitVec.and_allOnes
  rw [selects_iff_fields, eq_comm (a := encode _), eq_iff_fields]
  cases i
  all_goals
    simp only [rowOf, encode, Instr.withOperands, opField_commandWord, arg8Field_commandWord, arg4Field_commandWord, flagField_commandWord,
      rsvField_commandWord, BitVec.ofNat_toNat, BitVec.setWidth_eq]
    simp [opField, arg8Field, arg4Field, flagField, rsvField, h8, h4, h1, h11]

/-- A word that selects a row decodes to that row's command with the operands that it holds (R103, R107). -/
theorem decode_of_selects {w : Word} {i : Instr} (h : Selects w (rowOf i)) : decode w = .ok (i.withOperands w) := by
  have hd := decode_encode (wellFormed_withOperands w i)
  rwa [(selects_rowOf_iff w i).1 h] at hd

/-- Settles O4: by `selects_rowOf_iff`, selecting a row and decoding to a command of the row are one. -/
theorem rowsSelectCommands : Obligations.RowsSelectCommands := by
  refine ⟨fun w i h => ?_, fun w j h => ⟨_, decode_of_selects h, rowOf_withOperands w j⟩, fun w i j hi hj => ?_⟩
  · obtain ⟨hwf, rfl⟩ := encode_of_decode h
    rw [selects_rowOf_iff, withOperands_encode hwf]
  · have hij : i.withOperands w = j.withOperands w := Except.ok.inj ((decode_of_selects hi).symm.trans (decode_of_selects hj))
    rw [← rowOf_withOperands w i, hij, rowOf_withOperands]

end Sys2Proof

namespace Sys2Proof.Machine

open Sys2Proof.Reference

/-! ### Words written out (R103, R104) -/

/-- Settles O1: the nine words are those of their commands; the three others are evaluated. -/
theorem decodeSpecWords : Obligations.DecodeSpecWords :=
  ⟨decode_encode (i := .nop) trivial, decode_encode (i := .config 0xB8 2) (by decide), decode_encode (i := .zeroCoef 1) (by decide),
    decode_encode (i := .zeroAll) trivial, decode_encode (i := .imdct 7 .long) (by decide), decode_encode (i := .ola) trivial,
    decode_encode (i := .block .long) trivial, decode_encode (i := .restart) trivial, decode_encode (i := .softReset) trivial,
    by decide, by decide, by decide⟩

/-! ### Illegal words (R105, R107) -/

theorem execWord_of_tableDecode_none {w : Word} (h : tableDecode w = none) (s : State) :
    execWord w s = .next (raiseError .illegalCmd w s) := by
  obtain ⟨t, ht⟩ := execWord_next w s
  obtain ⟨-, rfl⟩ | ⟨i, hi, -⟩ := execWord_cases ht
  · exact ht
  · rw [h] at hi; cases hi

/-- Settles O2: `toOption_decode` and the execution of a word that the table calls `Illegal`. -/
theorem decodeFollowsTable : Obligations.DecodeFollowsTable :=
  ⟨toOption_decode, fun s _ h => execWord_of_tableDecode_none h s⟩

/-- A reserved opcode is that of no row (R105). -/
theorem tableDecode_reservedOpcode {w : Word} (h : (0x08 ≤ w.toNat % 256 ∧ w.toNat % 256 ≤ 0x0E) ∨ 0x10 ≤ w.toNat % 256) :
    tableDecode w = none := by
  unfold tableDecode
  iterate 9 rw [if_neg (by omega)]

theorem decode_eq_nop_iff {w : Word} : decode w = .ok .nop ↔ w = 0x00000000 := by
  constructor
  · intro h
    exact (encode_of_decode h).2.symm
  · rintro rfl
    exact decode_encode (i := .nop) trivial

theorem State.pollStatus_zero (s : State) : s.pollStatus 0 = s := by
  simp [State.pollStatus]

/-- Settles O5: a word with a reserved opcode decodes to nothing, so that `step_command` runs `ILLEGAL_CMD`'s record. -/
theorem reservedOpcodesIllegal : Obligations.ReservedOpcodesIllegal := by
  refine ⟨fun s w rest hop hf => ?_, fun w => decode_eq_nop_iff⟩
  obtain ⟨t, ht, hstep⟩ := step_command w 0 rest hf
  rw [State.pollStatus_zero, execWord_of_tableDecode_none (tableDecode_reservedOpcode hop)] at ht
  cases ht
  exact hstep

/-! ### `CONFIGSZ` (R109) -/

theorem exactLog2?_eq_some {n e : Nat} : Assembler.exactLog2? n = some e ↔ n = 2 ^ e := by
  unfold Assembler.exactLog2?
  constructor
  · intro h
    obtain ⟨hn, he⟩ := Option.ite_none_right_eq_some.1 h
    cases he
    exact hn.symm
  · rintro rfl
    simp [Nat.log2_two_pow]

/-- Two exponents that fit a nibble are packed side by side (R135). -/
theorem packed_exponents {e0 : Nat} (h : e0 < 16) (e1 : Nat) : e1 <<< 4 ||| e0 = 16 * e1 + e0 := by
  rw [← Nat.shiftLeft_add_eq_or_of_lt (i := 4) h, Nat.shiftLeft_eq, Nat.mul_comm]

/-- Settles O6: both sizes have an exact logarithm, the ranges are checked, and the byte is `packed_exponents`. -/
theorem configSzAssembles : Obligations.ConfigSzAssembles := by
  intro short long nch i
  simp only [Assembler.configSz?, Option.bind_eq_bind, Option.bind_eq_some_iff, exactLog2?_eq_some,
    Option.ite_none_right_eq_some]
  constructor
  · rintro ⟨e0, hshort, e1, hlong, ⟨h0, h1, hn⟩, hi⟩
    cases hi
    exact ⟨e0, e1, h0, h1, hn, hshort, hlong, by rw [packed_exponents h0]⟩
  · rintro ⟨e0, e1, h0, h1, hn, hshort, hlong, rfl⟩
    exact ⟨e0, hshort, e1, hlong, ⟨h0, h1, hn⟩, by rw [packed_exponents h0]⟩

/-! ### A step at a command word (R37, R110) -/

theorem execWord_of_decode {w : Word} {i : Instr} (h : decode w = .ok i) (s : State) : execWord w s = exec i s := by
  simp [execWord, h]

/-- A command word that decodes runs from the state it meets, and `BUSY` is cleared after it. -/
theorem step_decoded {s : State} {w : Word} {i : Instr} (hf : s.status.failed = false) (h : decode w = .ok i) (polls : Nat)
    (rest : List HostEvent) :
    ∃ t, exec i (begun s rest polls) = .next t ∧ step { s with pending := .command w polls :: rest } = .next (ended t) := by
  obtain ⟨t, ht, hstep⟩ := step_command w polls rest hf
  exact ⟨t, (execWord_of_decode h _).symm.trans ht, hstep⟩

/-- A 32-bit write of `CMD` is a command with no reads placed during it (R35; log 3). -/
theorem step_writeCmd (s : State) (w : Word) (rest : List HostEvent) :
    step { s with pending := .write 0x004 4 w :: rest } = step { s with pending := .command w 0 :: rest } := rfl

theorem withFetchWord_toNat (s : State) (w : Word) : s.withFetchWord 32 w.toNat = { s with pending := .command w 0 :: s.pending } := by
  rw [State.withFetchWord, tableWordEvent, Nat.mod_eq_of_lt w.isLt, BitVec.ofNat_toNat, BitVec.setWidth_eq]

/-- Settles O7: `step_decoded`; a write of `CMD` and `withFetchWord` are the event `command` without polls. -/
theorem stepRunsCommand : Obligations.StepRunsCommand := by
  intro s w polls rest i hf hd
  obtain ⟨t, ht, hstep⟩ := step_decoded hf hd 0 rest
  refine ⟨step_decoded hf hd polls rest, t, ht, (step_writeCmd s w rest).trans hstep, ?_⟩
  rw [withFetchWord_toNat]
  exact hstep

end Sys2Proof.Machine
end

section
/-!
PROOFS. `CONFIG` (40_setup.md R130 to R149): the registers and RAMs it writes, and the entries of the tables that are not rounded real numbers.
-/

namespace Sys2Proof.Machine

open Sys2Proof.Reference

variable {P : Params}

/-! ### The LUT storage (R134) -/

/-- Settles O27: the invariants give the legal sizes under which `step_lutBuilt` holds. -/
theorem stepKeepsLut : Obligations.StepKeepsLut := fun _ _ hinv hbuilt hstep => step_lutBuilt hinv.legal hbuilt hstep

/-- A `CONFIG` that passes the checks of R253 ends in `configure`. -/
theorem exec_config {b8 : Byte} {nch : Nat} {s : State} (h : firstError (.config b8 nch) s = none) :
    configError? b8 nch = none ∧ exec (.config b8 nch) s = .next (configure b8 nch s) := by
  rw [firstError_config] at h
  exact ⟨h, exec_eq_execWith ▸ execConfig_ok h s⟩

/-- Settles O31: `CONFIG`'s memory does not depend on the state, and the LUTs are no window of another command. -/
theorem lutImmutable : Obligations.LutImmutable := by
  refine ⟨fun b8 nch s s' h => ?_, fun i s t hl hx hi a h1 h2 => ?_⟩
  · exact ⟨_, _, (exec_config h).2, (exec_config (s := s') h).2, fun _ _ _ => rfl⟩
  · exact execWith_frame hl (exec_eq_execWith ▸ hx) (not_writes_lut hi h1 h2)

/-! ### The registers (R132) -/

theorem configure_exponent (b8 : Byte) (nch : Nat) (s : State) (f : BlockFlag) : (configure b8 nch s P).exponent f = expOf b8 f := by
  rw [expOf_eq]; cases f <;> rfl

theorem configure_nch {b8 : Byte} {nch : Nat} (h : configError? b8 nch = none) (s : State) : (configure b8 nch s P).nch = nch := by
  obtain ⟨-, -, -, -, h8⟩ := (configError?_none_iff b8 nch).1 h
  exact Nat.mod_eq_of_lt (by omega)

/-- Settles O29: each register is a field of `configure`, or is computed from its fields. -/
theorem configWritesRegisters : Obligations.ConfigWritesRegisters := by
  intro b8 nch s h
  obtain ⟨hc, hx⟩ := exec_config h
  have hE := configure_exponent (P := .default) b8 nch s
  have hN := configure_nch (P := .default) hc s
  have hword : (configure b8 nch s).configRb.word.toNat = b8.toNat % 16 + 16 * (b8.toNat / 16) + 256 * nch := by
    rw [ConfigRb.toNat_word]
    exact congrArg₂ _ (congrArg₂ (· + 16 * ·) (hE .short) (hE .long)) (congrArg _ hN)
  have hsize (f : BlockFlag) : (configure b8 nch s).blockSizeWord f = BitVec.ofNat 32 (2 ^ expOf b8 f) := by
    rw [State.blockSizeWord, State.blockSize, hE]; rfl
  exact ⟨_, hx, hE .short, hE .long, hN, hword, hsize .short, hsize .long, rfl, rfl, by simp [State.outTotal], rfl, rfl, rfl, rfl, rfl⟩

/-! ### The RAMs (R133) -/

section Config
variable {b8 : Byte} {nch : Nat} (h : configError? b8 nch = none) (s : State)
include h

theorem configure_readByte_ram {a : Nat} (ha : a < 0x90000 ∨ 0xB0000 ≤ a) : (configure b8 nch s P).mem.readByte a = 0 := by
  obtain ⟨-, h2, h3, -, -⟩ := (configError?_none_iff b8 nch).1 h
  exact readByte_setupMemory_outside (h2.trans h3) h3 a ha

theorem configure_readWord_ram {a : Nat} (ha : a + 4 ≤ 0x90000 ∨ 0xB0000 ≤ a) : (configure b8 nch s P).mem.readWord a = 0x00000000 :=
  (Memory.readWord_congr fun i hi => configure_readByte_ram h s (by omega)).trans (readWord_cleared a)

end Config

/-- Settles O30: the RAM windows lie outside the LUTs, where `CONFIG` leaves zeros. -/
theorem configClearsRams : Obligations.ConfigClearsRams := by
  intro b8 nch s h
  obtain ⟨hc, hx⟩ := exec_config h
  obtain ⟨-, h2, h3, -, -⟩ := (configError?_none_iff b8 nch).1 hc
  refine ⟨_, hx, fun c k hc' hk => configure_readWord_ram hc s ?_, fun c j hc' hj => configure_readWord_ram hc s ?_,
    fun c i hc' hi => configure_readWord_ram hc s ?_, fun i hi => ?_, rfl, wf_setupMemory (h2.trans h3) h3⟩
  · simp only [coefAddr, Config.coefDepth]; omega
  · simp only [blkAddr, Config.blkDepth]; omega
  · simp only [prevAddr, Config.prevDepth]; omega
  · rw [State.pcm, configure_readByte_ram hc s (by simp only [pcmAddr]; omega), configure_readByte_ram hc s (by simp only [pcmAddr]; omega)]
    rfl

/-! ### The bit-reversal tables (R143) -/

/-- Bit `b-1-j` of `bitrev_b(i)` is bit `j` of `i`. -/
theorem testBit_bitrev {b j : Nat} (hj : j < b) (i : Nat) : (Lut.bitrev b i).testBit (b - 1 - j) = i.testBit j := by
  induction b generalizing i j with
  | zero => omega
  | succ b ih =>
    rw [Lut.bitrev, Nat.mul_comm, Nat.testBit_two_pow_mul_add _ (bitrev_lt b _)]
    cases j with
    | zero => simp [Nat.testBit_zero]
    | succ j =>
      rw [if_pos (by omega), show b + 1 - 1 - (j + 1) = b - 1 - j by omega, ih (by omega), ← Nat.testBit_succ]

/-- Settles O34: the words of the table are `bitrev`. -/
theorem configBitReversal : Obligations.ConfigBitReversal := by
  intro b8 nch s h
  obtain ⟨hc, hx⟩ := exec_config h
  obtain ⟨-, h2, h3, -, -⟩ := (configError?_none_iff b8 nch).1 hc
  refine ⟨_, hx, fun f i hi => ?_⟩
  obtain ⟨h6, h13⟩ := expOf_bounds hc f
  have hM := Lut.fftSize_le h13
  rw [two_pow_div_four (by omega)] at hi
  have hword : ((configure b8 nch s).mem.readWord (brAddr f i)).toNat = Lut.bitrev (expOf b8 f - 2) i := by
    have hlt := bitrev_lt (expOf b8 f - 2) i
    rw [configure_mem, readWord_setupMemory_br (h2.trans h3) h3 f i (by omega), ← expOf_eq, if_pos hi, BitVec.toNat_ofNat]
    exact Nat.mod_eq_of_lt (by unfold Lut.fftSize at *; omega)
  intro B r
  have hr : r = Lut.bitrev B i := hword
  exact ⟨by omega, by omega, hr ▸ bitrev_lt B i, fun j hj => hr ▸ testBit_bitrev hj i⟩

/-! ### The entries beyond the configured sizes (R144, R149) -/

theorem configure_win_tail {b8 : Byte} {nch : Nat} (h : configError? b8 nch = none) (s : State) (pf cf : BlockFlag) {k : Nat}
    (hL : slopeOf b8 pf cf ≤ k) (hk : k < 4096) : (configure b8 nch s P).winWord pf cf k = 0 := by
  obtain ⟨-, h2, h3, -, -⟩ := (configError?_none_iff b8 nch).1 h
  rw [State.winWord, configure_mem, readWord_setupMemory_win (h2.trans h3) h3 pf cf k hk, ← expOf_eq, ← expOf_eq]
  exact if_neg hL.not_gt

/-- Settles O35: beyond its table's length, every entry's law says zero. -/
theorem configTableTails : Obligations.ConfigTableTails := by
  intro b8 nch s h
  obtain ⟨hc, hx⟩ := exec_config h
  obtain ⟨-, h2, h3, -, -⟩ := (configError?_none_iff b8 nch).1 hc
  have h0 := h2.trans h3
  have hM (f : BlockFlag) : 2 ^ expOf b8 f / 4 = Lut.fftSize (expOf b8 f) := two_pow_div_four (by have := (expOf_bounds hc f).1; omega)
  refine ⟨_, hx, fun f m hm hm' => ?_, fun f k hk hk' => ?_, fun pf cf k => configure_win_tail hc s pf cf⟩
  · rw [hM] at hm
    rw [configure_mem, readWord_setupMemory_rotc h0 h3 f m hm', readWord_setupMemory_rots h0 h3 f m hm', readWord_setupMemory_br h0 h3 f m hm',
      ← expOf_eq, if_neg hm.not_gt, if_neg hm.not_gt, if_neg hm.not_gt]
    exact ⟨rfl, rfl, rfl⟩
  · rw [hM] at hk
    rw [configure_mem, readWord_setupMemory_twc h0 h3 f k hk', readWord_setupMemory_tws h0 h3 f k hk', ← expOf_eq, if_neg hk.not_gt,
      if_neg hk.not_gt]
    exact ⟨rfl, rfl⟩

/-! ### What the tables depend on (R148) -/

section Congr
variable {b8 b8' : Byte} {nch nch' : Nat} (h : configError? b8 nch = none) (h' : configError? b8' nch' = none) (s s' : State)
include h h'

/-- Each word of a bank is an entry of one of its five tables, which the exponent decides. -/
theorem configure_bank_congr {f f' : BlockFlag} (hf : expOf b8 f = expOf b8' f') {i : Nat} (hi : i < 0x2000) :
    (configure b8 nch s P).mem.readWord (bankAddr f + 4 * i) = (configure b8' nch' s' P).mem.readWord (bankAddr f' + 4 * i) := by
  obtain ⟨-, h2, h3, -, -⟩ := (configError?_none_iff b8 nch).1 h
  obtain ⟨-, h2', h3', -, -⟩ := (configError?_none_iff b8' nch').1 h'
  have h0 := h2.trans h3
  have h0' := h2'.trans h3'
  rw [expOf_eq, expOf_eq] at hf
  rw [configure_mem, configure_mem]
  rcases Nat.lt_or_ge i 0x1000 with hrot | hge
  · rcases Nat.mod_two_eq_zero_or_one i with he | ho
    · have e (g : BlockFlag) : bankAddr g + 4 * i = rotcAddr g (i / 2) := by unfold rotcAddr; omega
      rw [e, e, readWord_setupMemory_rotc h0 h3 f _ (by omega), readWord_setupMemory_rotc h0' h3' f' _ (by omega), hf]
    · have e (g : BlockFlag) : bankAddr g + 4 * i = rotsAddr g (i / 2) := by unfold rotsAddr; omega
      rw [e, e, readWord_setupMemory_rots h0 h3 f _ (by omega), readWord_setupMemory_rots h0' h3' f' _ (by omega), hf]
  · rcases Nat.lt_or_ge i 0x1800 with htw | hbr
    · rcases Nat.mod_two_eq_zero_or_one i with he | ho
      · have e (g : BlockFlag) : bankAddr g + 4 * i = twcAddr g ((i - 0x1000) / 2) := by unfold twcAddr; omega
        rw [e, e, readWord_setupMemory_twc h0 h3 f _ (by omega), readWord_setupMemory_twc h0' h3' f' _ (by omega), hf]
      · have e (g : BlockFlag) : bankAddr g + 4 * i = twsAddr g ((i - 0x1000) / 2) := by unfold twsAddr; omega
        rw [e, e, readWord_setupMemory_tws h0 h3 f _ (by omega), readWord_setupMemory_tws h0' h3' f' _ (by omega), hf]
    · have e (g : BlockFlag) : bankAddr g + 4 * i = brAddr g (i - 0x1800) := by unfold brAddr; omega
      rw [e, e, readWord_setupMemory_br h0 h3 f _ (by omega), readWord_setupMemory_br h0' h3' f' _ (by omega), hf]

theorem configure_win_congr {pf cf pf' cf' : BlockFlag} (hL : slopeOf b8 pf cf = slopeOf b8' pf' cf') {k : Nat} (hk : k < 4096) :
    (configure b8 nch s P).winWord pf cf k = (configure b8' nch' s' P).winWord pf' cf' k := by
  obtain ⟨-, h2, h3, -, -⟩ := (configError?_none_iff b8 nch).1 h
  obtain ⟨-, h2', h3', -, -⟩ := (configError?_none_iff b8' nch').1 h'
  rw [State.winWord, State.winWord, configure_mem, configure_mem, readWord_setupMemory_win (h2.trans h3) h3 pf cf k hk,
    readWord_setupMemory_win (h2'.trans h3') h3' pf' cf' k hk, ← expOf_eq, ← expOf_eq, ← expOf_eq, ← expOf_eq, ← slopeOf_eq,
    ← slopeOf_eq, hL]

end Congr

/-- The last entry of a window is not zero: the eight entries, evaluated. -/
theorem last_window_word_ne_zero {e : Nat} (h6 : 6 ≤ e) (h13 : e ≤ 13) : Lut.word (.win (2 ^ e / 2) (2 ^ e / 2 - 1)) ≠ 0 := by
  interval_cases e <;> decide +kernel

/-- Settles O38: banks and shapes by their words; and shape 3's last entry lies beyond the slope of shape 0. -/
theorem tablesDependOnSizes : Obligations.TablesDependOnSizes := by
  intro b8 b8' nch nch' s s' h h'
  obtain ⟨hc, hx⟩ := exec_config h
  obtain ⟨hc', hx'⟩ := exec_config h'
  refine ⟨_, _, hx, hx', fun f f' hf a ha => ?_, fun pf cf pf' cf' hL k hk => configure_win_congr hc hc' s s' hL hk, fun hlt => ?_⟩
  · have e (g : BlockFlag) : bankAddr g + a = bankAddr g + 4 * (a / 4) + a % 4 := by omega
    rw [e, e, ← Memory.extractLsb'_readWord _ _ (Nat.mod_lt a (by omega)), ← Memory.extractLsb'_readWord _ _ (Nat.mod_lt a (by omega)),
      configure_bank_congr hc hc' s s' hf (by omega)]
  · obtain ⟨h6, h13⟩ := expOf_bounds hc .long
    have hL (f : BlockFlag) : slopeOf b8 f f = 2 ^ expOf b8 f / 2 := by rw [slopeOf, Nat.min_self]
    have hlong : 2 * 2 ^ expOf b8 .short ≤ 2 ^ expOf b8 .long := by rw [← Nat.pow_succ']; exact Nat.pow_le_pow_right (by omega) hlt
    have hdepth : 2 ^ expOf b8 .long ≤ 2 ^ 13 := Nat.pow_le_pow_right (by omega) h13
    have hpos := Nat.two_pow_pos (expOf b8 .short)
    refine ⟨2 ^ expOf b8 .long / 2 - 1, by omega, ?_⟩
    rw [configure_win_tail hc s _ _ (by rw [hL]; omega) (by omega), configure_windows hc s _ _ (by rw [hL]; omega), hL]
    exact (last_window_word_ne_zero h6 h13).symm

end Sys2Proof.Machine
end

section
/-!
PROOFS. The fixed-point sines of the tables (40_setup.md R140; log 5): how near `sine` and the numbers made of it are to the real ones.
-/

namespace Sys2Proof.Machine.Lut

/-! ### The polynomial that `sine` evaluates -/

/-- The nested polynomial of `series` over the real numbers: `1 - y/(j(j+1)) · (1 - y/((j+2)(j+3)) · (1 - ...))`. -/
noncomputable def sinePoly (y : ℝ) : Nat → Nat → ℝ
  | 0, _ => 1
  | n + 1, j => 1 - y / (j * (j + 1)) * sinePoly y n (j + 2)

theorem sinePoly_eq_sum (y : ℝ) (n j : Nat) :
    sinePoly y n (j + 1) = ∑ i ∈ Finset.range (n + 1), (-y) ^ i / (j + 1).ascFactorial (2 * i) := by
  induction n generalizing j with
  | zero => simp [sinePoly]
  | succ n ih =>
    have hasc (i : Nat) : (j + 1).ascFactorial (2 * (i + 1)) = (j + 1) * (j + 2) * (j + 3).ascFactorial (2 * i) := by
      have h2 : (j + 1).ascFactorial 2 = (j + 1) * (j + 2) := by simp [Nat.ascFactorial]; ring
      rw [Nat.mul_succ, Nat.add_comm (2 * i), ← Nat.ascFactorial_mul_ascFactorial, h2]
    rw [Finset.sum_range_succ', sinePoly, ih (j + 2), Finset.mul_sum, sub_eq_add_neg, add_comm, ← Finset.sum_neg_distrib]
    simp only [hasc]
    congr 1
    · refine Finset.sum_congr rfl fun i _ => ?_
      push_cast
      field_simp
      ring
    · simp

theorem mul_sinePoly_eq_sum (t : ℝ) (n : Nat) :
    t * sinePoly (t ^ 2) n 2 = ∑ i ∈ Finset.range (n + 1), (-1) ^ i * (t ^ (2 * i + 1) / (2 * i + 1).factorial) := by
  rw [sinePoly_eq_sum, Finset.mul_sum]
  refine Finset.sum_congr rfl fun i _ => ?_
  have : (2 * i + 1).factorial = (1 + 1).ascFactorial (2 * i) := by
    rw [Nat.add_comm, ← Nat.factorial_mul_ascFactorial, Nat.factorial_one, Nat.one_mul]
  rw [this, neg_pow, ← pow_mul]
  ring

theorem antitone_sineTerm {t : ℝ} (h0 : 0 ≤ t) (h2 : t ≤ 2) : Antitone fun i : Nat => t ^ (2 * i + 1) / (2 * i + 1).factorial := by
  refine antitone_nat_of_succ_le fun i => ?_
  have hf : (2 * (i + 1) + 1).factorial = (2 * i + 3) * (2 * i + 2) * (2 * i + 1).factorial := by
    rw [show 2 * (i + 1) + 1 = 2 * i + 1 + 1 + 1 by ring, Nat.factorial_succ, Nat.factorial_succ]; ring
  rw [hf, div_le_div_iff₀ (by positivity) (by positivity)]
  push_cast
  have hsq : t ^ 2 ≤ (2 * i + 3) * (2 * i + 2) := by nlinarith [(Nat.cast_nonneg i : (0 : ℝ) ≤ i)]
  calc t ^ (2 * (i + 1) + 1) * ((2 * i + 1).factorial : ℝ) = t ^ (2 * i + 1) * (2 * i + 1).factorial * t ^ 2 := by ring
    _ ≤ t ^ (2 * i + 1) * (2 * i + 1).factorial * ((2 * i + 3) * (2 * i + 2)) := by gcongr
    _ = _ := by ring

/-- Taylor's bound: ten factors or more are the sine to within 2^-58. -/
theorem mul_sinePoly_near {t : ℝ} (h0 : 0 ≤ t) (h1 : t ≤ 8 / 5) {n : Nat} (hn : 10 ≤ n) :
    |t * sinePoly (t ^ 2) n 2 - Real.sin t| ≤ 2 / 10 ^ 18 := by
  have hanti := antitone_sineTerm h0 (by linarith : t ≤ 2)
  have hsin : ∑' i : Nat, (-1) ^ i * (t ^ (2 * i + 1) / (2 * i + 1).factorial) = Real.sin t := by
    rw [← (Real.hasSum_sin t).tsum_eq]; simp only [mul_div_assoc]
  have hs : Summable fun i : Nat => t ^ (2 * i + 1) / (2 * i + 1).factorial := (Real.hasSum_sinh t).summable
  have hb := alternating_series_error_bound _ hanti hs (n + 1)
  rw [hsin, ← mul_sinePoly_eq_sum, abs_sub_comm] at hb
  calc |t * sinePoly (t ^ 2) n 2 - Real.sin t| ≤ t ^ (2 * (n + 1) + 1) / (2 * (n + 1) + 1).factorial := hb
    _ ≤ t ^ (2 * 11 + 1) / (2 * 11 + 1).factorial := hanti (by omega)
    _ ≤ (8 / 5) ^ (2 * 11 + 1) / (2 * 11 + 1).factorial := by gcongr
    _ ≤ 2 / 10 ^ 18 := by norm_num [Nat.factorial]

/-! ### Fixed-point numbers -/

/-- The real number of a fixed-point number. -/
noncomputable def fixed (v : Nat) : ℝ := v / 2 ^ 128

theorem fixed_one : fixed one = 1 := by norm_num [fixed, one, fracBits]

theorem fixed_nonneg (v : Nat) : 0 ≤ fixed v := by unfold fixed; positivity

theorem fixed_le_fixed {v w : Nat} : fixed v ≤ fixed w ↔ v ≤ w := by
  rw [fixed, fixed, div_le_div_iff_of_pos_right (by positivity), Nat.cast_le]

theorem fixed_three : fixed (3 * one) = 3 := by norm_num [fixed, one, fracBits]

/-- A natural quotient is within 1 below the real one. -/
theorem fixed_div_near (a b : Nat) : |fixed (a / b) - fixed a / b| ≤ 1 / 2 ^ 128 := by
  have h1 : ((a / b : ℕ) : ℝ) ≤ a / b := Nat.cast_div_le
  have h2 : (a : ℝ) / b < (a / b : ℕ) + 1 := Nat.floor_div_eq_div (K := ℝ) a b ▸ Nat.lt_floor_add_one _
  have h : fixed (a / b) - fixed a / b = ((a / b : ℕ) - a / b : ℝ) / 2 ^ 128 := by unfold fixed; ring
  rw [h, abs_div, abs_of_pos (by positivity : (0 : ℝ) < 2 ^ 128)]
  gcongr
  rw [abs_le]
  constructor <;> linarith

theorem times_eq (x y : Nat) : times x y = x * y / 2 ^ 128 := Nat.shiftRight_eq_div_pow _ _

/-- A fixed-point product is within a last place of the real one. -/
theorem times_near (x y : Nat) : |fixed (times x y) - fixed x * fixed y| ≤ 1 / 2 ^ 128 := by
  have h : fixed (x * y) / (2 ^ 128 : ℕ) = fixed x * fixed y := by unfold fixed; push_cast; ring
  rw [times_eq, ← h]
  exact fixed_div_near _ _

/-- How the errors of the factors enter a fixed-point product. -/
theorem times_near_mul {x y : Nat} {a b X B εx εy : ℝ} (hx : |fixed x - a| ≤ εx) (hy : |fixed y - b| ≤ εy) (hX : fixed x ≤ X)
    (hB : |b| ≤ B) : |fixed (times x y) - a * b| ≤ 1 / 2 ^ 128 + X * εy + εx * B := by
  have h1 := times_near x y
  have h2 : |fixed x * (fixed y - b)| ≤ X * εy := by rw [abs_mul, abs_of_nonneg (fixed_nonneg x)]; gcongr; exact (fixed_nonneg x).trans hX
  have h3 : |(fixed x - a) * b| ≤ εx * B := by rw [abs_mul]; gcongr; exact (abs_nonneg _).trans hx
  have h := abs_add_three (fixed (times x y) - fixed x * fixed y) (fixed x * (fixed y - b)) ((fixed x - a) * b)
  rw [show fixed (times x y) - fixed x * fixed y + fixed x * (fixed y - b) + (fixed x - a) * b = fixed (times x y) - a * b by ring] at h
  linarith

theorem fixed_add (v w : Nat) : fixed (v + w) = fixed v + fixed w := by rw [fixed, Nat.cast_add, add_div]; rfl

theorem fixed_sub {v w : Nat} (h : w ≤ v) : fixed (v - w) = fixed v - fixed w := by rw [fixed, Nat.cast_sub h, sub_div]; rfl

/-- A factor of at most 1 does not enlarge a product. -/
theorem times_le {x y : Nat} (h : y ≤ one) : times x y ≤ x :=
  times_eq x y ▸ Nat.div_le_of_le_mul ((Nat.mul_le_mul_left x h).trans_eq (Nat.mul_comm _ _))

theorem sinePoly_mem {y : ℝ} (h0 : 0 ≤ y) (h6 : y ≤ 6) (n : Nat) {j : Nat} (hj : 2 ≤ j) :
    0 ≤ sinePoly y n j ∧ sinePoly y n j ≤ 1 := by
  induction n generalizing j with
  | zero => simp [sinePoly]
  | succ n ih =>
    obtain ⟨h1, h2⟩ := ih (j := j + 2) (by omega)
    have hj' : (2 : ℝ) ≤ j := by exact_mod_cast hj
    have hc : y / (j * (j + 1)) ≤ 1 := (div_le_one (by positivity)).2 (by nlinarith)
    have hc0 : 0 ≤ y / (j * (j + 1)) := by positivity
    rw [sinePoly]
    constructor <;> nlinarith

/-- `series` is its polynomial within three last places. -/
theorem series_near {xx : Nat} {y : ℝ} (hxx : xx ≤ 3 * one) (h0 : 0 ≤ y) (h6 : y ≤ 6) (hy : |fixed xx - y| ≤ 1 / 2 ^ 128) (n : Nat)
    {j : Nat} (hj : 2 ≤ j) : series xx n j ≤ one ∧ |fixed (series xx n j) - sinePoly y n j| ≤ 3 / 2 ^ 128 := by
  induction n generalizing j with
  | zero => exact ⟨le_rfl, by simp [series, sinePoly, fixed_one]; positivity⟩
  | succ n ih =>
    obtain ⟨hone, hnear⟩ := ih (j := j + 2) (by omega)
    obtain ⟨hp0, hp1⟩ := sinePoly_mem h0 h6 n (j := j + 2) (by omega)
    have hd : 6 ≤ j * (j + 1) := by nlinarith
    have hd' : (6 : ℝ) ≤ (j * (j + 1) : ℕ) := by exact_mod_cast hd
    rw [series, sinePoly]
    set t := times xx (series xx n (j + 2))
    set p := sinePoly y n (j + 2)
    have hle : t / (j * (j + 1)) ≤ one :=
      Nat.div_le_of_le_mul ((times_le hone).trans (hxx.trans (Nat.mul_le_mul_right _ (by omega))))
    have hprod : |fixed t - y * p| ≤ 1 / 2 ^ 128 + 3 * (3 / 2 ^ 128) + 1 / 2 ^ 128 * 1 :=
      times_near_mul hy hnear (fixed_three ▸ fixed_le_fixed.2 hxx) (by rwa [abs_of_nonneg hp0])
    have hquot := fixed_div_near t (j * (j + 1))
    have hdiv : |fixed t / (j * (j + 1) : ℕ) - y * p / (j * (j + 1) : ℕ)| ≤ 11 / 2 ^ 128 / 6 := by
      rw [← sub_div, abs_div, Nat.abs_cast]; gcongr; linarith
    have h : fixed (one - t / (j * (j + 1))) - (1 - y / (j * (j + 1)) * p) = y * p / (j * (j + 1) : ℕ) - fixed (t / (j * (j + 1))) := by
      rw [fixed_sub hle, fixed_one]; push_cast; ring
    refine ⟨Nat.sub_le _ _, ?_⟩
    rw [h, abs_sub_comm]
    linarith [abs_sub_le (fixed (t / (j * (j + 1)))) (fixed t / (j * (j + 1) : ℕ)) (y * p / (j * (j + 1) : ℕ))]

/-! ### Sines -/

/-- The sine from `n` factors of its series: the tables hold it with 20, and are checked with 10. -/
def sineTerms (n x : Nat) : Nat := times x (series (times x x) n 2)

theorem sineTerms_near {x : Nat} (hx : fixed x ≤ 8 / 5) {n : Nat} (hn : 10 ≤ n) :
    |fixed (sineTerms n x) - Real.sin (fixed x)| ≤ 3 / 10 ^ 18 := by
  have h0 := fixed_nonneg x
  have hsq := times_near x x
  have hxx : times x x ≤ 3 * one := by
    rw [← fixed_le_fixed, fixed_three]
    have := (abs_le.1 hsq).2
    nlinarith
  have h6 : fixed x ^ 2 ≤ 6 := by nlinarith
  obtain ⟨-, hnear⟩ := series_near hxx (sq_nonneg (fixed x)) h6 (by rwa [sq]) n le_rfl
  obtain ⟨hp0, hp1⟩ := sinePoly_mem (sq_nonneg (fixed x)) h6 n le_rfl
  have hmul : |fixed (sineTerms n x) - fixed x * sinePoly (fixed x ^ 2) n 2| ≤ 1 / 2 ^ 128 + 8 / 5 * (3 / 2 ^ 128) + 0 * 1 :=
    times_near_mul (by rw [sub_self, abs_zero]) hnear hx (by rwa [abs_of_nonneg hp0])
  have hpoly := mul_sinePoly_near h0 hx hn
  linarith [abs_sub_le (fixed (sineTerms n x)) (fixed x * sinePoly (fixed x ^ 2) n 2) (Real.sin (fixed x))]

/-- The sine of a fixed-point number near an angle up to a quarter turn. -/
theorem sineTerms_near_sin {x : Nat} {a ε : ℝ} (hx : |fixed x - a| ≤ ε) (hε : ε ≤ 1 / 100) (ha : a ≤ Real.pi / 2) {n : Nat}
    (hn : 10 ≤ n) :
    |fixed (sineTerms n x) - Real.sin a| ≤ ε + 3 / 10 ^ 18 := by
  have h1 := sineTerms_near (x := x) (by linarith [(abs_le.1 hx).2, Real.pi_lt_d4]) hn
  have h2 := Real.abs_sin_sub_sin_le (fixed x) a
  have h3 := abs_sub_le (fixed (sineTerms n x)) (Real.sin (fixed x)) (Real.sin a)
  linarith

/-- The model's quarter turn, by the twenty digits of `π` that Mathlib proves. -/
theorem halfPi_near : |fixed halfPi - Real.pi / 2| ≤ 1 / 10 ^ 20 := by
  have h1 := Real.pi_gt_d20
  have h2 := Real.pi_lt_d20
  rw [abs_le]
  norm_num [fixed, halfPi]
  constructor <;> linarith

/-- `sineOf`, from `n` factors of the series. -/
def sineOfTerms (n p q : Nat) : Nat := sineTerms n (halfPi * p / q)

theorem sineOf_eq (p q : Nat) : sineOf p q = sineOfTerms 20 p q := rfl

theorem sineOfTerms_near {n p q : Nat} (hn : 10 ≤ n) (hq : 0 < q) (hpq : p ≤ q) :
    |fixed (sineOfTerms n p q) - Real.sin (Real.pi / 2 * (p / q))| ≤ 4 / 10 ^ 18 := by
  have hfrac : (p / q : ℝ) ≤ 1 := (div_le_one (by positivity)).2 (by exact_mod_cast hpq)
  have hexact : |fixed (halfPi * p) / q - Real.pi / 2 * (p / q)| ≤ 1 / 10 ^ 20 * 1 := by
    have h : fixed (halfPi * p) / q - Real.pi / 2 * (p / q) = (fixed halfPi - Real.pi / 2) * (p / q) := by
      unfold fixed; push_cast; ring
    rw [h, abs_mul, abs_of_nonneg (by positivity : (0 : ℝ) ≤ p / q)]
    gcongr
    exact halfPi_near
  have hangle : |fixed (halfPi * p / q) - Real.pi / 2 * (p / q)| ≤ 2 / 10 ^ 20 := by
    have := abs_sub_le (fixed (halfPi * p / q)) (fixed (halfPi * p) / q) (Real.pi / 2 * (p / q))
    linarith [fixed_div_near (halfPi * p) q]
  have hquarter : Real.pi / 2 * (p / q) ≤ Real.pi / 2 := mul_le_of_le_one_right (by positivity) hfrac
  exact (sineTerms_near_sin hangle (by norm_num) hquarter hn).trans (by norm_num)

/-- The fixed-point number of a window value (R146), from `n` factors of each series. -/
def windowTerms (n p q : Nat) : Nat := sineTerms n (times halfPi (times (sineOfTerms n p q) (sineOfTerms n p q)))

theorem windowTerms_near {n p q : Nat} (hn : 10 ≤ n) (hq : 0 < q) (hpq : p ≤ q) :
    |fixed (windowTerms n p q) - Real.sin (Real.pi / 2 * Real.sin (Real.pi / 2 * (p / q)) ^ 2)| ≤ 2 / 10 ^ 17 := by
  set σ := Real.sin (Real.pi / 2 * (p / q))
  set s := sineOfTerms n p q
  have hs : |fixed s - σ| ≤ 4 / 10 ^ 18 := sineOfTerms_near hn hq hpq
  have hσ : |σ| ≤ 1 := Real.abs_sin_le_one _
  have hσsq : σ ^ 2 ≤ 1 := (sq_le_one_iff_abs_le_one σ).2 hσ
  have hs1 : fixed s ≤ 11 / 10 := by linarith [(abs_le.1 hs).2, (abs_le.1 hσ).2]
  have hsq : |fixed (times s s) - σ ^ 2| ≤ 1 / 2 ^ 128 + 11 / 10 * (4 / 10 ^ 18) + 4 / 10 ^ 18 * 1 :=
    sq σ ▸ times_near_mul hs hs hs1 hσ
  have hhalf : fixed halfPi ≤ 16 / 10 := by linarith [(abs_le.1 halfPi_near).2, Real.pi_lt_d4]
  have hangle : |fixed (times halfPi (times s s)) - Real.pi / 2 * σ ^ 2| ≤ 15 / 10 ^ 18 :=
    (times_near_mul (B := 1) halfPi_near hsq hhalf (by rwa [abs_of_nonneg (sq_nonneg σ)])).trans (by norm_num)
  have hquarter : Real.pi / 2 * σ ^ 2 ≤ Real.pi / 2 := mul_le_of_le_one_right (by positivity) hσsq
  exact (sineTerms_near_sin hangle (by norm_num) hquarter hn).trans (by norm_num)

end Sys2Proof.Machine.Lut
end

section
/-!
PROOFS. The rounding of the tables' entries (40_setup.md R140): a number all of whose neighbours round alike rounds as each real number near it.
-/

namespace Sys2Proof.Machine.Lut

open Sys2Proof.Reference F32

/-! ### Strictly nearest data -/

theorem ofBits_toBits {a : ℚ} {x : F32} (hx : IsRounded a x) (hfin : IsFinite x) : ofBits x.toBits = x := by
  obtain ⟨s, m, rfl⟩ := exists_fin_of_isFinite hfin
  obtain ⟨-, ⟨w, hw⟩, -⟩ := hx
  rw [← hw, toBits_ofBits]

theorem value_fin_pos {m : Nat} (hm : 0 < m) : 0 < value (.fin false m) := by
  have : (0 : ℚ) < m := by exact_mod_cast hm
  rw [value_fin, scaled, signOf, if_neg Bool.false_ne_true, one_mul]
  positivity

/-- A number with a pattern is strictly nearest to itself. -/
theorem strictlyNearest_value {w : Word} (hw : IsFinite (ofBits w)) : StrictlyNearest (value (ofBits w) : ℚ) w := by
  refine ⟨hw, fun v _ hne => ?_⟩
  rw [sub_self, abs_zero, abs_pos, sub_ne_zero]
  exact_mod_cast hne

/-- What is nearest to both ends of an interval is strictly nearest to each number between them. -/
theorem strictlyNearest_of_between {a b : ℚ} {x : F32} (ha : IsRounded a x) (hb : IsRounded b x) (hfin : IsFinite x) {r : ℝ}
    (har : a < r) (hrb : r < b) : StrictlyNearest r x.toBits := by
  rw [StrictlyNearest, ofBits_toBits ha hfin]
  refine ⟨hfin, fun v hv hne => ?_⟩
  obtain ⟨s, m, rfl⟩ := exists_fin_of_isFinite hfin
  have h1 : |((value (.fin s m) : ℚ) : ℝ) - a| ≤ |((value (ofBits v) : ℚ) : ℝ) - a| := by exact_mod_cast (ha.2.2 v hv).1
  have h2 : |((value (.fin s m) : ℚ) : ℝ) - b| ≤ |((value (ofBits v) : ℚ) : ℝ) - b| := by exact_mod_cast (hb.2.2 v hv).1
  have hne' : ((value (ofBits v) : ℚ) : ℝ) ≠ value (.fin s m) := by exact_mod_cast hne
  rw [← sq_le_sq] at h1 h2
  rw [← sq_lt_sq]
  rcases lt_or_gt_of_ne hne' with h | h <;> nlinarith

/-! ### Numbers whose rounding is settled -/

/-- How far around a number its rounding is checked: 2^-52. -/
def slack : Nat := 1 <<< 76

/-- All numbers within `slack` of `w` have 25 + s bits, and the same multiple of 2^(s+1) is strictly nearest to each of them. -/
def settledAt (w s : Nat) : Bool :=
  (w - slack) >>> (s + 24) == 1 && (w + slack) >>> (s + 24) == 1 &&
    (w - slack - 1 + 1 <<< s) >>> (s + 1) == (w + slack + 1 <<< s) >>> (s + 1)

/-- All numbers within `slack` of `w` round to the same datum, whichever of the lengths from 101 to 128 bits they have. -/
def settled (w : Nat) : Bool := (List.range 28).any fun j => settledAt w (103 - j)

/-- `v` has 25 + s bits, and `q` times 2^(s+1) is the strictly nearest multiple of 2^(s+1). -/
abbrev NearMultiple (q s v : Nat) : Prop :=
  2 ^ (s + 24) ≤ v ∧ v < 2 ^ (s + 25) ∧ |2 * ((q : ℤ) * 2 ^ (s + 1) - v)| < 2 ^ (s + 1)

/-- A quotient that is the same for both ends is the same for every number between them. -/
theorem nearMultiple_of_ends {q d lo hi v : Nat} (hd : 0 < d) (h1 : (lo - 1 + d) / (2 * d) = q) (h2 : (hi + d) / (2 * d) = q) (hlo : 0 < lo)
    (hv1 : lo ≤ v) (hv2 : v ≤ hi) : |2 * ((q : ℤ) * (2 * d) - v)| < 2 * d := by
  rw [Nat.div_eq_iff (by omega)] at h1 h2
  have e : (q : ℤ) * (2 * d) = ((q * (2 * d) : ℕ) : ℤ) := by push_cast; ring
  rw [e, abs_lt]
  generalize q * (2 * d) = m at *
  omega

theorem settledAt_spec {w s : Nat} (h : settledAt w s = true) :
    ∃ q : Nat, 0 < q ∧ ∀ v, w - slack ≤ v → v ≤ w + slack → NearMultiple q s v := by
  simp only [settledAt, Bool.and_eq_true, beq_iff_eq, Nat.shiftRight_eq_div_pow, Nat.one_shiftLeft] at h
  obtain ⟨⟨hlo, hhi⟩, hq⟩ := h
  have hd := Nat.two_pow_pos s
  rw [Nat.div_eq_iff (by positivity)] at hlo hhi
  rw [Nat.pow_succ, Nat.mul_comm _ 2] at hq
  have hlow : 2 * 2 ^ s ≤ 2 ^ (s + 24) := by rw [← Nat.pow_succ']; exact Nat.pow_le_pow_right (by omega) (by omega)
  have htop : 2 ^ (s + 25) = 2 * 2 ^ (s + 24) := by rw [← Nat.pow_succ']
  refine ⟨(w + slack + 2 ^ s) / (2 * 2 ^ s), Nat.div_pos (by omega) (by omega), fun v h1 h2 => ⟨by omega, by omega, ?_⟩⟩
  have hz : (2 : ℤ) ^ (s + 1) = 2 * (2 ^ s : ℕ) := by push_cast; ring
  rw [hz]
  exact nearMultiple_of_ends hd hq rfl (by omega) h1 h2

theorem roundExp_of_nearMultiple {q s v : Nat} (h : NearMultiple q s v) : roundExp (v * 2 ^ 72) 51 = s + 22 := by
  have hexp : s + 96 - 23 - 51 = s + 22 := by omega
  obtain ⟨hlo, hhi, -⟩ := h
  have hv : 0 < v := (Nat.two_pow_pos _).trans_le hlo
  have hlog : (v * 2 ^ 72).log2 = s + 96 := by
    rw [Nat.log2_eq_iff (Nat.mul_ne_zero hv.ne' (Nat.two_pow_pos _).ne'), show s + 96 + 1 = s + 25 + 72 by rfl,
      show s + 96 = s + 24 + 72 by rfl, Nat.pow_add, Nat.pow_add 2 (s + 25)]
    exact ⟨Nat.mul_le_mul_right _ hlo, Nat.mul_lt_mul_of_pos_right hhi (Nat.two_pow_pos _)⟩
  rw [roundExp, hlog, hexp]

theorem roundSig_of_nearMultiple {q s v : Nat} (h : NearMultiple q s v) : roundSig (v * 2 ^ 72) 51 = q := by
  have hnear := (roundSig_near (v * 2 ^ 72) 51).1
  rw [roundExp_of_nearMultiple h] at hnear
  obtain ⟨-, -, hq⟩ := h
  generalize roundSig (v * 2 ^ 72) 51 = r at *
  have e : 2 * ((r : ℤ) * 2 ^ (51 + (s + 22)) - (v * 2 ^ 72 : ℕ)) = 2 * (r * 2 ^ (s + 1) - v) * 2 ^ 72 := by push_cast; ring
  rw [e, abs_mul, abs_of_pos (by positivity : (0 : ℤ) < 2 ^ 72), show 51 + (s + 22) = s + 1 + 72 by ring, pow_add _ (s + 1)] at hnear
  have hr := le_of_mul_le_mul_right hnear (by positivity)
  obtain ⟨hle, hunique⟩ := abs_sub_le_of_near hq.le r
  exact_mod_cast (hunique (le_antisymm hle (abs_sub_le_of_near hr q).1)).resolve_right hq.ne

/-- A number near a multiple is rounded to it, correctly. -/
theorem entry_of_nearMultiple {q s v : Nat} (hs : s ≤ 103) (h : NearMultiple q s v) (neg : Bool) :
    entry neg v = .fin neg (q * 2 ^ (s + 22)) ∧ IsRounded (signOf neg * v / 2 ^ 128) (.fin neg (q * 2 ^ (s + 22))) := by
  have hlt : roundSig (v * 2 ^ 72) 51 * 2 ^ roundExp (v * 2 ^ 72) 51 < overflowMag := by
    obtain ⟨-, hhi, -⟩ := h
    rw [round_lt_iff]
    calc v * 2 ^ 72 < 2 ^ 128 * 2 ^ 72 := by gcongr; exact hhi.trans_le (Nat.pow_le_pow_right (by omega) (by omega))
      _ = 1 * 2 ^ 200 := by norm_num
      _ ≤ _ := Nat.mul_le_mul (by norm_num) (Nat.pow_le_pow_right (by omega) (by omega))
  have hval : scaled neg (v * 2 ^ 72) 51 = signOf neg * v / 2 ^ 128 := by rw [scaled]; push_cast; ring
  rw [entry, Nat.shiftLeft_eq, ← hval, ← roundSig_of_nearMultiple h, ← roundExp_of_nearMultiple h]
  exact ⟨round_of_lt neg hlt, isRounded_of_lt neg hlt⟩

/-- The datum of a multiple is within half of 2^-24 of what is rounded to it. -/
theorem value_near_of_nearMultiple {q s v : Nat} (hs : s ≤ 103) (h : NearMultiple q s v) :
    |((value (.fin false (q * 2 ^ (s + 22))) : ℚ) : ℝ) - fixed v| ≤ 1 / 2 ^ 25 := by
  obtain ⟨-, -, hq⟩ := h
  have hcast : |2 * ((q : ℝ) * 2 ^ (s + 1) - v)| ≤ 2 ^ (s + 1) := by exact_mod_cast hq.le
  have hpow : (2 : ℝ) ^ (s + 1) ≤ 2 ^ 104 := pow_le_pow_right₀ (by norm_num) (by omega)
  have e : ((value (.fin false (q * 2 ^ (s + 22))) : ℚ) : ℝ) - fixed v = 2 * ((q : ℝ) * 2 ^ (s + 1) - v) / 2 ^ 129 := by
    rw [value_fin, scaled, fixed, signOf]; push_cast; ring
  rw [e, abs_div, abs_of_pos (by positivity : (0 : ℝ) < 2 ^ 129), div_le_div_iff₀ (by positivity) (by positivity)]
  linarith

/-- Around a settled number: the numbers near `r` round as the two ends of an interval that holds `r` do. -/
theorem settled_spec {w v : Nat} {r : ℝ} (hset : settled w = true) (hw : |fixed w - r| ≤ 2 / 10 ^ 17) (hv : |fixed v - r| ≤ 2 / 10 ^ 17) :
    ∃ q s lo hi, 0 < q ∧ s ≤ 103 ∧ NearMultiple q s lo ∧ NearMultiple q s hi ∧ NearMultiple q s v ∧ fixed lo < r ∧ r < fixed hi := by
  simp only [settled, List.any_eq_true, List.mem_range] at hset
  obtain ⟨j, -, hset⟩ := hset
  obtain ⟨q, hpos, hq⟩ := settledAt_spec hset
  have hslack : slack ≤ w := by
    have := (hq (w - slack) le_rfl (by omega)).1
    have := Nat.two_pow_pos (103 - j + 24)
    omega
  have hwide : 4 / 10 ^ 17 < fixed slack := by norm_num [fixed, slack, Nat.shiftLeft_eq]
  obtain ⟨hw1, hw2⟩ := abs_le.1 hw
  obtain ⟨hv1, hv2⟩ := abs_le.1 hv
  have hmem : w - slack ≤ v ∧ v ≤ w + slack := by
    rw [← fixed_le_fixed, ← fixed_le_fixed, fixed_sub hslack, fixed_add]
    constructor <;> linarith
  refine ⟨q, 103 - j, w - slack, w + slack, hpos, by omega, hq _ le_rfl (by omega), hq _ (by omega) le_rfl, hq v hmem.1 hmem.2, ?_, ?_⟩
  · rw [fixed_sub hslack]; linarith
  · rw [fixed_add]; linarith

section Settled
variable {w v : Nat} {r : ℝ} (hset : settled w = true) (hw : |fixed w - r| ≤ 2 / 10 ^ 17) (hv : |fixed v - r| ≤ 2 / 10 ^ 17)
include hset hw hv

theorem strictlyNearest_entry (neg : Bool) : StrictlyNearest (signOf neg * r) (entry neg v).toBits := by
  obtain ⟨q, s, lo, hi, -, hs, hlo, hhi, hmul, hlt, hgt⟩ := settled_spec hset hw hv
  have hcast (u : Nat) : ((signOf neg * u / 2 ^ 128 : ℚ) : ℝ) = signOf neg * fixed u := by unfold fixed; push_cast; ring
  have hrlo := (entry_of_nearMultiple hs hlo neg).2
  have hrhi := (entry_of_nearMultiple hs hhi neg).2
  rw [(entry_of_nearMultiple hs hmul neg).1]
  cases neg with
  | false => refine strictlyNearest_of_between hrlo hrhi trivial ?_ ?_ <;> rw [hcast] <;> norm_num [signOf] <;> assumption
  | true => refine strictlyNearest_of_between hrhi hrlo trivial ?_ ?_ <;> rw [hcast] <;> norm_num [signOf] <;> assumption

theorem value_entry_pos : 0 < value (ofBits (entry false v).toBits) := by
  obtain ⟨q, s, -, -, hq, hs, -, -, hmul, -, -⟩ := settled_spec hset hw hv
  obtain ⟨he, hr⟩ := entry_of_nearMultiple hs hmul false
  rw [he, ofBits_toBits hr trivial]
  exact value_fin_pos (Nat.mul_pos hq (Nat.two_pow_pos _))

theorem value_entry_near : |((value (ofBits (entry false v).toBits) : ℚ) : ℝ) - r| ≤ 3 / 10 ^ 8 := by
  obtain ⟨q, s, -, -, -, hs, -, -, hmul, -, -⟩ := settled_spec hset hw hv
  obtain ⟨he, hr⟩ := entry_of_nearMultiple hs hmul false
  rw [he, ofBits_toBits hr trivial]
  have h1 := value_near_of_nearMultiple hs hmul
  have h2 := abs_sub_le ((value (.fin false (q * 2 ^ (s + 22))) : ℚ) : ℝ) (fixed v) r
  norm_num at h1 hv ⊢
  linarith

end Settled

end Sys2Proof.Machine.Lut
end

section
/-!
PROOFS. The rounded tables (40_setup.md R140 to R146). That no entry lies too near the middle of two binary32 values to be rounded from its
fixed-point number is a fact about each single entry: nothing but its digits says so. The kernel computes it for the entries of every legal size.
-/

namespace Sys2Proof.Machine.Lut

open Sys2Proof.Reference F32

/-! ### The rounding of every entry is settled -/

/-- `f n`, by cases on `n`: the kernel then computes `n` once, however often `f` uses it. -/
def onValue {α : Type} (f : Nat → α) : Nat → α
  | 0 => f 0
  | n + 1 => f (n + 1)

@[simp] theorem onValue_eq {α : Type} (f : Nat → α) (n : Nat) : onValue f n = f n := by cases n <;> rfl

/-- The sines and cosines of R141 for exponent `e`. -/
def rotationsSettled (e : Nat) : Bool :=
  (List.range (fftSize e)).all fun m =>
    onValue settled (sineOfTerms 10 (8 * m + 1) (2 * 2 ^ e)) && onValue settled (sineOfTerms 10 (2 * 2 ^ e - (8 * m + 1)) (2 * 2 ^ e))

/-- The sines of the 512 parts of a quarter turn, of which those of R142 for every exponent are some. -/
def twiddlesSettled : Bool := (List.range 512).all fun j => j == 0 || onValue settled (sineOfTerms 10 j 512)

/-- The windows of R146 for blocks of size `2^e`. -/
def windowsSettled (e : Nat) : Bool :=
  (List.range (2 ^ e / 2)).all fun k =>
    onValue settled (onValue (fun s => sineTerms 10 (times halfPi (times s s))) (sineOfTerms 10 (2 * k + 1) (2 * (2 ^ e / 2))))

/-- One kernel evaluation for each size. -/
theorem rotations_settled {e : Nat} (h6 : 6 ≤ e) (h13 : e ≤ 13) : rotationsSettled e = true := by
  interval_cases e <;> decide +kernel

theorem twiddles_settled : twiddlesSettled = true := by decide +kernel

/-- One kernel evaluation for each size. -/
theorem windows_settled {e : Nat} (h6 : 6 ≤ e) (h13 : e ≤ 13) : windowsSettled e = true := by
  interval_cases e <;> decide +kernel

/-! ### The words of 0 and 1 -/

theorem ofBits_one : ofBits 0x3F800000 = .fin false (2 ^ 149) := by decide +kernel

theorem ofBits_zero : ofBits 0x00000000 = .fin false 0 := by decide +kernel

theorem value_one : value (ofBits 0x3F800000) = 1 := by rw [ofBits_one]; norm_num [value]

theorem value_zero : value (ofBits 0x00000000) = 0 := by rw [ofBits_zero]; norm_num [value]

theorem strictlyNearest_one : StrictlyNearest 1 0x3F800000 := by
  have h := strictlyNearest_value (w := 0x3F800000) (by rw [ofBits_one]; trivial)
  rwa [value_one, Rat.cast_one] at h

theorem strictlyNearest_zero : StrictlyNearest 0 0x00000000 := by
  have h := strictlyNearest_value (w := 0x00000000) (by rw [ofBits_zero]; trivial)
  rwa [value_zero, Rat.cast_zero] at h

/-! ### Sines of fractions of a quarter turn -/

theorem signOf_false : ((signOf false : ℚ) : ℝ) = 1 := by simp [signOf]

theorem signOf_true : ((signOf true : ℚ) : ℝ) = -1 := by simp [signOf]

/-- An entry of a fraction `p/q` of a quarter turn rounds the sine of it, if the rounding of the same fraction's sine is settled. -/
theorem strictlyNearest_sineOf {p q p' q' : Nat} (hset : settled (sineOfTerms 10 p' q') = true) (hq : 0 < q) (hpq : p ≤ q) (hq' : 0 < q')
    (hpq' : p' ≤ q') (hfrac : (p' / q' : ℝ) = p / q) (neg : Bool) :
    StrictlyNearest (signOf neg * Real.sin (Real.pi / 2 * (p / q))) (entry neg (sineOf p q)).toBits ∧
      0 < value (ofBits (entry false (sineOf p q)).toBits) := by
  have hw := (hfrac ▸ sineOfTerms_near le_rfl hq' hpq').trans (by norm_num : (4 / 10 ^ 18 : ℝ) ≤ 2 / 10 ^ 17)
  have hv := (sineOfTerms_near (n := 20) (by omega) hq hpq).trans (by norm_num : (4 / 10 ^ 18 : ℝ) ≤ 2 / 10 ^ 17)
  rw [sineOf_eq]
  exact ⟨strictlyNearest_entry hset hw hv neg, value_entry_pos hset hw hv⟩

/-! ### Rotations (R141) -/

theorem rotation_angle (e m : Nat) : 2 * Real.pi * (m + 1 / 8) / 2 ^ e = Real.pi / 2 * ((8 * m + 1 : ℕ) / (2 * 2 ^ e : ℕ)) := by
  push_cast; field_simp; ring

theorem rotation_lt {e m : Nat} (h6 : 6 ≤ e) (hm : m < fftSize e) : 8 * m + 1 < 2 * 2 ^ e := by
  have h := two_pow_div_four (show 2 ≤ e by omega)
  omega

theorem rotation_rounds {e m : Nat} (h6 : 6 ≤ e) (h13 : e ≤ 13) (hm : m < fftSize e) :
    (StrictlyNearest (Real.cos (2 * Real.pi * (m + 1 / 8) / 2 ^ e)) (word (.rotc e m)) ∧ 0 < value (ofBits (word (.rotc e m)))) ∧
      StrictlyNearest (Real.sin (2 * Real.pi * (m + 1 / 8) / 2 ^ e)) (word (.rots e m)) ∧ 0 < value (ofBits (word (.rots e m))) := by
  have hset := List.all_eq_true.1 (rotations_settled h6 h13) m (List.mem_range.2 hm)
  rw [onValue_eq, onValue_eq, Bool.and_eq_true] at hset
  obtain ⟨hsetsin, hsetcos⟩ := hset
  have hlt := rotation_lt h6 hm
  have hq : (0 : ℝ) < (2 * 2 ^ e : ℕ) := by positivity
  have hcos := strictlyNearest_sineOf hsetcos (by omega) (Nat.sub_le _ _) (by omega) (Nat.sub_le _ _) rfl false
  have hsin := strictlyNearest_sineOf hsetsin (by omega) hlt.le (by omega) hlt.le rfl false
  rw [show ((2 * 2 ^ e - (8 * m + 1) : ℕ) / (2 * 2 ^ e : ℕ) : ℝ) = 1 - (8 * m + 1 : ℕ) / (2 * 2 ^ e : ℕ) by
      rw [Nat.cast_sub hlt.le, sub_div, div_self hq.ne'], mul_sub, mul_one, Real.sin_pi_div_two_sub] at hcos
  rw [signOf_false, one_mul] at hcos hsin
  rw [rotation_angle, word_default, word_default]
  exact ⟨hcos, hsin⟩

/-! ### Twiddles (R142) -/

theorem toBits_sineOf_zero (q : Nat) : (entry false (sineOf 0 q)).toBits = 0x00000000 := by
  rw [sineOf, Nat.mul_zero, Nat.zero_div]; decide +kernel

theorem toBits_sineOf_self {q : Nat} (hq : 0 < q) : (entry false (sineOf q q)).toBits = 0x3F800000 := by
  rw [sineOf, Nat.mul_div_cancel _ hq]; decide +kernel

theorem fftSize_pos (e : Nat) : 0 < fftSize e := Nat.two_pow_pos _

/-- `M = n/4` over the real numbers. -/
theorem cast_fftSize {e : Nat} (h : 2 ≤ e) : (fftSize e : ℝ) = 2 ^ e / 4 := by
  rw [fftSize, Nat.cast_pow, pow_sub₀ _ (by norm_num) h]; norm_num [div_eq_mul_inv]

section Twiddle
variable {e : Nat} (h6 : 6 ≤ e) (h13 : e ≤ 13)
include h6

theorem fftSize_eq_four_mul : fftSize e = 4 * 2 ^ (e - 4) := by
  rw [fftSize, show e - 2 = e - 4 + 2 by omega, Nat.pow_add, Nat.mul_comm]

/-- The angle of R142 as a part of a quarter turn. -/
theorem twiddle_angle (k : Nat) : 2 * Real.pi * k / fftSize e = Real.pi / 2 * (k / 2 ^ (e - 4)) := by
  rw [fftSize_eq_four_mul h6]; push_cast; field_simp; ring

include h13

/-- The sine of a part strictly between 0 and a quarter turn. -/
theorem strictlyNearest_part {j : Nat} (hj0 : 0 < j) (hj : j < 2 ^ (e - 4)) (neg : Bool) :
    StrictlyNearest (signOf neg * Real.sin (Real.pi / 2 * (j / 2 ^ (e - 4)))) (entry neg (sineOf (4 * j) (fftSize e))).toBits := by
  have h512 : 2 ^ (e - 4) * 2 ^ (13 - e) = 512 := by rw [← Nat.pow_add, show e - 4 + (13 - e) = 9 by omega]
  have hj' : j * 2 ^ (13 - e) < 512 := h512 ▸ Nat.mul_lt_mul_of_pos_right hj (Nat.two_pow_pos _)
  have hset := List.all_eq_true.1 twiddles_settled (j * 2 ^ (13 - e)) (List.mem_range.2 hj')
  rw [onValue_eq, Bool.or_eq_true, beq_iff_eq] at hset
  have hset := hset.resolve_left (Nat.mul_pos hj0 (Nat.two_pow_pos _)).ne'
  have hM := fftSize_eq_four_mul h6
  have hpart : ((4 * j : ℕ) / (fftSize e : ℕ) : ℝ) = j / 2 ^ (e - 4) := by
    rw [hM]; push_cast; rw [mul_div_mul_left _ _ (by norm_num)]
  have hfrac : ((j * 2 ^ (13 - e) : ℕ) / (512 : ℕ) : ℝ) = (4 * j : ℕ) / (fftSize e : ℕ) := by
    rw [hpart, ← h512]; push_cast; rw [mul_div_mul_right _ _ (by positivity)]
  have h := (strictlyNearest_sineOf hset (by omega) (by omega) (by norm_num) hj'.le hfrac neg).1
  rwa [hpart] at h

/-- The sine of a part from 0 to a quarter turn, both included. -/
theorem strictlyNearest_part_closed {j : Nat} (hj : j ≤ 2 ^ (e - 4)) :
    StrictlyNearest (Real.sin (Real.pi / 2 * (j / 2 ^ (e - 4)))) (entry false (sineOf (4 * j) (fftSize e))).toBits := by
  rcases Nat.eq_zero_or_pos j with rfl | hj0
  · rw [Nat.mul_zero, toBits_sineOf_zero, Nat.cast_zero, zero_div, mul_zero, Real.sin_zero]
    exact strictlyNearest_zero
  rcases hj.eq_or_lt with rfl | hlt
  · rw [← fftSize_eq_four_mul h6, toBits_sineOf_self (fftSize_pos e), Nat.cast_pow, Nat.cast_ofNat, div_self (by positivity), mul_one,
      Real.sin_pi_div_two]
    exact strictlyNearest_one
  · have h := strictlyNearest_part h6 h13 hj0 hlt false
    rwa [signOf_false, one_mul] at h

theorem twc_rounds {k : Nat} (hk : k < fftSize e / 2) :
    StrictlyNearest (Real.cos (2 * Real.pi * k / fftSize e)) (word (.twc e k)) ∧
      (k = 0 → word (.twc e k) = 0x3F800000) ∧ (k = fftSize e / 4 → word (.twc e k) = 0x00000000) := by
  have hM := fftSize_eq_four_mul h6
  have hN : (0 : ℝ) < 2 ^ (e - 4) := by positivity
  rw [twiddle_angle h6, word_default]
  simp only [rounded, twc, cosineOf]
  refine ⟨?_, ?_, ?_⟩
  · split_ifs with hle
    · have h := strictlyNearest_part_closed h6 h13 (Nat.sub_le (2 ^ (e - 4)) k)
      rwa [Nat.cast_sub (by omega), Nat.cast_pow, Nat.cast_ofNat, sub_div, div_self hN.ne', mul_sub, mul_one, Real.sin_pi_div_two_sub,
        Nat.mul_sub, ← hM] at h
    · have h := strictlyNearest_part h6 h13 (j := k - 2 ^ (e - 4)) (by omega) (by omega) true
      rwa [signOf_true, Nat.cast_sub (by omega), Nat.cast_pow, Nat.cast_ofNat, sub_div, div_self hN.ne', mul_sub, mul_one,
        Real.sin_sub_pi_div_two, neg_one_mul, neg_neg, Nat.mul_sub, ← hM] at h
  · rintro rfl
    simpa using toBits_sineOf_self (fftSize_pos e)
  · rintro rfl
    have h4 : 4 * (fftSize e / 4) = fftSize e := by omega
    simpa [h4] using toBits_sineOf_zero (fftSize e)

theorem tws_rounds {k : Nat} (hk : k < fftSize e / 2) :
    StrictlyNearest (Real.sin (2 * Real.pi * k / fftSize e)) (word (.tws e k)) ∧
      (k = 0 → word (.tws e k) = 0x00000000) ∧ (k = fftSize e / 4 → word (.tws e k) = 0x3F800000) := by
  have hM := fftSize_eq_four_mul h6
  have hN : (0 : ℝ) < 2 ^ (e - 4) := by positivity
  rw [twiddle_angle h6, word_default]
  simp only [rounded, tws]
  refine ⟨?_, ?_, ?_⟩
  · split_ifs with hle
    · exact strictlyNearest_part_closed h6 h13 (by omega)
    · have h := strictlyNearest_part_closed h6 h13 (j := 2 * 2 ^ (e - 4) - k) (by omega)
      rwa [Nat.cast_sub (by omega), Nat.cast_mul, Nat.cast_pow, Nat.cast_ofNat, sub_div, mul_div_assoc, div_self hN.ne', mul_one, mul_sub,
        div_mul_cancel₀ _ two_ne_zero, Real.sin_pi_sub, Nat.mul_sub, Nat.mul_left_comm, ← hM] at h
  · rintro rfl
    simpa using toBits_sineOf_zero (fftSize e)
  · rintro rfl
    have h4 : 4 * (fftSize e / 4) = fftSize e := by omega
    simpa [h4] using toBits_sineOf_self (fftSize_pos e)

end Twiddle

/-! ### Windows (R146) -/

theorem window_angle (L k : Nat) :
    realWindow L k = Real.sin (Real.pi / 2 * Real.sin (Real.pi / 2 * ((2 * k + 1 : ℕ) / (2 * L : ℕ))) ^ 2) := by
  rw [realWindow, show Real.pi / 2 * ((2 * k + 1 : ℕ) / (2 * L : ℕ) : ℝ) = (k + 1 / 2) / L * (Real.pi / 2) by push_cast; field_simp]

theorem word_win (L k : Nat) : word (.win L k) = (entry false (windowTerms 20 (2 * k + 1) (2 * L))).toBits := word_default _

theorem win_rounds {e k : Nat} (h6 : 6 ≤ e) (h13 : e ≤ 13) (hk : k < 2 ^ e / 2) :
    StrictlyNearest (realWindow (2 ^ e / 2) k) (word (.win (2 ^ e / 2) k)) ∧
      |((value (ofBits (word (.win (2 ^ e / 2) k))) : ℚ) : ℝ) - realWindow (2 ^ e / 2) k| ≤ 3 / 10 ^ 8 := by
  have hset : settled (windowTerms 10 (2 * k + 1) (2 * (2 ^ e / 2))) = true := by
    have := List.all_eq_true.1 (windows_settled h6 h13) k (List.mem_range.2 hk)
    rwa [onValue_eq, onValue_eq] at this
  have hw := windowTerms_near (n := 10) le_rfl (p := 2 * k + 1) (q := 2 * (2 ^ e / 2)) (by omega) (by omega)
  have hv := windowTerms_near (n := 20) (by omega) (p := 2 * k + 1) (q := 2 * (2 ^ e / 2)) (by omega) (by omega)
  rw [← window_angle] at hw hv
  have hnear := strictlyNearest_entry hset hw hv false
  rw [signOf_false, one_mul] at hnear
  rw [word_win]
  exact ⟨hnear, value_entry_near hset hw hv⟩

end Sys2Proof.Machine.Lut

namespace Sys2Proof.Machine

open Sys2Proof.Reference

/-- Settles O32: the words are the entries', and `rotation_rounds` rounds those. -/
theorem configRotationTables : Obligations.ConfigRotationTables := by
  intro b8 nch s h
  obtain ⟨hc, hx⟩ := exec_config h
  refine ⟨_, hx, fun f m hm => ?_⟩
  intro angle c d
  obtain ⟨h6, h13⟩ := expOf_bounds hc f
  obtain ⟨hcword, hdword⟩ : c = Lut.word (.rotc (expOf b8 f) m) ∧ d = Lut.word (.rots (expOf b8 f) m) := configure_rotations hc s f hm
  rw [two_pow_div_four (by omega)] at hm
  obtain ⟨⟨hcos, hcpos⟩, hsin, hspos⟩ := Lut.rotation_rounds h6 h13 hm
  rw [hcword, hdword]
  exact ⟨hcos, hsin, hcpos, hspos⟩

/-- Settles O33: the words are the entries', and `twc_rounds` and `tws_rounds` round those. -/
theorem configTwiddleTables : Obligations.ConfigTwiddleTables := by
  intro b8 nch s h
  obtain ⟨hc, hx⟩ := exec_config h
  refine ⟨_, hx, fun f k hk => ?_⟩
  intro M angle c d
  obtain ⟨h6, h13⟩ := expOf_bounds hc f
  obtain ⟨hcword, hdword⟩ : c = Lut.word (.twc (expOf b8 f) k) ∧ d = Lut.word (.tws (expOf b8 f) k) := configure_twiddles hc s f hk
  rw [two_pow_div_four (show 2 ≤ expOf b8 f by omega)] at hk
  obtain ⟨hcos, hc0, hcq⟩ := Lut.twc_rounds h6 h13 hk
  obtain ⟨hsin, hs0, hsq⟩ := Lut.tws_rounds h6 h13 hk
  have hM : M = Lut.fftSize (expOf b8 f) := (Lut.cast_fftSize (by omega)).symm
  have hquarter (h : (k : ℝ) = M / 4) : k = Lut.fftSize (expOf b8 f) / 4 := by
    have : (4 : ℝ) * k = Lut.fftSize (expOf b8 f) := by linarith
    have : 4 * k = Lut.fftSize (expOf b8 f) := by exact_mod_cast this
    omega
  have hangle : angle = 2 * Real.pi * k / Lut.fftSize (expOf b8 f) := by rw [← hM]
  rw [hcword, hdword, hangle]
  exact ⟨hcos, hsin, fun h => ⟨hc0 h, hs0 h⟩, fun h => ⟨hcq (hquarter h), hsq (hquarter h)⟩⟩

end Sys2Proof.Machine
end

section
/-!
PROOFS. The window shapes (40_setup.md R145 to R147): their words, and what correct rounding keeps of the real window's properties.
-/

namespace Sys2Proof.Machine

open Sys2Proof.Reference

/-! ### The words (R145, R146) -/

/-- The slope length of a pair of flags is half of a legal size. -/
theorem exists_slopeOf {b8 : Byte} {nch : Nat} (h : configError? b8 nch = none) (pf cf : BlockFlag) :
    ∃ e, 6 ≤ e ∧ e ≤ 13 ∧ slopeOf b8 pf cf = 2 ^ e / 2 := by
  have hp := expOf_bounds h pf
  have hq := expOf_bounds h cf
  refine ⟨min (expOf b8 pf) (expOf b8 cf), by omega, by omega, ?_⟩
  rcases Nat.le_total (expOf b8 pf) (expOf b8 cf) with hle | hle
  · rw [slopeOf, Nat.min_eq_left hle, Nat.min_eq_left (Nat.pow_le_pow_right (by omega) hle)]
  · rw [slopeOf, Nat.min_eq_right hle, Nat.min_eq_right (Nat.pow_le_pow_right (by omega) hle)]

/-- A window's words are nearest to the real window, and within 3 · 10^-8 of it. -/
theorem configure_win_rounds {b8 : Byte} {nch : Nat} (h : configError? b8 nch = none) (s : State) (pf cf : BlockFlag) {k : Nat}
    (hk : k < slopeOf b8 pf cf) :
    StrictlyNearest (realWindow (slopeOf b8 pf cf) k) ((configure b8 nch s).winWord pf cf k) ∧
      |((value (F32.ofBits ((configure b8 nch s).winWord pf cf k)) : ℚ) : ℝ) - realWindow (slopeOf b8 pf cf) k| ≤ 3 / 10 ^ 8 := by
  obtain ⟨e, h6, h13, he⟩ := exists_slopeOf h pf cf
  rw [configure_windows h s pf cf hk, he]
  exact Lut.win_rounds h6 h13 (he ▸ hk)

/-- Settles O36: `configure_win_rounds`. -/
theorem configWindowShapes : Obligations.ConfigWindowShapes := by
  intro b8 nch s h
  obtain ⟨hc, hx⟩ := exec_config h
  exact ⟨_, hx, fun pf cf k hk => (configure_win_rounds hc s pf cf hk).1⟩

/-! ### The properties of the windows (R147) -/

/-- The angle whose squared sine a window value is the sine of. -/
noncomputable def slopeAngle (L k : Nat) : ℝ := (k + 1 / 2) / L * (Real.pi / 2)

theorem slopeAngle_mem {L k : Nat} (hk : k < L) : 0 ≤ slopeAngle L k ∧ slopeAngle L k ≤ Real.pi / 2 := by
  have hL : (0 : ℝ) < L := by exact_mod_cast (Nat.zero_le k).trans_lt hk
  have h1 : (k : ℝ) + 1 ≤ L := by exact_mod_cast hk
  have hfrac : ((k : ℝ) + 1 / 2) / L ≤ 1 := (div_le_one hL).2 (by linarith)
  exact ⟨by unfold slopeAngle; positivity, mul_le_of_le_one_left (by positivity) hfrac⟩

theorem slopeAngle_mirror {L k : Nat} (hk : k < L) : slopeAngle L (L - 1 - k) = Real.pi / 2 - slopeAngle L k := by
  have hL : (0 : ℝ) < L := by exact_mod_cast (Nat.zero_le k).trans_lt hk
  have hcast : ((L - 1 - k : ℕ) : ℝ) = L - 1 - k := by rw [Nat.cast_sub (by omega), Nat.cast_sub (by omega), Nat.cast_one]
  rw [slopeAngle, slopeAngle, hcast]
  field_simp
  ring

theorem realWindow_eq (L k : Nat) : realWindow L k = Real.sin (Real.pi / 2 * Real.sin (slopeAngle L k) ^ 2) := rfl

/-- The outer angle stays within a quarter turn. -/
theorem outerAngle_mem (x : ℝ) : 0 ≤ Real.pi / 2 * Real.sin x ^ 2 ∧ Real.pi / 2 * Real.sin x ^ 2 ≤ Real.pi / 2 :=
  ⟨by positivity, mul_le_of_le_one_right (by positivity) (Real.sin_sq_le_one x)⟩

theorem realWindow_mem (L k : Nat) : 0 ≤ realWindow L k ∧ realWindow L k ≤ 1 := by
  obtain ⟨h0, h1⟩ := outerAngle_mem (slopeAngle L k)
  rw [realWindow_eq]
  exact ⟨Real.sin_nonneg_of_nonneg_of_le_pi h0 (by linarith [Real.pi_pos]), Real.sin_le_one _⟩

theorem realWindow_le_succ {L k : Nat} (hk : k + 1 < L) : realWindow L k ≤ realWindow L (k + 1) := by
  have hpi := Real.pi_pos
  obtain ⟨h0, -⟩ := slopeAngle_mem (show k < L by omega)
  obtain ⟨-, h1⟩ := slopeAngle_mem hk
  have hangle : slopeAngle L k ≤ slopeAngle L (k + 1) := by unfold slopeAngle; gcongr; simp
  have hsin : Real.sin (slopeAngle L k) ≤ Real.sin (slopeAngle L (k + 1)) :=
    Real.sin_le_sin_of_le_of_le_pi_div_two (by linarith) h1 hangle
  have hnonneg := Real.sin_nonneg_of_nonneg_of_le_pi h0 (by linarith)
  rw [realWindow_eq, realWindow_eq]
  refine Real.sin_le_sin_of_le_of_le_pi_div_two ?_ (outerAngle_mem _).2 (by gcongr)
  linarith [(outerAngle_mem (slopeAngle L k)).1]

/-- R147 (c) over the real numbers: the mirrored inner angle has the cosine for its sine, and so has the outer one. -/
theorem realWindow_complementary {L k : Nat} (hk : k < L) : realWindow L k ^ 2 + realWindow L (L - 1 - k) ^ 2 = 1 := by
  rw [realWindow_eq, realWindow_eq, slopeAngle_mirror hk, Real.sin_pi_div_two_sub, Real.cos_sq', mul_sub, mul_one, Real.sin_pi_div_two_sub]
  exact Real.sin_sq_add_cos_sq _

/-- Correct rounding is monotone. -/
theorem value_le_of_strictlyNearest {r r' : ℝ} {w w' : Word} (h : StrictlyNearest r w) (h' : StrictlyNearest r' w') (hr : r ≤ r') :
    value (F32.ofBits w) ≤ value (F32.ofBits w') := by
  by_contra! hlt
  have h1 := h.2 w' h'.1 hlt.ne
  have h2 := h'.2 w h.1 hlt.ne'
  have hlt' : ((value (F32.ofBits w') : ℚ) : ℝ) < value (F32.ofBits w) := by exact_mod_cast hlt
  rw [← sq_lt_sq] at h1 h2
  nlinarith

/-- How an error enters a square. -/
theorem abs_sq_sub_sq_le {x a ε : ℝ} (ha : 0 ≤ a) (hx : |x - a| ≤ ε) : |x ^ 2 - a ^ 2| ≤ ε * (2 * a + ε) := by
  have hsum : |x + a| ≤ 2 * a + ε := by
    have := abs_add_le (x - a) (2 * a)
    rw [abs_of_nonneg (by positivity : 0 ≤ 2 * a), show x - a + 2 * a = x + a by ring] at this
    linarith
  rw [sq_sub_sq, mul_comm, abs_mul]
  gcongr
  exact (abs_nonneg _).trans hx

/-- Two numbers near the two of a power-complementary pair are nearly one. -/
theorem power_complementary_near {a b x y : ℝ} (ha : 0 ≤ a) (hb : 0 ≤ b) (hab : a ^ 2 + b ^ 2 = 1) (hx : |x - a| ≤ 3 / 10 ^ 8)
    (hy : |y - b| ≤ 3 / 10 ^ 8) : |x ^ 2 + y ^ 2 - 1| < 1 / 10 ^ 7 := by
  have hsum : a + b ≤ 15 / 10 := by nlinarith [sq_nonneg (a - b)]
  calc |x ^ 2 + y ^ 2 - 1| = |(x ^ 2 - a ^ 2) + (y ^ 2 - b ^ 2)| := by rw [← hab]; congr 1; ring
    _ ≤ |x ^ 2 - a ^ 2| + |y ^ 2 - b ^ 2| := abs_add_le _ _
    _ ≤ 3 / 10 ^ 8 * (2 * a + 3 / 10 ^ 8) + 3 / 10 ^ 8 * (2 * b + 3 / 10 ^ 8) := add_le_add (abs_sq_sub_sq_le ha hx) (abs_sq_sub_sq_le hb hy)
    _ < 1 / 10 ^ 7 := by linarith

/-- Settles O37: bounds and order by the monotony of rounding, the complementary powers by its nearness. -/
theorem windowProperties : Obligations.WindowProperties := by
  refine ⟨fun b8 nch s h => ?_, fun L k hk => realWindow_complementary hk⟩
  obtain ⟨hc, hx⟩ := exec_config h
  refine ⟨_, hx, fun pf cf k hk => ?_⟩
  intro L w
  obtain ⟨hnear, hclose⟩ := configure_win_rounds hc s pf cf hk
  obtain ⟨-, hclose'⟩ := configure_win_rounds hc s pf cf (show L - 1 - k < L by omega)
  obtain ⟨h0, h1⟩ := realWindow_mem L k
  refine ⟨?_, ?_, fun hk1 => ?_, ?_⟩
  · exact Lut.value_zero ▸ value_le_of_strictlyNearest Lut.strictlyNearest_zero hnear h0
  · exact Lut.value_one ▸ value_le_of_strictlyNearest hnear Lut.strictlyNearest_one h1
  · exact value_le_of_strictlyNearest hnear (configure_win_rounds hc s pf cf hk1).1 (realWindow_le_succ hk1)
  · have hreal := power_complementary_near h0 (realWindow_mem L (L - 1 - k)).1 (realWindow_complementary hk) hclose hclose'
    have hcast : ((|w k ^ 2 + w (L - 1 - k) ^ 2 - 1| : ℚ) : ℝ) < ((1 / 10 ^ 7 : ℚ) : ℝ) := by push_cast; exact hreal
    exact Rat.cast_lt.1 hcast

end Sys2Proof.Machine
end

section
/-!
PROOFS. `IMDCT` (41_imdct.md R160 to R177): what it writes and what it reads, and its datapath as the rules index it.
-/

namespace Sys2Proof.Machine

open Sys2Proof.Reference Transform

/-! ### What the command writes and reads (R160, R162, R177) -/

/-- An `IMDCT` that passes its checks ends in the transform of its channel, marked in `XF_DONE`. -/
theorem exec_imdct {s : State} {ch : Nat} {f : BlockFlag} (hc : s.status.configured = true) (hch : ch < s.nch)
    (hseq : s.status.xfDone = 0 ∨ s.status.xfFlag = f) :
    exec (.imdct ch f) s = .next { transformChannel ch f s with status := s.status.markTransformed ch f } :=
  exec_eq_execWith ▸ execImdct_ok ((imdctError?_none_iff ch f s).2 ⟨hc, hch, hseq⟩)

/-- Settles O45: `exec_imdct`, by the laws of `transformChannel` and `markTransformed`. -/
theorem imdctWritesBlock : Obligations.ImdctWritesBlock := by
  intro s ch f hc hl hch hseq
  obtain ⟨-, -, -, -, h8⟩ := hl
  have hrow : blkAddr ch (2 ^ s.exponent f) = blkAddr ch 0 + 4 * 2 ^ s.exponent f := by simp only [blkAddr]; omega
  refine ⟨_, exec_imdct hc hch hseq, fun j hj => (blkWord_transformChannel j hj).symm, fun a ha => ?_, rfl, fun c => ?_⟩
  · exact readByte_transformChannel_outside a (by rw [hrow]; exact ha)
  · have hbit : (c < 8 ∧ c = ch) ↔ c = ch := by omega
    simpa only [hbit] using Status.getLsbD_markTransformed s.status ch f c

/-- States that agree on the words of a spectrum agree on its bytes. -/
theorem readByte_coef_congr {s t : State} {ch N : Nat} (h : ∀ k, k < N → s.coefWord ch k = t.coefWord ch k) {a : Nat}
    (h1 : coefAddr ch 0 ≤ a) (h2 : a < coefAddr ch 0 + 4 * N) : s.mem.readByte a = t.mem.readByte a := by
  have hr : (a - coefAddr ch 0) % 4 < 4 := Nat.mod_lt _ (by omega)
  have ha : a = coefAddr ch ((a - coefAddr ch 0) / 4) + (a - coefAddr ch 0) % 4 := by simp only [coefAddr] at *; omega
  have hword : s.mem.readWord (coefAddr ch _) = t.mem.readWord (coefAddr ch _) := h ((a - coefAddr ch 0) / 4) (by omega)
  rw [ha, ← Memory.extractLsb'_readWord _ _ hr, hword, Memory.extractLsb'_readWord _ _ hr]

/-- Settles O47: `State.transformed_congr`. -/
theorem imdctReadsOnly : Obligations.ImdctReadsOnly := by
  intro s s' ch f hc hc' hl hm hm' hch hrb hseq hseq' hcoef hlut
  have hch' : ch < s'.nch := State.nch_congr hrb ▸ hch
  have he : s.exponent f = s'.exponent f := State.exponent_congr hrb f
  have hy : s.transformed ch f = s'.transformed ch f :=
    State.transformed_congr hm hm' hrb (exponent_bounds hl f).2 (fun a h1 h2 => (hlut a h1 h2).symm) fun a => readByte_coef_congr hcoef
  refine ⟨_, _, exec_imdct hc hch hseq, exec_imdct hc' hch' hseq', fun j hj => Option.some.inj ?_⟩
  calc some ((transformChannel ch f s).blkWord ch j) = (s.transformed ch f)[j]?.map F32.toBits := blkWord_transformChannel j hj
    _ = (s'.transformed ch f)[j]?.map F32.toBits := by rw [hy]
    _ = some ((transformChannel ch f s').blkWord ch j) := (blkWord_transformChannel j (he ▸ hj)).symm

/-! ### The datapath by its indices (R165 to R170) -/

/-- The datapath is the six steps on the elements of the lists themselves, beyond their ends the zeros that are read there. -/
theorem imdct_eq_vec_getD {α : Type} (A : Arith α) {T : Bank α} {b : Nat} (hbr : ∀ r ∈ T.br, r < 2 ^ b) (X : List α) :
    imdct A T b X = vec (4 * 2 ^ b)
      (indexImdct A b (fun k => X.getD k A.zero) (fun m => T.rot.getD m (czero A)) (fun k => T.tw.getD k (czero A))
        fun i => T.br.getD i 0) := by
  have hlt (i : Nat) : T.br.getD i 0 < 2 ^ b := by
    rcases Nat.lt_or_ge i T.br.length with hi | hi
    · rw [List.getD_eq_getElem _ _ hi]; exact hbr _ (List.getElem_mem hi)
    · rw [List.getD_eq_default _ _ hi]; exact Nat.two_pow_pos b
  exact imdct_eq_vec A T (fun _ _ => rfl) (fun _ _ => rfl) (fun _ _ => rfl) fun i _ => ⟨rfl, hlt i⟩

/-- Settles O48: `imdct_eq_vec_getD`. -/
theorem datapathFollowsRules : Obligations.DatapathFollowsRules := fun _ A _ _ X hbr => imdct_eq_vec_getD A hbr X

end Sys2Proof.Machine
end

section
/-!
PROOFS. The datapath over the real numbers (41_imdct.md R172): the passes are a discrete Fourier transform, the rotations around it make a
DCT-IV of it, and the two unfoldings the direct cosine sum of R163.
-/

namespace Sys2Proof.Machine.Transform

open Sys2Proof.Reference

/-! ### Pairs of real numbers as complex numbers -/

/-- The complex number of a pair. -/
def toComplex (x : Cplx ℝ) : ℂ := ⟨x.re, x.im⟩

@[simp] theorem toComplex_re (x : Cplx ℝ) : (toComplex x).re = x.re := rfl

@[simp] theorem toComplex_im (x : Cplx ℝ) : (toComplex x).im = x.im := rfl

@[simp] theorem toComplex_cadd (x y : Cplx ℝ) : toComplex (cadd realArith x y) = toComplex x + toComplex y := rfl

@[simp] theorem toComplex_csub (x y : Cplx ℝ) : toComplex (csub realArith x y) = toComplex x - toComplex y := rfl

/-- A table's pair for an angle. -/
noncomputable def cosSin (θ : ℝ) : Cplx ℝ := ⟨Real.cos θ, Real.sin θ⟩

/-- What a rotation by the pair of an angle multiplies by: `cos θ - i·sin θ`. -/
noncomputable def phase (θ : ℝ) : ℂ := Complex.exp (-θ * Complex.I)

theorem phase_re (θ : ℝ) : (phase θ).re = Real.cos θ := by
  rw [phase, ← Complex.ofReal_neg, Complex.exp_ofReal_mul_I_re, Real.cos_neg]

theorem phase_im (θ : ℝ) : (phase θ).im = -Real.sin θ := by
  rw [phase, ← Complex.ofReal_neg, Complex.exp_ofReal_mul_I_im, Real.sin_neg]

theorem phase_add (θ η : ℝ) : phase (θ + η) = phase θ * phase η := by
  rw [phase, phase, phase, ← Complex.exp_add]; push_cast; ring_nf

theorem phase_pow (θ : ℝ) (k : Nat) : phase θ ^ k = phase (k * θ) := by
  rw [phase, phase, ← Complex.exp_nat_mul]; push_cast; ring_nf

theorem phase_pi : phase Real.pi = -1 := by
  rw [phase, neg_mul, Complex.exp_neg, Complex.exp_pi_mul_I]; norm_num

theorem toComplex_rotate (x : Cplx ℝ) (θ : ℝ) : toComplex (rotate realArith x (cosSin θ)) = toComplex x * phase θ := by
  refine Complex.ext ?_ ?_
  · simp [rotate, realArith, cosSin, phase_re, phase_im]
  · simp [rotate, realArith, cosSin, phase_re, phase_im]; ring

/-! ### The discrete Fourier transform -/

/-- The root of unity of a transform of length `n`. -/
noncomputable def root (n : Nat) : ℂ := phase (2 * Real.pi / n)

theorem root_pow (n k : Nat) : root n ^ k = phase (2 * Real.pi * k / n) := by rw [root, phase_pow]; congr 1; ring

theorem root_two_mul_sq (h : Nat) : root (2 * h) ^ 2 = root h := by
  rw [root_pow, root]; congr 1; push_cast; rw [mul_comm (2 * Real.pi), mul_div_mul_left _ _ two_ne_zero]

theorem root_two_mul_pow {h : Nat} (hh : 0 < h) : root (2 * h) ^ h = -1 := by
  rw [root_pow, ← phase_pi]; congr 1; push_cast; field_simp

/-- The discrete Fourier transform of length `n`. -/
noncomputable def dft (n : Nat) (y : Nat → ℂ) (q : Nat) : ℂ := ∑ l ∈ Finset.range n, y l * root n ^ (l * q)

/-- A sum of an even number of terms, by pairs. -/
theorem sum_range_two_mul {R : Type} [AddCommMonoid R] (f : Nat → R) (n : Nat) :
    ∑ l ∈ Finset.range (2 * n), f l = ∑ l ∈ Finset.range n, f (2 * l) + ∑ l ∈ Finset.range n, f (2 * l + 1) := by
  rw [← Finset.sum_add_distrib]
  induction n with
  | zero => simp
  | succ n ih => rw [Nat.mul_succ, Finset.sum_range_succ, Finset.sum_range_succ, Finset.sum_range_succ, ih, add_assoc]

/-- Decimation in time: a transform of even length from those of the even and the odd elements. -/
theorem dft_two_mul (h : Nat) (y : Nat → ℂ) (q : Nat) :
    dft (2 * h) y q = dft h (fun l => y (2 * l)) q + dft h (fun l => y (2 * l + 1)) q * root (2 * h) ^ q := by
  rw [dft, sum_range_two_mul, dft, dft, Finset.sum_mul]
  congr 1
  · refine Finset.sum_congr rfl fun l _ => ?_
    rw [← root_two_mul_sq h, ← pow_mul, mul_assoc]
  · refine Finset.sum_congr rfl fun l _ => ?_
    rw [← root_two_mul_sq h, ← pow_mul, mul_assoc, ← pow_add]
    congr 2; ring

theorem dft_add_length {h : Nat} (hh : 0 < h) (y : Nat → ℂ) (q : Nat) : dft h y (q + h) = dft h y q := by
  have hone : root h ^ h = 1 := by rw [← root_two_mul_sq, pow_right_comm, root_two_mul_pow hh]; norm_num
  refine Finset.sum_congr rfl fun l _ => ?_
  rw [Nat.mul_add, pow_add, Nat.mul_comm l h, pow_mul _ h, hone, one_pow, mul_one]

/-- The upper half of a transform of even length. -/
theorem dft_two_mul_add {h : Nat} (hh : 0 < h) (y : Nat → ℂ) (q : Nat) :
    dft (2 * h) y (q + h) = dft h (fun l => y (2 * l)) q - dft h (fun l => y (2 * l + 1)) q * root (2 * h) ^ q := by
  rw [dft_two_mul, dft_add_length hh, dft_add_length hh, pow_add, root_two_mul_pow hh]
  ring

/-! ### The passes (R166, R167) -/

section Butterfly
variable {α : Type} (A : Arith α) {h r : Nat} (hr : r < h) (q : Nat) (W v : Nat → Cplx α)
include hr

theorem butterfly_lower :
    butterfly A h W v (2 * h * q + r) = cadd A (v (2 * h * q + r)) (rotate A (v (2 * h * q + r + h)) (W r)) := by
  rw [butterfly, Nat.mul_add_mod, Nat.mod_eq_of_lt (by omega), if_pos hr]

theorem butterfly_upper :
    butterfly A h W v (2 * h * q + (r + h)) = csub A (v (2 * h * q + r)) (rotate A (v (2 * h * q + r + h)) (W r)) := by
  rw [butterfly, Nat.mul_add_mod, Nat.mod_eq_of_lt (by omega), if_neg (by omega), ← Nat.add_assoc, Nat.add_sub_cancel, Nat.add_sub_cancel]

end Butterfly

/-- The vector before the passes of span `h` and more, `M = 2^c · h`: block `q` of length `h` holds the transform of every `2^c`-th element of
`x`, from element `bitrev_c(q)` on. -/
def HoldsDfts (c h : Nat) (x : Nat → ℂ) (v : Nat → Cplx ℝ) : Prop :=
  ∀ q r, q < 2 ^ c → r < h → toComplex (v (h * q + r)) = dft h (fun l => x (Lut.bitrev c q + 2 ^ c * l)) r

section Passes
variable {M : Nat} {W : Nat → Cplx ℝ} (hW : ∀ k, W k = cosSin (2 * Real.pi * k / M))
include hW

theorem indexPass_holdsDfts {c h : Nat} (hM : M = 2 ^ c * (2 * h)) (hh : 0 < h) {x : Nat → ℂ} {v : Nat → Cplx ℝ}
    (hv : HoldsDfts (c + 1) h x v) : HoldsDfts c (2 * h) x (indexPass realArith M h W v) := by
  intro q r hq hr
  have hstride : M / (2 * h) = 2 ^ c := by rw [hM]; exact Nat.mul_div_cancel _ (by omega)
  have htwiddle (z : Cplx ℝ) (j : Nat) : toComplex (rotate realArith z (W (j * 2 ^ c))) = toComplex z * root (2 * h) ^ j := by
    rw [hW, toComplex_rotate, root_pow, hM]
    congr 2; push_cast; field_simp
  have hlower {r : Nat} (hr : r < h) :
      toComplex (v (2 * h * q + r)) = dft h (fun l => x (Lut.bitrev c q + 2 ^ c * (2 * l))) r := by
    have hbr (l : Nat) : Lut.bitrev (c + 1) (2 * q) + 2 ^ (c + 1) * l = Lut.bitrev c q + 2 ^ c * (2 * l) := by
      rw [Lut.bitrev, Nat.mul_mod_right, Nat.mul_div_cancel_left _ (by omega)]; ring
    have h1 := hv (2 * q) r (by rw [Nat.pow_succ]; omega) hr
    simp only [hbr] at h1
    rwa [Nat.mul_left_comm, ← Nat.mul_assoc] at h1
  have hupper {r : Nat} (hr : r < h) :
      toComplex (v (2 * h * q + r + h)) = dft h (fun l => x (Lut.bitrev c q + 2 ^ c * (2 * l + 1))) r := by
    have hbr (l : Nat) : Lut.bitrev (c + 1) (2 * q + 1) + 2 ^ (c + 1) * l = Lut.bitrev c q + 2 ^ c * (2 * l + 1) := by
      rw [Lut.bitrev, show (2 * q + 1) % 2 = 1 by omega, show (2 * q + 1) / 2 = q by omega]; ring
    have h1 := hv (2 * q + 1) r (by rw [Nat.pow_succ]; omega) hr
    simp only [hbr] at h1
    rwa [show h * (2 * q + 1) + r = 2 * h * q + r + h by ring] at h1
  rw [indexPass_eq_butterfly, hstride]
  rcases Nat.lt_or_ge r h with hlt | hge
  · rw [butterfly_lower _ hlt, toComplex_cadd, htwiddle, hlower hlt, hupper hlt, dft_two_mul]
  · obtain ⟨r, rfl⟩ := Nat.exists_eq_add_of_le' hge
    have hlt : r < h := by omega
    rw [butterfly_upper _ hlt, toComplex_csub, htwiddle, hlower hlt, hupper hlt, dft_two_mul_add hh]

/-- The passes on the permuted vector are the transform of length `M`. -/
theorem indexPasses_holdsDfts {x : Nat → ℂ} :
    ∀ (c h : Nat) (v : Nat → Cplx ℝ), M = 2 ^ c * h → 0 < h → HoldsDfts c h x v →
      ∀ r, r < M → toComplex (indexPasses realArith M W c h v r) = dft M x r := by
  intro c
  induction c with
  | zero =>
    intro h v hM _ hv r hr
    obtain rfl : M = h := by omega
    simpa [Lut.bitrev, indexPasses] using hv 0 r (by simp) hr
  | succ c ih =>
    intro h v hM hh hv
    have hM' : M = 2 ^ c * (2 * h) := by rw [hM, Nat.pow_succ, Nat.mul_assoc]
    exact ih _ _ hM' (by omega) (indexPass_holdsDfts hW hM' hh hv)

end Passes

/-- Before the first pass every element is its own transform. -/
theorem holdsDfts_permuted (b : Nat) (v : Nat → Cplx ℝ) :
    HoldsDfts b 1 (fun m => toComplex (v m)) fun i => v (Lut.bitrev b i) := by
  intro q r _ hr
  obtain rfl : r = 0 := by omega
  simp [dft]

/-! ### The rotations around the passes (R165, R168) -/

/-- The angle of R141's entry `m`. -/
noncomputable def rotAngle (M m : Nat) : ℝ := 2 * Real.pi * (m + 1 / 8) / (4 * M)

/-- The angle of coefficient `2m` and DCT-IV element `2q`. -/
noncomputable def evenAngle (M m q : Nat) : ℝ := Real.pi / (2 * M) * (2 * m + 1 / 2) * (2 * q + 1 / 2)

/-- The three angles that a coefficient is turned by add up to its angle in the DCT-IV. -/
theorem phase_mul_root_mul_phase {M : Nat} (hM : 0 < M) (m q : Nat) :
    phase (rotAngle M m) * root M ^ (m * q) * phase (rotAngle M q) = phase (evenAngle M m q) := by
  rw [root_pow, ← phase_add, ← phase_add]
  congr 1
  unfold rotAngle evenAngle
  push_cast
  field_simp
  ring

/-- `Z[q]` of R168: the pairs of coefficients, each turned by its angle. -/
theorem toComplex_postRotate {b : Nat} (x : Nat → ℝ) {W ω : Nat → Cplx ℝ} (hW : ∀ k, W k = cosSin (2 * Real.pi * k / (2 ^ b : ℕ)))
    (hω : ∀ m, ω m = cosSin (rotAngle (2 ^ b) m)) {q : Nat} (hq : q < 2 ^ b) :
    toComplex (indexPostRotate realArith
        (indexPasses realArith (2 ^ b) W b 1 fun i => indexPreRotate realArith (2 ^ b) x ω (Lut.bitrev b i)) ω q) =
      ∑ m ∈ Finset.range (2 ^ b), toComplex ⟨x (2 * m), x (2 * 2 ^ b - 1 - 2 * m)⟩ * phase (evenAngle (2 ^ b) m q) := by
  have hpre (m : Nat) : toComplex (indexPreRotate realArith (2 ^ b) x ω m) =
      toComplex ⟨x (2 * m), x (2 * 2 ^ b - 1 - 2 * m)⟩ * phase (rotAngle (2 ^ b) m) := by
    rw [← toComplex_rotate, ← hω]; rfl
  have hpost (z : Cplx ℝ) : toComplex (twiddled realArith z (ω q)) = toComplex z * phase (rotAngle (2 ^ b) q) := by
    rw [← toComplex_rotate, ← hω]; rfl
  rw [indexPostRotate, hpost, indexPasses_holdsDfts hW b 1 _ (Nat.mul_one _).symm Nat.one_pos (holdsDfts_permuted b _) q hq, dft,
    Finset.sum_mul]
  refine Finset.sum_congr rfl fun m _ => ?_
  rw [hpre, ← phase_mul_root_mul_phase (Nat.two_pow_pos b)]
  ring

/-! ### The DCT-IV (R169) -/

/-- The DCT-IV of `2M` coefficients, at any index. -/
noncomputable def dctIV (M : Nat) (x : Nat → ℝ) (k : Nat) : ℝ :=
  ∑ i ∈ Finset.range (2 * M), x i * Real.cos (Real.pi / (2 * M) * (i + 1 / 2) * (k + 1 / 2))

/-- The coefficients in the pairs of R165. -/
theorem dctIV_eq_sum_pairs (M : Nat) (x : Nat → ℝ) (k : Nat) :
    dctIV M x k = ∑ m ∈ Finset.range M, (x (2 * m) * Real.cos (Real.pi / (2 * M) * (2 * m + 1 / 2) * (k + 1 / 2)) +
      x (2 * M - 1 - 2 * m) * Real.cos (Real.pi / (2 * M) * (2 * M - (2 * m + 1 / 2)) * (k + 1 / 2))) := by
  rw [dctIV, sum_range_two_mul, Finset.sum_add_distrib]
  congr 1
  · refine Finset.sum_congr rfl fun m _ => ?_
    push_cast; rfl
  · rw [← Finset.sum_range_reflect]
    refine Finset.sum_congr rfl fun m hm => ?_
    have hm := Finset.mem_range.1 hm
    have hidx : 2 * (M - 1 - m) + 1 = 2 * M - 1 - 2 * m := by omega
    have hcast : ((2 * M - 1 - 2 * m : ℕ) : ℝ) + 1 / 2 = 2 * M - (2 * m + 1 / 2) := by
      rw [Nat.cast_sub (by omega), Nat.cast_sub (by omega)]; push_cast; ring
    rw [hidx, hcast]

/-- A quarter turn and whole turns less an angle: its sine. -/
theorem cos_quarter_sub (k : Nat) (θ : ℝ) : Real.cos (Real.pi * (2 * k + 1 / 2) - θ) = Real.sin θ := by
  rw [← Real.cos_pi_div_two_sub, ← Real.cos_add_nat_mul_two_pi (Real.pi / 2 - θ) k]
  congr 1; ring

section Symmetry
variable {M : Nat} (hM : 0 < M) (m q : Nat)
include hM

theorem cos_mirrored_row :
    Real.cos (Real.pi / (2 * M) * (2 * M - (2 * m + 1 / 2)) * (2 * q + 1 / 2)) = Real.sin (evenAngle M m q) := by
  rw [← cos_quarter_sub q, evenAngle]
  congr 1; field_simp

theorem cos_mirrored_column :
    Real.cos (Real.pi / (2 * M) * (2 * m + 1 / 2) * (2 * M - (2 * q + 1 / 2))) = Real.sin (evenAngle M m q) := by
  rw [← cos_quarter_sub m, evenAngle]
  congr 1; field_simp

theorem cos_mirrored_both :
    Real.cos (Real.pi / (2 * M) * (2 * M - (2 * m + 1 / 2)) * (2 * M - (2 * q + 1 / 2))) = -Real.cos (evenAngle M m q) := by
  rw [← Real.cos_sub_pi, ← Real.cos_add_nat_mul_two_pi (_ - Real.pi) M, ← Real.cos_add_nat_mul_two_pi (_ * _ * _) (m + q), evenAngle]
  congr 1; push_cast; field_simp; ring

end Symmetry

/-- Step 5 of the datapath leaves the DCT-IV. -/
theorem indexUnfold_eq_dctIV {M : Nat} {x : Nat → ℝ} {Z : Nat → Cplx ℝ}
    (hZ : ∀ q, q < M → toComplex (Z q) = ∑ m ∈ Finset.range M, toComplex ⟨x (2 * m), x (2 * M - 1 - 2 * m)⟩ * phase (evenAngle M m q))
    {k : Nat} (hk : k < 2 * M) : indexUnfold realArith M Z k = dctIV M x k := by
  have hM : 0 < M := by omega
  rw [dctIV_eq_sum_pairs, indexUnfold]
  rcases Nat.mod_two_eq_zero_or_one k with heven | hodd
  · obtain ⟨q, rfl⟩ : ∃ q, k = 2 * q := ⟨k / 2, by omega⟩
    rw [if_pos heven, Nat.mul_div_cancel_left _ two_pos, ← toComplex_re, hZ q (by omega), Complex.re_sum]
    refine Finset.sum_congr rfl fun m _ => ?_
    push_cast
    rw [cos_mirrored_row hM, Complex.mul_re, phase_re, phase_im, mul_neg, sub_neg_eq_add]
    rfl
  · obtain ⟨q, hq, rfl⟩ : ∃ q, q < M ∧ k = 2 * M - 1 - 2 * q := ⟨(2 * M - 1 - k) / 2, by omega, by omega⟩
    have hcast : ((2 * M - 1 - 2 * q : ℕ) : ℝ) + 1 / 2 = 2 * M - (2 * q + 1 / 2) := by
      rw [Nat.cast_sub (by omega), Nat.cast_sub (by omega)]; push_cast; ring
    have hidx : (2 * M - 1 - (2 * M - 1 - 2 * q)) / 2 = q := by omega
    have hneg (a : ℝ) : realArith.neg a = -a := rfl
    rw [if_neg (by omega), hidx, hcast, hneg, ← toComplex_im, hZ q hq, Complex.im_sum, ← Finset.sum_neg_distrib]
    refine Finset.sum_congr rfl fun m _ => ?_
    rw [cos_mirrored_column hM, cos_mirrored_both hM, Complex.mul_im, phase_re, phase_im, toComplex_re, toComplex_im]
    ring

/-! ### The block (R170) -/

section Extension
variable {M : Nat} (x : Nat → ℝ) {k : Nat}

/-- The DCT-IV is odd around the end of its second period. -/
theorem dctIV_mirror (hk : k < 4 * M) : dctIV M x (4 * M - 1 - k) = -dctIV M x k := by
  have hM : 0 < M := by omega
  have hcast : ((4 * M - 1 - k : ℕ) : ℝ) + 1 / 2 = 4 * M - (k + 1 / 2) := by
    rw [Nat.cast_sub (by omega), Nat.cast_sub (by omega)]; push_cast; ring
  rw [dctIV, dctIV, ← Finset.sum_neg_distrib]
  refine Finset.sum_congr rfl fun i _ => ?_
  rw [← mul_neg, hcast, ← Real.cos_pi_sub, ← Real.cos_add_nat_mul_two_pi (Real.pi - _) i]
  congr 2; field_simp; ring

theorem dctIV_add_period (hM : 0 < M) : dctIV M x (k + 4 * M) = -dctIV M x k := by
  rw [dctIV, dctIV, ← Finset.sum_neg_distrib]
  refine Finset.sum_congr rfl fun i _ => ?_
  rw [← mul_neg, ← Real.cos_add_pi, ← Real.cos_add_nat_mul_two_pi (_ + Real.pi) i]
  congr 2; push_cast; field_simp; ring

end Extension

/-- Step 6 of the datapath extends the DCT-IV by its symmetries. -/
theorem indexBlock_dctIV {M : Nat} {x u : Nat → ℝ} (hu : ∀ k, k < 2 * M → u k = dctIV M x k) {j : Nat} (hj : j < 4 * M) :
    indexBlock realArith M u j = dctIV M x (j + M) := by
  have hneg (a : ℝ) : realArith.neg a = -a := rfl
  unfold indexBlock
  split_ifs with h1 h2
  · exact hu _ (by omega)
  · rw [hu _ (by omega), hneg, ← dctIV_mirror x (by omega)]
    congr 1; omega
  · rw [hu _ (by omega), hneg, ← dctIV_add_period x (by omega)]
    congr 1; omega

theorem directImdct_eq_dctIV {M : Nat} (hM : 0 < M) (X : List ℝ) (j : Nat) :
    directImdct (4 * M) X j = dctIV M (fun k => X.getD k 0) (j + M) := by
  rw [directImdct, dctIV, show 4 * M / 2 = 2 * M by omega]
  refine Finset.sum_congr rfl fun k _ => ?_
  congr 2; push_cast; field_simp; ring

/-! ### The whole datapath (R163) -/

/-- `realBank` casts the list of indices; its element `m` is nevertheless the entry of `m`. -/
theorem rot_realBank {b m : Nat} (hm : m < 2 ^ b) (d : Cplx ℝ) : (realBank b).rot.getD m d = cosSin (rotAngle (2 ^ b) m) := by
  simp [realBank, cosSin, rotAngle, ← List.map_eq_flatMap, hm]

theorem tw_realBank {b k : Nat} (hk : k < 2 ^ b / 2) (d : Cplx ℝ) :
    (realBank b).tw.getD k d = cosSin (2 * Real.pi * k / (2 ^ b : ℕ)) := by
  simp [realBank, cosSin, ← List.map_eq_flatMap, hk]

/-- Settles O49: the steps of the datapath, one after the other. -/
theorem datapathExact : Obligations.DatapathExact := by
  intro b X _ j hj
  have hdatapath : imdct realArith (realBank b) b X =
      vec (4 * 2 ^ b) (indexImdct realArith b (fun k => X.getD k 0) (fun m => cosSin (rotAngle (2 ^ b) m))
        (fun k => cosSin (2 * Real.pi * k / (2 ^ b : ℕ))) (Lut.bitrev b)) :=
    imdct_eq_vec realArith (realBank b) (fun _ _ => rfl) (fun _ hm => rot_realBank hm _) (fun _ hk => tw_realBank hk _)
      fun i hi => ⟨getD_vec hi _ _, bitrev_lt b i⟩
  rw [hdatapath, directImdct_eq_dctIV (Nat.two_pow_pos b), vec, List.getElem?_map, List.getElem?_range hj]
  refine congrArg some (indexBlock_dctIV (fun k hk => indexUnfold_eq_dctIV (fun q hq => ?_) hk) hj)
  exact toComplex_postRotate _ (fun _ => rfl) (fun _ => rfl) hq

end Sys2Proof.Machine.Transform
end

section
/-!
PROOFS. Zero coefficients (41_imdct.md R173): with finite tables every step of the datapath leaves zeros, and from `+0` coefficients, whatever
the signs of the FFT twiddle factors, the values `+0` up to the unfoldings.
-/

namespace Sys2Proof.Machine.F32

open Sys2Proof.Reference

/-! ### Arithmetic on zeros (00_scope.md R15) -/

/-- A zero of either sign. -/
def IsZero (x : F32) : Prop := ∃ s, x = .fin s 0

theorem isZero_zero : zero.IsZero := ⟨false, rfl⟩

/-- A sum of zeros: `-0` only if both are (00_scope.md R15). -/
theorem addFinite_zeros (s t : Bool) : addFinite s 0 t 0 = .fin (s && t) 0 := by
  cases s <;> cases t <;> simp [addFinite, round_zero_mag, zero]

section Ops
variable {x y : F32} (hx : x.IsZero)
include hx

theorem isZero_neg : x.neg.IsZero := by
  obtain ⟨s, rfl⟩ := hx
  exact ⟨!s, rfl⟩

theorem isZero_mul (hy : IsFinite y) : (x.mul y).IsZero := by
  obtain ⟨s, rfl⟩ := hx
  obtain ⟨t, n, rfl⟩ := exists_fin_of_isFinite hy
  exact ⟨s ^^ t, by rw [mul_fin, Nat.zero_mul, round_zero_mag]⟩

theorem isZero_add (hy : y.IsZero) : (x.add y).IsZero := by
  obtain ⟨s, rfl⟩ := hx
  obtain ⟨t, rfl⟩ := hy
  exact ⟨_, addFinite_zeros s t⟩

theorem isZero_sub (hy : y.IsZero) : (x.sub y).IsZero := by
  obtain ⟨s, rfl⟩ := hx
  obtain ⟨t, rfl⟩ := hy
  exact ⟨_, addFinite_zeros s !t⟩

theorem zero_add_isZero : zero.add x = zero := by
  obtain ⟨s, rfl⟩ := hx
  exact addFinite_zeros false s

theorem zero_sub_isZero : zero.sub x = zero := by
  obtain ⟨s, rfl⟩ := hx
  exact addFinite_zeros false !s

end Ops

theorem zero_mul_nonneg (n : Nat) : zero.mul (.fin false n) = zero := by
  rw [zero, mul_fin, Nat.zero_mul, round_zero_mag]; rfl

/-! ### The words of zeros -/

theorem toBits_fin_zero (s : Bool) : (F32.fin s 0).toBits = if s then 0x80000000 else 0x00000000 := by cases s <;> decide

theorem isZeroWord_toBits {x : F32} (hx : x.IsZero) : IsZeroWord x.toBits := by
  obtain ⟨s, rfl⟩ := hx
  rw [toBits_fin_zero]
  cases s
  · exact .inl rfl
  · exact .inr rfl

theorem isZero_ofBits {w : Word} (hw : IsZeroWord w) : (ofBits w).IsZero := by
  obtain rfl | rfl := hw
  · exact ⟨false, Lut.ofBits_zero⟩
  · exact ⟨true, by decide +kernel⟩

/-- A datum above 0 has the sign bit 0. -/
theorem exists_fin_false_of_value_pos {x : F32} (hx : 0 < value x) : ∃ m, x = .fin false m := by
  cases x with
  | nan s p => exact absurd hx (lt_irrefl 0)
  | inf s => exact absurd hx (lt_irrefl 0)
  | fin s m =>
    cases s with
    | false => exact ⟨m, rfl⟩
    | true =>
      have hneg : value (.fin true m) = -(m / 2 ^ 149) := by rw [value_fin, scaled, signOf, if_pos rfl, neg_one_mul, neg_div]
      exact absurd hx (hneg ▸ (neg_nonpos.2 (by positivity)).not_gt)

end Sys2Proof.Machine.F32

namespace Sys2Proof.Machine.Transform

open Sys2Proof.Reference F32

/-! ### The steps of the datapath on zeros -/

/-- What every butterfly keeps, the passes keep. -/
theorem indexPasses_induct {α : Type} {A : Arith α} {W : Nat → Cplx α} {p : Cplx α → Prop}
    (hadd : ∀ u x k, p u → p x → p (cadd A u (rotate A x (W k)))) (hsub : ∀ u x k, p u → p x → p (csub A u (rotate A x (W k))))
    (M : Nat) : ∀ (count h : Nat) {v : Nat → Cplx α}, (∀ i, p (v i)) → ∀ i, p (indexPasses A M W count h v i) := by
  intro count
  induction count with
  | zero => exact fun _ _ hv => hv
  | succ count ih =>
    refine fun h v hv => ih _ fun i => ?_
    rw [indexPass_eq_butterfly, butterfly]
    split
    · exact hadd _ _ _ (hv _) (hv _)
    · exact hsub _ _ _ (hv _) (hv _)

/-- A pair of finite data. -/
def FinitePair (w : Cplx F32) : Prop := IsFinite w.re ∧ IsFinite w.im

/-- A pair of finite data whose cosine has the sign bit 0, as the entries of R141 are. -/
def RotationPair (w : Cplx F32) : Prop := (∃ m, w.re = .fin false m) ∧ IsFinite w.im

theorem RotationPair.finite {w : Cplx F32} (hw : RotationPair w) : FinitePair w := by
  obtain ⟨⟨m, hre⟩, him⟩ := hw
  exact ⟨hre ▸ trivial, him⟩

/-- A pair of zeros, of any signs. -/
def ZeroPair (z : Cplx F32) : Prop := z.re.IsZero ∧ z.im.IsZero

theorem zeroPair_czero : ZeroPair (czero Arith.binary32) := ⟨isZero_zero, isZero_zero⟩

theorem zeroPair_rotate {z w : Cplx F32} (hz : ZeroPair z) (hw : FinitePair w) : ZeroPair (rotate Arith.binary32 z w) := by
  obtain ⟨hre, him⟩ := hz
  obtain ⟨hc, hs⟩ := hw
  exact ⟨isZero_add (isZero_mul hre hc) (isZero_mul him hs), isZero_sub (isZero_mul him hc) (isZero_mul hre hs)⟩

section Zeros
variable {u t : Cplx F32} (ht : ZeroPair t)
include ht

theorem zeroPair_cadd (hu : ZeroPair u) : ZeroPair (cadd Arith.binary32 u t) := ⟨isZero_add hu.1 ht.1, isZero_add hu.2 ht.2⟩

theorem zeroPair_csub (hu : ZeroPair u) : ZeroPair (csub Arith.binary32 u t) := ⟨isZero_sub hu.1 ht.1, isZero_sub hu.2 ht.2⟩

theorem czero_cadd : cadd Arith.binary32 (czero Arith.binary32) t = czero Arith.binary32 :=
  congrArg₂ Cplx.mk (zero_add_isZero ht.1) (zero_add_isZero ht.2)

theorem czero_csub : csub Arith.binary32 (czero Arith.binary32) t = czero Arith.binary32 :=
  congrArg₂ Cplx.mk (zero_sub_isZero ht.1) (zero_sub_isZero ht.2)

end Zeros

/-- A rotation by a cosine that is not negative keeps `+0 + i·(+0)`. -/
theorem rotate_czero {w : Cplx F32} (hw : RotationPair w) : rotate Arith.binary32 (czero Arith.binary32) w = czero Arith.binary32 := by
  obtain ⟨⟨m, hre⟩, him⟩ := hw
  have hc : zero.mul w.re = zero := hre ▸ zero_mul_nonneg m
  have hs : (zero.mul w.im).IsZero := isZero_mul isZero_zero him
  have h1 : (zero.mul w.re).add (zero.mul w.im) = zero := by rw [hc, zero_add_isZero hs]
  have h2 : (zero.mul w.re).sub (zero.mul w.im) = zero := by rw [hc, zero_sub_isZero hs]
  exact congrArg₂ Cplx.mk h1 h2

/-! ### The unfoldings of zeros (R169, R170) -/

theorem isZero_indexUnfold {Z : Nat → Cplx F32} (hZ : ∀ q, ZeroPair (Z q)) (M k : Nat) : (indexUnfold Arith.binary32 M Z k).IsZero := by
  unfold indexUnfold
  split
  · exact (hZ _).1
  · exact isZero_neg (hZ _).2

theorem isZero_indexBlock {u : Nat → F32} (hu : ∀ k, (u k).IsZero) (M j : Nat) : (indexBlock Arith.binary32 M u j).IsZero := by
  unfold indexBlock
  split_ifs
  · exact hu _
  · exact isZero_neg (hu _)
  · exact isZero_neg (hu _)

/-- The odd elements of the DCT-IV are the negated ones. -/
theorem indexUnfold_czero {Z : Nat → Cplx F32} (hZ : ∀ q, Z q = czero Arith.binary32) (M k : Nat) :
    indexUnfold Arith.binary32 M Z k = .fin (decide (k % 2 = 1)) 0 := by
  unfold indexUnfold
  split
  · rename_i heven; rw [hZ, heven]; rfl
  · rename_i hodd; rw [hZ, show k % 2 = 1 by omega]; rfl

/-- Beyond `M` the unfolding negates, and between `M` and `3M` it also swaps odd and even. -/
theorem indexBlock_alternating {M : Nat} (hM : 2 ∣ M) {u : Nat → F32} (hu : ∀ k, u k = .fin (decide (k % 2 = 1)) 0) (j : Nat) :
    indexBlock Arith.binary32 M u j = .fin (decide ((j % 2 = 1 ∧ j < 3 * M) ∨ (j % 2 = 0 ∧ 3 * M ≤ j))) 0 := by
  have hneg (k : Nat) : Arith.binary32.neg (u k) = .fin (decide (k % 2 = 0)) 0 := by
    rw [hu]
    rcases Nat.mod_two_eq_zero_or_one k with h | h
    · rw [h]; rfl
    · rw [h]; rfl
  unfold indexBlock
  split_ifs with h1 h2
  · rw [hu]; congr 1; rw [decide_eq_decide]; omega
  · rw [hneg]; congr 1; rw [decide_eq_decide]; omega
  · rw [hneg]; congr 1; rw [decide_eq_decide]; omega

/-! ### The datapath on zeros -/

section Datapath
variable {ω W : Nat → Cplx F32} (hω : ∀ m, RotationPair (ω m)) (hW : ∀ k, FinitePair (W k))
include hω hW

theorem isZero_indexImdct {x : Nat → F32} (hx : ∀ k, (x k).IsZero) (b : Nat) (br : Nat → Nat) (j : Nat) :
    (indexImdct Arith.binary32 b x ω W br j).IsZero := by
  have hpre (m : Nat) : ZeroPair (indexPreRotate Arith.binary32 (2 ^ b) x ω m) :=
    zeroPair_rotate (z := ⟨x (2 * m), x (2 * 2 ^ b - 1 - 2 * m)⟩) ⟨hx _, hx _⟩ (hω m).finite
  have hpasses := indexPasses_induct (fun _ _ k hu hz => zeroPair_cadd (zeroPair_rotate hz (hW k)) hu)
    (fun _ _ k hu hz => zeroPair_csub (zeroPair_rotate hz (hW k)) hu) (2 ^ b) b 1 fun i => hpre (br i)
  exact isZero_indexBlock (isZero_indexUnfold (fun q => zeroPair_rotate (hpasses q) (hω q).finite) _) _ _

theorem indexImdct_zero {b : Nat} (hb : 0 < b) {x : Nat → F32} (hx : ∀ k, x k = zero) (br : Nat → Nat) (j : Nat) :
    indexImdct Arith.binary32 b x ω W br j = .fin (decide ((j % 2 = 1 ∧ j < 3 * 2 ^ b) ∨ (j % 2 = 0 ∧ 3 * 2 ^ b ≤ j))) 0 := by
  have hpre (m : Nat) : indexPreRotate Arith.binary32 (2 ^ b) x ω m = czero Arith.binary32 := by
    rw [← rotate_czero (hω m), czero, indexPreRotate, hx, hx]; rfl
  have ht (k : Nat) : ZeroPair (rotate Arith.binary32 (czero Arith.binary32) (W k)) := zeroPair_rotate zeroPair_czero (hW k)
  have hpasses := indexPasses_induct (p := (· = czero Arith.binary32)) (fun _ _ k hu hz => by rw [hu, hz, czero_cadd (ht k)])
    (fun _ _ k hu hz => by rw [hu, hz, czero_csub (ht k)]) (2 ^ b) b 1 fun i => hpre (br i)
  refine indexBlock_alternating (dvd_pow_self 2 hb.ne') (indexUnfold_czero (fun q => ?_) _) _
  exact (congrArg (rotate Arith.binary32 · (ω q)) (hpasses q)).trans (rotate_czero (hω q))

end Datapath

/-- What holds of a vector's elements and of the default holds at every index. -/
theorem forall_getD_vec {β : Type} {p : β → Prop} {n : Nat} {v : Nat → β} {d : β} (hv : ∀ i, i < n → p (v i)) (hd : p d) (i : Nat) :
    p ((vec n v).getD i d) := by
  rcases Nat.lt_or_ge i n with h | h
  · rw [getD_vec h]; exact hv i h
  · rw [List.getD_eq_default _ _ (by simpa using h)]; exact hd

end Sys2Proof.Machine.Transform

namespace Sys2Proof.Machine

open Sys2Proof.Reference Transform F32

/-! ### The tables of a legal size are finite -/

section Tables
variable {e : Nat} (h6 : 6 ≤ e) (h13 : e ≤ 13)
include h6 h13

theorem rotationPair_builtBank (m : Nat) : RotationPair ((builtBank e .default).rot.getD m (czero Arith.binary32)) := by
  refine forall_getD_vec (fun m hm => ?_) ⟨⟨0, rfl⟩, trivial⟩ m
  obtain ⟨⟨-, hc⟩, ⟨hs, -⟩, -⟩ := Lut.rotation_rounds h6 h13 hm
  exact ⟨exists_fin_false_of_value_pos hc, hs⟩

theorem finitePair_builtBank (k : Nat) : FinitePair ((builtBank e .default).tw.getD k (czero Arith.binary32)) := by
  refine forall_getD_vec (fun k hk => ?_) ⟨trivial, trivial⟩ k
  obtain ⟨⟨hc, -⟩, -⟩ := Lut.twc_rounds h6 h13 hk
  obtain ⟨⟨hs, -⟩, -⟩ := Lut.tws_rounds h6 h13 hk
  exact ⟨hc, hs⟩

end Tables

/-! ### The command (R173) -/

theorem br_builtBank_lt (e : Nat) (P : Params) : ∀ r ∈ (builtBank e P).br, r < 2 ^ (e - 2) := by
  intro r hr
  obtain ⟨i, -, rfl⟩ := List.mem_map.1 hr
  exact bitrev_lt _ i

/-- What holds of the zero read beyond a spectrum's end and of all its coefficients holds at every index. -/
theorem forall_getD_spectrum {s : State} (hm : s.mem.Wf) {ch : Nat} {f : BlockFlag} {p : F32 → Prop}
    (hx : ∀ k, k < 2 ^ s.exponent f / 2 → p (F32.ofBits (s.coefWord ch k))) (h0 : p F32.zero) (k : Nat) :
    p ((s.spectrum ch f).getD k F32.zero) := by
  rw [spectrum_eq_map hm, List.map_map]
  exact forall_getD_vec hx h0 k

/-- The block that `IMDCT` writes on a configured engine, by the indices of R165 to R170 and the tables that `CONFIG` built. -/
theorem blkWord_transformChannel_built {s : State} (hc : s.status.configured = true) (hl : s.ConfigLegal) (hm : s.mem.Wf)
    (hb : s.LutBuilt) (ch : Nat) (f : BlockFlag) {j : Nat} (hj : j < 2 ^ s.exponent f) :
    (transformChannel ch f s).blkWord ch j =
      (indexImdct Arith.binary32 (s.exponent f - 2) (fun k => (s.spectrum ch f).getD k F32.zero)
        (fun m => (builtBank (s.exponent f) .default).rot.getD m (czero Arith.binary32))
        (fun k => (builtBank (s.exponent f) .default).tw.getD k (czero Arith.binary32))
        (fun i => (builtBank (s.exponent f) .default).br.getD i 0) j).toBits := by
  have h6 := (exponent_bounds hl f).1
  have hn : 2 ^ s.exponent f = 4 * 2 ^ (s.exponent f - 2) := by rw [← Nat.pow_add 2 2]; congr 1; omega
  have h := blkWord_transformChannel (P := .default) (ch := ch) j hj
  rw [State.transformed_default (by omega), bank_eq_builtBank hc hl hb hm, State.passCount,
    imdct_eq_vec_getD _ (br_builtBank_lt _ _), vec, List.getElem?_map, List.getElem?_range (hn ▸ hj)] at h
  exact Option.some.inj h

/-- Settles O50: `isZero_indexImdct` and `indexImdct_zero` at the tables that `CONFIG` built. -/
theorem zeroInputZeroBlock : Obligations.ZeroInputZeroBlock := by
  intro s ch f hc hl hm hb hch hseq
  obtain ⟨h6, h13⟩ := exponent_bounds hl f
  have hω := rotationPair_builtBank h6 h13
  have hW := finitePair_builtBank h6 h13
  refine ⟨_, exec_imdct hc hch hseq, fun hx j hj => ?_, fun hx j hj => ?_⟩
  · have hzero := forall_getD_spectrum hm (fun k hk => isZero_ofBits (hx k hk)) isZero_zero
    exact (blkWord_transformChannel_built hc hl hm hb ch f hj).symm ▸ isZeroWord_toBits (isZero_indexImdct hω hW hzero _ _ _)
  · have hzero := forall_getD_spectrum hm (p := (· = F32.zero)) (fun k hk => by rw [hx k hk]; exact Lut.ofBits_zero) rfl
    have hn : 3 * (2 ^ s.exponent f / 2) / 2 = 3 * 2 ^ (s.exponent f - 2) := by
      rw [show s.exponent f = s.exponent f - 2 + 2 by omega, Nat.pow_add, Nat.add_sub_cancel]; omega
    refine (blkWord_transformChannel_built hc hl hm hb ch f hj).trans ?_
    rw [indexImdct_zero hω hW (by omega) hzero, toBits_fin_zero, hn]
    simp only [decide_eq_true_eq]

end Sys2Proof.Machine
end

section
/-!
PROOFS. The conversion to PCM (42_window_ola.md R196): scaling by 32768 is exact or overflows, so the conversion rounds once, to an integer.
-/

namespace Sys2Proof.Machine.F32

open Sys2Proof.Reference

/-! ### Scaling by 32768 -/

theorem roundShift_of_dvd {m shift : Nat} (h : 2 ^ shift ∣ m) : roundShift m shift = m / 2 ^ shift := by
  simp [roundShift, Nat.mod_eq_zero_of_dvd h, Nat.shiftRight_eq_div_pow]

/-- The significand of a scaled magnitude of binary32 loses no bit. -/
theorem two_pow_dvd_scaled {e f : Nat} (hf : f < 2 ^ 23) :
    2 ^ (149 + roundExp (fieldMag e f * 2 ^ 164) 149) ∣ fieldMag e f * 2 ^ 164 := by
  have hlead := le_of_roundExp_ne_zero (mag := fieldMag e f * 2 ^ 164) (k := 149)
  generalize roundExp (fieldMag e f * 2 ^ 164) 149 = E at *
  rcases Nat.le_total (149 + E) 164 with h | h
  · exact Dvd.dvd.mul_left (Nat.pow_dvd_pow 2 h) _
  · obtain ⟨d, hd⟩ := Nat.exists_eq_add_of_le' h
    have h0 := hlead (by omega)
    rw [hd, Nat.pow_add, ← Nat.mul_assoc] at h0
    rw [hd, Nat.pow_add]
    exact Nat.mul_dvd_mul_right (two_pow_dvd_fieldMag hf (Nat.le_of_mul_le_mul_right h0 (Nat.two_pow_pos 164))) _

/-- 32768 times a datum is exact, or an infinity. -/
theorem mul_pcmScale (s : Bool) {e f : Nat} (hf : f < 2 ^ 23) :
    (F32.fin s (fieldMag e f)).mul pcmScale =
      if fieldMag e f * 2 ^ 15 < overflowMag then .fin s (fieldMag e f * 2 ^ 15) else .inf s := by
  have hdvd := two_pow_dvd_scaled (e := e) hf
  have hexact : roundSig (fieldMag e f * 2 ^ 164) 149 * 2 ^ roundExp (fieldMag e f * 2 ^ 164) 149 = fieldMag e f * 2 ^ 15 := by
    refine Nat.eq_of_mul_eq_mul_right (Nat.two_pow_pos 149) ?_
    rw [Nat.mul_assoc, ← Nat.pow_add, Nat.add_comm _ 149, roundSig, roundShift_of_dvd hdvd, Nat.div_mul_cancel hdvd, Nat.mul_assoc,
      ← Nat.pow_add]
  rw [pcmScale, mul_fin, Bool.xor_false, round_eq, hexact]

/-! ### Rounding to an integer -/

/-- An integer from its sign and magnitude. -/
def withSign (neg : Bool) (r : Nat) : ℤ := if neg then -r else r

theorem cast_withSign (neg : Bool) (r : Nat) : ((withSign neg r : ℤ) : ℚ) = signOf neg * r := by
  cases neg <;> simp [withSign, signOf]

theorem withSign_mod_two (neg : Bool) {r : Nat} (h : r % 2 = 0) : withSign neg r % 2 = 0 := by
  cases neg <;> simp only [withSign] <;> omega

/-- `roundShift` rounds to the nearest integer, ties to even, with either sign. -/
theorem isNearestEven_withSign (neg : Bool) (m shift : Nat) :
    IsNearestEven (signOf neg * m / 2 ^ shift) (withSign neg (roundShift m shift)) := by
  obtain ⟨hle, heven⟩ := roundShift_near m shift
  have hdist : |((withSign neg (roundShift m shift) : ℤ) : ℚ) - signOf neg * m / 2 ^ shift| =
      ((|2 * ((roundShift m shift : ℤ) * 2 ^ shift - m)| : ℤ) : ℚ) / 2 ^ shift * (1 / 2) := by
    have h : signOf neg * roundShift m shift - signOf neg * m / 2 ^ shift =
        signOf neg * ((2 * ((roundShift m shift : ℤ) * 2 ^ shift - m) : ℤ) : ℚ) / 2 ^ shift * (1 / 2) := by
      push_cast; field_simp
    rw [cast_withSign, h, abs_mul, abs_div, abs_mul, abs_signOf, one_mul, Int.cast_abs, abs_of_pos (show (0 : ℚ) < 1 / 2 by norm_num),
      abs_of_pos (show (0 : ℚ) < 2 ^ shift by positivity)]
  have hpos : (0 : ℚ) < 2 ^ shift := by positivity
  rw [IsNearestEven, hdist]
  refine ⟨?_, fun h => withSign_mod_two neg (heven ?_)⟩
  · exact mul_le_of_le_one_left (by norm_num) ((div_le_one hpos).2 (by exact_mod_cast hle))
  · have h1 : ((|2 * ((roundShift m shift : ℤ) * 2 ^ shift - m)| : ℤ) : ℚ) / 2 ^ shift = 1 := by linarith
    exact_mod_cast (div_eq_one_iff_eq hpos.ne').1 h1

/-- What overflows binary32 is far beyond the range of PCM. -/
theorem le_roundShift_of_overflow {m : Nat} (h : ¬ m < overflowMag) : 32768 ≤ roundShift m 149 := by
  have hnear := (abs_le.1 (roundShift_near m 149).1).1
  have hm : 2 ^ 128 * 2 ^ 149 ≤ m := overflowMag_eq 128 149 rfl ▸ not_lt.1 h
  zify at hm ⊢
  linarith

end Sys2Proof.Machine.F32

namespace Sys2Proof.Machine

open Sys2Proof.Reference F32

/-! ### The conversion (R196) -/

theorem saturate16_eq (r : ℤ) : saturate16 r = max (-32768) (min 32767 r) := by
  unfold saturate16
  split_ifs <;> omega

/-- A finite datum's sample: one rounding of 32768 times its value, saturated. -/
theorem pcmConvert_fin (s : Bool) {e f : Nat} (hf : f < 2 ^ 23) :
    pcmConvert (.fin s (fieldMag e f)) = max (-32768) (min 32767 (withSign s (roundShift (fieldMag e f * 2 ^ 15) 149))) := by
  have hmul := mul_pcmScale s (e := e) hf
  by_cases h : fieldMag e f * 2 ^ 15 < overflowMag
  · rw [if_pos h] at hmul
    rw [← saturate16_eq, pcmConvert, hmul]
    rfl
  · rw [if_neg h] at hmul
    have hbig := le_roundShift_of_overflow h
    rw [pcmConvert, hmul]
    generalize roundShift (fieldMag e f * 2 ^ 15) 149 = r at hbig ⊢
    cases s with
    | false => show (32767 : ℤ) = max (-32768) (min 32767 (r : ℤ)); omega
    | true => show (-32768 : ℤ) = max (-32768) (min 32767 (-(r : ℤ))); omega

theorem pcmConvert_mem (x : F32) : -32768 ≤ pcmConvert x ∧ pcmConvert x ≤ 32767 := by
  have hsat (r : ℤ) : -32768 ≤ saturate16 r ∧ saturate16 r ≤ 32767 := by rw [saturate16_eq]; omega
  unfold pcmConvert
  split
  · decide
  · split
    · decide
    · split <;> decide
    · exact hsat _

/-- A sample is stored in two's complement (10_state.md R52). -/
theorem toInt_pcmSample (x : F32) : (pcmSample x).toInt = pcmConvert x := by
  obtain ⟨h1, h2⟩ := pcmConvert_mem x
  rw [pcmSample, BitVec.toInt_ofInt, Int.bmod_eq_of_le] <;> omega

/-- Settles O52: `pcmConvert_fin` for the finite data, whose value is a signed magnitude over 2^149. -/
theorem pcmConvertRounds : Obligations.PcmConvertRounds := by
  intro w x
  refine ⟨fun h => if_pos h, fun h => by rw [h]; rfl, fun h => by rw [h]; rfl, fun h => ?_, toInt_pcmSample x⟩
  obtain ⟨s, m, hx⟩ := exists_fin_of_isFinite h
  obtain ⟨e, f, -, hf, rfl⟩ := (exists_ofBits_iff s m).1 ⟨w, hx⟩
  refine ⟨_, ?_, by rw [hx, pcmConvert_fin s hf]⟩
  have hv : value x * 32768 = signOf s * (fieldMag e f * 2 ^ 15 : ℕ) / 2 ^ 149 := by
    rw [hx, value_fin, scaled]; push_cast; ring
  rw [hv]
  exact isNearestEven_withSign s _ _

end Sys2Proof.Machine
end

section
/-!
PROOFS. `OLA` (42_window_ola.md R190 to R198): the ranges of its indices, the samples it writes, the blocks it retains and what it leaves
alone.
-/

namespace Sys2Proof.Machine

open Sys2Proof.Reference

/-! ### The geometry (R193) -/

/-- Every block size is a multiple of 64, up to 8192 (40_setup.md R131). -/
theorem exists_two_pow_exponent {s : State} (hl : s.ConfigLegal) (f : BlockFlag) :
    ∃ k, 1 ≤ k ∧ k ≤ 128 ∧ 2 ^ s.exponent f = 64 * k := by
  obtain ⟨h6, h13⟩ := exponent_bounds hl f
  obtain ⟨d, hd⟩ := Nat.exists_eq_add_of_le h6
  exact ⟨2 ^ d, Nat.one_le_two_pow, (Nat.pow_le_pow_right (by omega) (by omega) : 2 ^ d ≤ 2 ^ 7), by rw [hd, Nat.pow_add]⟩

/-- Settles O51: both sizes are multiples of 64, and the rest is linear in them. -/
theorem overlapRanges : Obligations.OverlapRanges := by
  intro s pf cf hl
  obtain ⟨p, hp1, hp, hP⟩ := exists_two_pow_exponent hl pf
  obtain ⟨c, hc1, hc, hC⟩ := exists_two_pow_exponent hl cf
  refine ⟨rfl, ?_, rfl, rfl, ?_, ?_, ?_, ?_, ?_, fun t h1 h2 => ?_⟩ <;>
    simp only [State.overlap, State.blockSize, Overlap.slope, Overlap.first, Overlap.past, Overlap.count, Overlap.current, hP, hC] at * <;>
    omega

/-! ### Words -/

/-- Words of equal bytes are equal, wherever they stand. -/
theorem Memory.readWord_eq_of_bytes {m m' : Memory} {a a' : Nat} (h : ∀ b, b < 4 → m.readByte (a + b) = m'.readByte (a' + b)) :
    m.readWord a = m'.readWord a' := by
  have h0 : m.readByte a = m'.readByte a' := h 0 (by omega)
  rw [Memory.readWord, Memory.readWord, h0, h 1 (by omega), h 2 (by omega), h 3 (by omega)]

/-! ### The command (R190, R191) -/

/-- `OLA` of a complete packet. -/
theorem exec_ola {s : State} (h : PacketComplete s) : exec .ola s = .next (olaCore s) :=
  exec_eq_execWith ▸ execOla_ok ((olaError?_none_iff s).2 h)

theorem olaCore_nch (s : State) : (olaCore s).nch = s.nch := State.nch_congr (olaCore_configRb s)

/-- `OLA` writes `STATUS`, `OUT_COUNT` and the memory alone. -/
theorem olaCore_sameButMemory (s : State) :
    SameButMemory { s with status := (olaCore s).status, outCount := (olaCore s).outCount } (olaCore s) := by
  unfold SameButMemory olaCore emitPcm
  split <;> rfl

section Legal
variable {s : State} (hl : s.ConfigLegal)
include hl

/-- `OUT_TOTAL` after `OLA` (R195, R198). -/
theorem olaCore_outTotal : (olaCore s).outTotal.toNat = (olaCore s).outCount.toNat * s.nch := by
  have h := olaCore_samples_le (P := .default) hl
  rw [← olaCore_nch] at h ⊢
  exact State.outTotal_toNat h

/-- The samples beyond those that `OLA` counts are kept, all of them where no block is retained (R192, R195). -/
theorem olaCore_pcm_beyond {i : Nat} (h : s.status.prevValid = true → (olaCore s).outCount.toNat * s.nch ≤ i) (hi : i < 32768) :
    (olaCore s).pcm i = s.pcm i := by
  have hbyte (b : Nat) (hb : b < 2) : (olaCore s).mem.readByte (pcmAddr i + b) = s.mem.readByte (pcmAddr i + b) := by
    refine olaCore_frame hl _ (fun c _ => .inl ?_) fun hv => .inr ?_
    · simp only [pcmAddr, prevAddr]; omega
    · have := h hv
      simp only [pcmAddr]; omega
  have h0 : (olaCore s).mem.readByte (pcmAddr i) = s.mem.readByte (pcmAddr i) := hbyte 0 (by omega)
  rw [State.pcm, State.pcm, hbyte 1 (by omega), h0]

variable (hm : s.mem.Wf)
include hm

/-- The samples are R194's, by the default conversion (R195). -/
theorem olaCore_pcm (hv : s.status.prevValid = true) {t c : Nat} (ht : t < (s.overlap s.status.prevFlag s.status.xfFlag).count)
    (hc : c < s.nch) :
    (olaCore s).pcm (t * s.nch + c) = pcmSample (overlapSample s s.status.prevFlag s.status.xfFlag c t) := by
  rw [← olaSample_eq_overlapSample hm _ _ _ ht]
  exact (olaCore_mem hl hm).2.2 hv t c ht hc

/-- The words retained are those of the second half of the block (R197). -/
theorem olaCore_prevWord {c i : Nat} (hc : c < s.nch) (hi : i < 2 ^ s.exponent s.status.xfFlag / 2) :
    (olaCore s).prevWord c i = s.blkWord c (2 ^ s.exponent s.status.xfFlag / 2 + i) := by
  obtain ⟨-, hret, -⟩ := olaCore_mem (P := .default) hl hm
  simp only [State.blockSize] at hret
  generalize 2 ^ s.exponent s.status.xfFlag / 2 = half at *
  refine Memory.readWord_eq_of_bytes fun b hb => ?_
  rw [show prevAddr c i + b = prevAddr c 0 + (4 * i + b) by simp only [prevAddr]; omega, hret c _ hc (by omega)]
  congr 1
  simp only [blkAddr]; omega

end Legal

/-! ### The statements -/

/-- Settles O53: without a retained block the output step writes `OUT_COUNT` alone. -/
theorem olaFirstPacket : Obligations.OlaFirstPacket := by
  intro s hdone hl hm hv
  have hcount : (olaCore s).outCount = 0 := by rw [olaCore_outCount, emitPcm_of_first hv]
  refine ⟨_, exec_ola hdone, hcount, ?_, fun i => olaCore_pcm_beyond hl (by simp [hv]), fun c i => olaCore_prevWord hl hm, olaCore_status s⟩
  rw [State.outTotal, hcount]
  simp

/-- Settles O54: `olaCore_pcm` and `olaCore_pcm_beyond`, with the count of R193. -/
theorem olaWritesSamples : Obligations.OlaWritesSamples := by
  intro s hdone hl hm hv
  have hcount : (olaCore s).outCount.toNat = (s.overlap s.status.prevFlag s.status.xfFlag).count := by
    rw [olaCore_outCount_toNat hl, if_pos hv]
  refine ⟨_, exec_ola hdone, fun t c => olaCore_pcm hl hm hv, hcount, ?_, fun i hi => olaCore_pcm_beyond hl fun _ => ?_⟩
  · rw [olaCore_outTotal hl, hcount]; rfl
  · rwa [hcount]

/-- Settles O55: `olaCore_prevWord`, and the frame of `olaCore`. -/
theorem olaRetainsBlocks : Obligations.OlaRetainsBlocks := fun s hdone hl hm =>
  ⟨_, exec_ola hdone, fun _ _ => olaCore_prevWord hl hm, olaCore_frame hl, olaCore_status s, olaCore_sameButMemory s⟩

end Sys2Proof.Machine
end

section
/-!
PROOFS. `BLOCK` (42_window_ola.md R200, R201): the transforms of all channels leave a complete packet, which `OLA`'s core then ends, and the
single `IMDCT` commands leave the same.
-/

namespace Sys2Proof.Machine

open Sys2Proof.Reference

/-! ### The packet that the transforms leave (R200) -/

theorem exec_block {s : State} (hc : s.status.configured = true) (f : BlockFlag) :
    exec (.block f) s = .next (olaCore (transformAll f s)) :=
  exec_eq_execWith ▸ execBlock_ok hc

theorem transformAll_packetComplete {s : State} (hc : s.status.configured = true) (hl : s.ConfigLegal) (f : BlockFlag) :
    PacketComplete (transformAll f s) := by
  have h8 : 2 ^ s.nch ≤ 2 ^ 8 := Nat.pow_le_pow_right (by omega) hl.2.2.2.2
  have hn : (transformAll f s).nch = s.nch := State.nch_congr (transformAll_configRb f s)
  rw [PacketComplete, hn, transformAll_status]
  exact ⟨hc, Nat.mod_eq_of_lt (by simp only [State.allChannels]; omega)⟩

/-- Everything the transforms of a whole packet put into memory. -/
theorem transformAll_spec {s : State} (hl : s.ConfigLegal) (hm : s.mem.Wf) (f : BlockFlag) :
    (transformAll f s).mem.Wf ∧
      (∀ a, (∀ c, c < s.nch → a < blkAddr c 0 ∨ blkAddr c (2 ^ s.exponent f) ≤ a) →
        (transformAll f s).mem.readByte a = s.mem.readByte a) ∧
      ∀ c j, c < s.nch → j < 2 ^ s.exponent f →
        some ((transformAll f s).blkWord c j) = (s.transformed c f)[j]?.map F32.toBits := by
  simpa only [State.blkWord, transformAll_mem] using
    transformFirst_spec (P := .default) (exponent_bounds hl f).2 hm s.nch hl.2.2.2.2

/-- Settles O56: the state between is `transformAll`'s. -/
theorem blockTransformsAll : Obligations.BlockTransformsAll := by
  intro s f hc hl hm
  have hdone := transformAll_packetComplete hc hl f
  obtain ⟨hwf, hframe, hblk⟩ := transformAll_spec hl hm f
  refine ⟨transformAll f s, _, exec_block hc f, exec_ola hdone, fun c j hcn hj => (hblk c j hcn hj).symm, hframe, transformAll_eq f s, hdone,
    hwf, ?_⟩
  rw [olaCore_status, transformAll_status]
  rfl

/-! ### The single commands (R201) -/

theorem execAll_append {is js : List Instr} {s t : State} (h : execAll is s = .next t) : execAll (is ++ js) s = execAll js t := by
  induction is generalizing s with
  | nil => cases h; rfl
  | cons i is ih =>
    obtain ⟨s', hs'⟩ := exec_next i s
    simp only [List.cons_append, execAll, hs'] at h ⊢
    exact ih h

theorem execAll_singleton {i : Instr} {s t : State} (h : exec i s = .next t) : execAll [i] s = .next t := by
  simp [execAll, h]

/-- Marking the channels one after the other marks them all (10_state.md R41). -/
theorem Status.markTransformed_markAll (st : Status) (k : Nat) (f : BlockFlag) :
    (st.markAll (2 ^ k - 1) f).markTransformed k f = st.markAll (2 ^ (k + 1) - 1) f := by
  have h : ((st.markAll (2 ^ k - 1) f).markTransformed k f).xfDone = (st.markAll (2 ^ (k + 1) - 1) f).xfDone := by
    apply BitVec.eq_of_getLsbD_eq
    intro c hc
    rw [Status.getLsbD_markTransformed, Status.getLsbD_markAll, Status.getLsbD_markAll, Bool.eq_iff_iff]
    simp only [Bool.or_eq_true, decide_eq_true_eq]
    omega
  simp only [Status.markTransformed_xfDone, Status.markAll_xfDone] at h
  simp only [Status.markTransformed, Status.markAll, h]

/-- The first channel of a packet. -/
theorem Status.markTransformed_zero {st : Status} (h : st.xfDone = 0) (f : BlockFlag) : st.markTransformed 0 f = st.markAll (2 ^ 1 - 1) f := by
  simp only [Status.markTransformed, Status.markAll, h]
  rfl

/-- `IMDCT` of the first `k` channels of a packet. -/
theorem execAll_imdct {s : State} (f : BlockFlag) (hc : s.status.configured = true) (h0 : s.status.xfDone = 0) :
    ∀ k, 1 ≤ k → k ≤ s.nch →
      execAll ((List.range k).map fun c => .imdct c f) s =
        .next { transformFirst k f s with status := s.status.markAll (2 ^ k - 1) f } := by
  refine Nat.le_induction (fun hk => ?_) fun k _ ih hk => ?_
  · rw [← Status.markTransformed_zero h0]
    exact execAll_singleton (exec_imdct hc hk (.inl h0))
  · rw [List.range_succ, List.map_append, execAll_append (ih (by omega)), ← Status.markTransformed_markAll, transformFirst_succ]
    refine execAll_singleton (exec_imdct hc ?_ (.inr rfl))
    rw [transformFirst_eq]
    exact hk

/-- Settles O57: after the last `IMDCT` the state is `transformAll`'s, and `OLA` is `BLOCK`'s core. -/
theorem blockIsPacket : Obligations.BlockIsPacket := by
  intro s f hc hl h0
  have hall := execAll_imdct f hc h0 s.nch hl.2.2.2.1 le_rfl
  rw [show ({ transformFirst s.nch f s with status := s.status.markAll (2 ^ s.nch - 1) f } : State) = transformAll f s by
    rw [transformAll_eq, transformFirst_eq]; rfl] at hall
  exact ⟨_, exec_block hc f, (execAll_append hall).trans (execAll_singleton (exec_ola (transformAll_packetComplete hc hl f)))⟩

end Sys2Proof.Machine
end

section
/-!
PROOFS. Silence (42_window_ola.md R203): zero blocks, finite windows and a silent retained block give zero samples, and a silent block to
retain.
-/

namespace Sys2Proof.Machine

open Sys2Proof.Reference Transform F32

variable {s : State}

/-- The conversion of a zero of either sign (R196). -/
theorem pcmSample_isZero {x : F32} (hx : x.IsZero) : pcmSample x = 0 := by
  obtain ⟨neg, rfl⟩ := hx
  cases neg <;> decide +kernel

/-- The slope length of a pair of legal sizes is half of one of them (40_setup.md R145). -/
theorem exists_slope (hl : s.ConfigLegal) (pf cf : BlockFlag) :
    ∃ e, 6 ≤ e ∧ e ≤ 13 ∧ (s.overlap pf cf).slope = 2 ^ e / 2 := by
  rcases Nat.le_total (2 ^ s.exponent pf) (2 ^ s.exponent cf) with h | h
  · exact ⟨_, (exponent_bounds hl pf).1, (exponent_bounds hl pf).2, congrArg (· / 2) (Nat.min_eq_left h)⟩
  · exact ⟨_, (exponent_bounds hl cf).1, (exponent_bounds hl cf).2, congrArg (· / 2) (Nat.min_eq_right h)⟩

section Built
variable (hc : s.status.configured = true) (hl : s.ConfigLegal) (hb : s.LutBuilt)
include hc hl hb

/-- The window words of a configured engine are finite (40_setup.md R146). -/
theorem isFinite_winWord (pf cf : BlockFlag) {k : Nat} (hk : k < (s.overlap pf cf).slope) : IsFinite (ofBits (s.winWord pf cf k)) := by
  obtain ⟨e, h6, h13, he⟩ := exists_slope hl pf cf
  have hL : (s.overlap pf cf).slope ≤ 4096 := slope_le (exponent_bounds hl pf).2
  have hw : winAddr (shapeNumber pf cf) k + 4 ≤ 0xB0000 := by
    cases pf <;> cases cf <;> simp only [winAddr, shapeNumber, flagNumber] <;> omega
  have hword : s.winWord pf cf k = Lut.word (.win (2 ^ e / 2) k) := by
    rw [State.winWord, readWord_of_lutBuilt hc hb (by unfold winAddr; omega) hw,
      readWord_setupMemory_win (exponent_bounds hl .short).2 (exponent_bounds hl .long).2 pf cf k (by omega), expOfFlag_exponent,
      expOfFlag_exponent, ← he]
    exact if_pos hk
  rw [hword]
  exact (Lut.win_rounds h6 h13 (he ▸ hk)).1.1

/-- An overlap of zeros is a zero (R194). -/
theorem isZero_overlapSample {pf cf : BlockFlag} {c t : Nat} (hprev : ∀ i, i < 2 ^ s.exponent pf / 2 → IsZeroWord (s.prevWord c i))
    (hblk : ∀ j, j < 2 ^ s.exponent cf → IsZeroWord (s.blkWord c j)) (ht : t < (s.overlap pf cf).count) :
    (overlapSample s pf cf c t).IsZero := by
  obtain ⟨hp, hslope, hcur⟩ := overlap_indices (s.overlap pf cf) (t := t)
  have zprev (h : t < (s.overlap pf cf).past) : (ofBits (s.prevWord c t)).IsZero := isZero_ofBits (hprev t (hp h))
  have zblk (h : (s.overlap pf cf).first ≤ t) : (ofBits (s.blkWord c ((s.overlap pf cf).current t))).IsZero :=
    isZero_ofBits (hblk _ ((hcur h ht).trans_le (Nat.div_le_self _ _)))
  have hwin (k : Nat) (hk : k < (s.overlap pf cf).slope) := isFinite_winWord hc hl hb pf cf hk
  rw [overlapSample_eq]
  dsimp only
  split_ifs with h1 h2
  · exact zprev (h1.trans_le (by simp only [Overlap.first, Overlap.past]; omega))
  · have hk := hslope (not_lt.1 h1) h2
    exact isZero_add (isZero_mul (zprev h2) (hwin _ (by omega))) (isZero_mul (zblk (not_lt.1 h1)) (hwin _ hk))
  · exact zblk (not_lt.1 h1)

variable (hm : s.mem.Wf)
include hm

/-- The transform of zero coefficients is a block of zeros (41_imdct.md R173). -/
theorem isZeroWord_transformed {c : Nat} {f : BlockFlag} (hx : ∀ k, k < 2 ^ s.exponent f / 2 → IsZeroWord (s.coefWord c k)) {j : Nat}
    (hj : j < 2 ^ s.exponent f) : IsZeroWord ((transformChannel c f s).blkWord c j) := by
  obtain ⟨h6, h13⟩ := exponent_bounds hl f
  have hzero := forall_getD_spectrum hm (fun k hk => isZero_ofBits (hx k hk)) isZero_zero
  rw [blkWord_transformChannel_built hc hl hm hb c f hj]
  exact isZeroWord_toBits (isZero_indexImdct (rotationPair_builtBank h6 h13) (finitePair_builtBank h6 h13) hzero _ _ _)

/-- `OLA` of silent blocks after a silent block writes samples 0. -/
theorem olaCore_pcm_silent (hprev : s.status.prevValid = true → ∀ c i, c < s.nch → i < 2 ^ s.exponent s.status.prevFlag / 2 →
      IsZeroWord (s.prevWord c i))
    (hblk : ∀ c j, c < s.nch → j < 2 ^ s.exponent s.status.xfFlag → IsZeroWord (s.blkWord c j)) {i : Nat}
    (hi : i < (olaCore s).outTotal.toNat) : (olaCore s).pcm i = 0 := by
  have hn : 0 < s.nch := hl.2.2.2.1
  rw [olaCore_outTotal hl, olaCore_outCount_toNat hl] at hi
  split_ifs at hi with hv
  · have ht := Nat.div_lt_of_lt_mul (Nat.mul_comm _ s.nch ▸ hi)
    have hch := Nat.mod_lt i hn
    rw [← Nat.div_add_mod' i s.nch, olaCore_pcm hl hm hv ht hch]
    exact pcmSample_isZero (isZero_overlapSample hc hl hb (fun k => hprev hv _ k hch) (fun j => hblk _ j hch) ht)
  · omega

end Built

/-- The transforms leave the retained words as they are (R200). -/
theorem transformAll_prevWord (hl : s.ConfigLegal) (f : BlockFlag) (c i : Nat) : (transformAll f s).prevWord c i = s.prevWord c i :=
  Memory.readWord_congr fun b _ => transformAll_windows hl f _ (.inr (by simp only [prevAddr]; omega))

/-- Every channel's block is the transform of its own coefficients (R200). -/
theorem transformAll_blkWord (hl : s.ConfigLegal) (hm : s.mem.Wf) {f : BlockFlag} {c j : Nat} (hc : c < s.nch) (hj : j < 2 ^ s.exponent f) :
    (transformAll f s).blkWord c j = (transformChannel c f s).blkWord c j := by
  obtain ⟨-, -, hblk⟩ := transformAll_spec hl hm f
  exact Option.some.inj ((hblk c j hc hj).trans (blkWord_transformChannel j hj).symm)

/-- Settles O58: `transformAll` leaves silent blocks, and `olaCore` of them writes silence and retains it. -/
theorem silenceStaysSilent : Obligations.SilenceStaysSilent := by
  intro s f hc hl hm hb hx hprev
  have hrb := transformAll_configRb (P := .default) f s
  have hl' := transformAll_configLegal (P := .default) hl f
  have hm' := (transformAll_spec hl hm f).1
  have hb' : (transformAll f s).LutBuilt := hb.of_frame (by simp) hrb fun a h1 _ => transformAll_windows hl f a (.inr (by omega))
  have hblk (c j : Nat) (hcn : c < s.nch) (hj : j < 2 ^ s.exponent f) : IsZeroWord ((transformAll f s).blkWord c j) := by
    rw [transformAll_blkWord hl hm hcn hj]
    exact isZeroWord_transformed hc hl hb hm (fun k => hx c k hcn) hj
  have hflag : (transformAll f s).status.xfFlag = f := by simp
  refine ⟨_, exec_block hc f, fun i hi => olaCore_pcm_silent (by simpa using hc) hl' hb' hm' ?_ ?_ hi, fun c i hcn hi => ?_⟩
  · simpa [State.nch_congr hrb, State.exponent_congr hrb, transformAll_prevWord hl] using hprev
  · simpa [State.nch_congr hrb, State.exponent_congr hrb] using hblk
  · rw [olaCore_prevWord hl' hm' (by rwa [State.nch_congr hrb]) (by rwa [hflag, State.exponent_congr hrb]), hflag, State.exponent_congr hrb]
    exact hblk c _ hcn (by omega)

end Sys2Proof.Machine
end

section
/-!
PROOFS. The buffer and control commands (43_buffer_control.md R220 to R224): what each writes and what it leaves.
-/

namespace Sys2Proof.Machine

open Sys2Proof.Reference

/-! ### Cleared words (R221, R222) -/

/-- A word that lies whole in a cleared range reads 0. -/
theorem Memory.readWord_clearBytes (m : Memory) {lo len a : Nat} (h1 : lo ≤ a) (h2 : a + 4 ≤ lo + len) :
    (m.clearBytes lo len).readWord a = 0x00000000 :=
  (Memory.readWord_congr fun i hi => (m.readByte_clearBytes lo len (a + i)).trans (if_pos (by omega))).trans (readWord_cleared a)

theorem Memory.sameOutside_clearBytes (m : Memory) (lo len : Nat) : SameOutside lo len m (m.clearBytes lo len) :=
  fun a ha => (m.readByte_clearBytes lo len a).trans (if_neg (by omega))

theorem clearCoef_coefWord (s : State) {c k : Nat} (hk : k < 4096) : (clearCoef c s).coefWord c k = 0x00000000 :=
  s.mem.readWord_clearBytes (by simp only [coefAddr]; omega) (by simp only [coefAddr, Config.coefDepth]; omega)

theorem clearAllCoef_coefWord (s : State) {c k : Nat} (hc : c < 8) (hk : k < 4096) : (clearAllCoef s).coefWord c k = 0x00000000 :=
  s.mem.readWord_clearBytes (by simp only [coefAddr]; omega) (by simp only [coefAddr, Config.coefDepth, Config.nchMax]; omega)

/-! ### The commands -/

theorem exec_zeroCoef {s : State} {ch : Nat} (hc : s.status.configured = true) (hch : ch < s.nch) :
    exec (.zeroCoef ch) s = .next (clearCoef ch s) :=
  exec_eq_execWith ▸ execZeroCoef_ok ((zeroCoefError?_none_iff ch s).2 ⟨hc, hch⟩)

theorem exec_zeroAll {s : State} (hc : s.status.configured = true) : exec .zeroAll s = .next (clearAllCoef s) :=
  exec_eq_execWith ▸ execZeroAll_ok hc

theorem exec_restart {s : State} (hc : s.status.configured = true) :
    exec .restart s = .next { s with status := s.status.forget, outCount := 0 } :=
  exec_eq_execWith ▸ execRestart_ok hc

theorem exec_nop (s : State) : exec .nop s = .next s := rfl

theorem exec_softReset (s : State) : exec .softReset s = .next (resetRegisters s) := rfl

/-- No samples in a channel are no samples in all (10_state.md R45). -/
theorem State.outTotal_eq_zero {s : State} (h : s.outCount = 0) : s.outTotal = 0 := by simp [State.outTotal, h]

/-- An engine that is not configured has no block sizes (10_state.md R46). -/
theorem State.blockSizeWord_eq_zero {s : State} (h : s.status.configured = false) (f : BlockFlag) : s.blockSizeWord f = 0 := by
  simp [State.blockSizeWord, h]

/-- `STATUS` reads 0 after a reset (10_state.md R57). -/
theorem Status.word_reset : Status.reset.word = 0 := statusLayout.2.1

/-- `CONFIG_RB` reads 0 after a reset (10_state.md R57). -/
theorem ConfigRb.word_reset : ConfigRb.reset.word = 0 := by decide

/-! ### The obligations -/

/-- Settles O39: the cleared range is the channel's row. -/
theorem zeroCoefClears : Obligations.ZeroCoefClears := by
  intro s ch hc hch
  exact ⟨clearCoef ch s, exec_zeroCoef hc hch, fun _ => clearCoef_coefWord s, s.mem.sameOutside_clearBytes _ _, rfl⟩

/-- Settles O40: the cleared range is all eight rows, which lie side by side (20_memory.md R76). -/
theorem zeroAllClears : Obligations.ZeroAllClears := by
  intro s hc
  exact ⟨clearAllCoef s, exec_zeroAll hc, fun _ _ => clearAllCoef_coefWord s, s.mem.sameOutside_clearBytes _ _, rfl⟩

/-- Settles O41: `RESTART`'s effect is `Status.forget` and an empty count. -/
theorem nopAndRestart : Obligations.NopAndRestart := by
  refine ⟨exec_nop, fun s hc => ?_⟩
  exact ⟨_, exec_restart hc, rfl, State.outTotal_eq_zero rfl⟩

/-- Settles O42: `SOFT_RESET`'s effect is `resetRegisters`, and the reset registers read 0. -/
theorem softResetResets : Obligations.SoftResetResets := by
  intro s
  have hsize (f : BlockFlag) : (resetRegisters s).blockSizeWord f = 0 := State.blockSizeWord_eq_zero rfl f
  exact ⟨resetRegisters s, exec_softReset s, Status.word_reset, ConfigRb.word_reset, rfl, rfl, State.outTotal_eq_zero rfl,
    hsize .short, hsize .long, rfl⟩

end Sys2Proof.Machine
end

section
/-!
PROOFS. Command errors and the failed engine (60_exceptions.md R252 to R255, R265): what an error records, what a failed engine still does, and
what leaves `FAILED`.
-/

namespace Sys2Proof.Machine

open Sys2Proof.Reference

variable {s t : State} {w : Word} {code : ErrCode}

/-! ### Totality (R265) -/

/-- Settles O9: a command answers a next state whether its checks pass or fail (`exec_next`). -/
theorem everyCommandCompletes : Obligations.EveryCommandCompletes := exec_next

/-! ### Errors (R252, R253) -/

/-- The checks of R253 read `CONFIGURED`, the configuration and the record of transforms, none of which the write of `CMD` changes. -/
theorem wordError_begun (w : Word) (s : State) (rest : List HostEvent) (polls : Nat) :
    wordError w (begun s rest polls) = wordError w s := by
  unfold wordError
  cases tableDecode w with
  | none => rfl
  | some i => cases i <;> rfl

/-- An executed word whose checks fail records the first one's error: itself where it is `Illegal`, and where it decodes the command's word,
which is itself (R103). -/
theorem execWord_error (h : wordError w s = some code) : execWord w s = .next (raiseError code w s) := by
  have htable := toOption_decode w
  cases hd : decode w with
  | error e =>
    have hnone : tableDecode w = none := by rw [← htable, hd]; rfl
    rw [wordError, hnone] at h
    cases h
    exact execWord_of_tableDecode_none hnone s
  | ok i =>
    have hsome : tableDecode w = some i := by rw [← htable, hd]; rfl
    rw [wordError, hsome] at h
    rw [execWord_of_decode hd, exec_eq_execWith, execWith_error h, (encode_of_decode hd).2]

/-- Settles O10: the word runs as `execWord_error` from the state that it meets, and `BUSY` is cleared after it. -/
theorem errorsArePrecise : Obligations.ErrorsArePrecise := by
  intro s w polls rest code hf herr
  obtain ⟨t, ht, hstep⟩ := step_command w polls rest hf
  have hbegun : execWord w (begun s rest polls) = .next (raiseError code w (begun s rest polls)) :=
    execWord_error ((wordError_begun w s rest polls).trans herr)
  cases hbegun.symm.trans ht
  exact ⟨_, hstep⟩

/-! ### A word written to a failed engine (R254) -/

theorem accepts_of_failed (hf : s.status.failed = true) : s.accepts w = true ↔ w = 0x0000000F := by
  have hword : encode .softReset = 0x0000000F := by decide
  simp [State.accepts, hf, hword]

/-- A failed engine ignores every other word: only the host's reads are answered. -/
theorem issue_ignored (hf : s.status.failed = true) (hw : w ≠ 0x0000000F) (polls : Nat) : issue w polls s = .next (s.pollStatus polls) := by
  obtain ⟨hacc, -⟩ | ⟨-, h⟩ := issue_cases w polls s
  · exact absurd ((accepts_of_failed hf).1 hacc) hw
  · exact h

/-- A failed engine executes `SOFT_RESET`. -/
theorem issue_softReset (hf : s.status.failed = true) (polls : Nat) :
    issue 0x0000000F polls s = .next (resetRegisters (s.accept.pollStatus polls)).complete := by
  obtain ⟨-, t, ht, h⟩ | ⟨hno, -⟩ := issue_cases 0x0000000F polls s
  · have hdecode : decode 0x0000000F = .ok .softReset := decode_encode (i := .softReset) trivial
    rw [execWord_of_decode hdecode, exec_softReset] at ht
    cases ht
    exact h
  · cases ((accepts_of_failed hf).2 rfl).symm.trans hno

/-- A step at a command word is its issue (R84). -/
theorem step_eq_issue (s : State) (w : Word) (polls : Nat) (rest : List HostEvent) :
    step { s with pending := .command w polls :: rest } = issue w polls { s with pending := rest } := rfl

theorem step_command_ignored (hf : s.status.failed = true) (hw : w ≠ 0x0000000F) (polls : Nat) (rest : List HostEvent) :
    step { s with pending := .command w polls :: rest } = .next ({ s with pending := rest }.pollStatus polls) :=
  (step_eq_issue s w polls rest).trans (issue_ignored (s := { s with pending := rest }) hf hw polls)

theorem step_command_softReset (hf : s.status.failed = true) (polls : Nat) (rest : List HostEvent) :
    step { s with pending := .command 0x0000000F polls :: rest } = .next (ended (resetRegisters (begun s rest polls))) :=
  (step_eq_issue s _ polls rest).trans (issue_softReset (s := { s with pending := rest }) hf polls)

/-- Settles O12: a word is `step_command_ignored` or `step_command_softReset`, a write of `CMD` is a command without polls, and reads and
`COEF` writes do not look at `FAILED`. -/
theorem failedIgnoresCommands : Obligations.FailedIgnoresCommands := by
  intro s rest hf
  refine ⟨fun w polls hw => ⟨⟨_, step_command_ignored hf hw polls rest⟩, ?_⟩, ?_, fun off hlegal => step_read hlegal s rest,
    fun off v h4 hlo hhi => ?_⟩
  · rw [step_writeCmd, step_command_ignored hf hw, State.pollStatus_zero]
  · have hreset := step_command_softReset hf 0 rest
    exact ⟨_, exec_softReset _, hreset, (step_writeCmd s _ rest).trans hreset⟩
  · have hcmd : off ≠ cmdOffset := by rintro rfl; exact absurd hlo (by decide)
    rw [step_write ⟨rfl, h4, .inr (.inl ⟨hlo, hhi⟩)⟩ hcmd, State.writeAperture_coef _ ⟨hlo, hhi⟩]

/-! ### The way out of `FAILED` (R255) -/

/-- The registers that hold state (10_state.md R33) are the same in both. -/
def SameRegisters (s t : State) : Prop :=
  t.status = s.status ∧ t.errCmd = s.errCmd ∧ t.configRb = s.configRb ∧ t.outCount = s.outCount

/-- Every register that holds state is at its reset value (10_state.md R57). -/
def RegistersReset (t : State) : Prop :=
  t.status = Status.reset ∧ t.configRb = ConfigRb.reset ∧ t.outCount = 0 ∧ t.errCmd = 0

/-- The events that reset a failed engine's registers: the hardware reset and the word of `SOFT_RESET`. -/
def ResetEvent (e : HostEvent) : Prop :=
  e = .hardReset ∨ e = .write 0x004 4 0x0000000F ∨ ∃ polls, e = .command 0x0000000F polls

/-- A write elsewhere than `CMD` changes no register (20_memory.md R75). -/
theorem sameRegisters_writeAperture (s : State) (off : Offset) (v : Word) : SameRegisters s (s.writeAperture off v) := by
  unfold State.writeAperture
  split <;> exact ⟨rfl, rfl, rfl, rfl⟩

/-- An event that a failed engine performs resets every register, or keeps every register. -/
theorem perform_failed {e : HostEvent} (hf : s.status.failed = true) (h : perform e s = .next t) :
    (ResetEvent e ∧ RegistersReset t) ∨ SameRegisters s t := by
  obtain ⟨off, -, -, rfl⟩ | ⟨off, v, -, -, -, rfl⟩ | ⟨w, polls, he, hissue⟩ | ⟨rfl, rfl⟩ := perform_cases h
  · exact .inr ⟨rfl, rfl, rfl, rfl⟩
  · exact .inr (sameRegisters_writeAperture s off v)
  · by_cases hw : w = 0x0000000F
    · subst hw
      cases (issue_softReset hf polls).symm.trans hissue
      refine .inl ⟨?_, rfl, rfl, rfl, rfl⟩
      obtain rfl | ⟨rfl, -⟩ := he
      · exact .inr (.inr ⟨polls, rfl⟩)
      · exact .inr (.inl rfl)
    · cases (issue_ignored hf hw polls).symm.trans hissue
      exact .inr ⟨rfl, rfl, rfl, rfl⟩
  · exact .inl ⟨.inl rfl, rfl, rfl, rfl, rfl⟩

/-- The same of a step, which performs the first pending event or none. -/
theorem step_failed (hf : s.status.failed = true) (h : step s = .next t) :
    (∃ e rest, s.pending = e :: rest ∧ ResetEvent e ∧ RegistersReset t) ∨ SameRegisters s t := by
  obtain ⟨-, rfl⟩ | ⟨e, rest, hp, hx⟩ := step_cases h
  · exact .inr ⟨rfl, rfl, rfl, rfl⟩
  · obtain ⟨he, ht⟩ | hsame := perform_failed (s := { s with pending := rest }) hf hx
    · exact .inl ⟨e, rest, hp, he, ht⟩
    · exact .inr hsame

/-- Settles O13: a step that resets the registers leaves `FAILED`, and one that keeps them does not. -/
theorem failedLeftByReset : Obligations.FailedLeftByReset := by
  intro s t hf hstep
  obtain ⟨e, rest, hp, he, ht⟩ | hsame := step_failed hf hstep
  · have hleft : t.status.failed = false := congrArg Status.failed ht.1
    refine ⟨fun _ => ⟨⟨rest, ?_⟩, ht⟩, fun hstay => absurd (hleft.symm.trans hstay) (by decide)⟩
    obtain rfl | rfl | ⟨polls, rfl⟩ := he
    · exact .inl hp
    · exact .inr (.inl hp)
    · exact .inr (.inr ⟨polls, hp⟩)
  · have hstay : t.status.failed = true := (congrArg Status.failed hsame.1).trans hf
    exact ⟨fun hleft => absurd (hleft.symm.trans hstay) (by decide), fun _ => hsame⟩

end Sys2Proof.Machine
end

section
/-!
PROOFS. Runs of one host (70_reset_and_hazards.md R293): an event that is performed leaves the events behind it as they are, and a legal one is
performed, so the run of all the pending events ends in a next state with none left.
-/

namespace Sys2Proof.Machine

open Sys2Proof.Reference

variable {s t : State} {e : HostEvent} {rest : List HostEvent}

/-! ### What an event leaves pending (20_memory.md R84) -/

@[simp] theorem State.writeAperture_pending (s : State) (off : Offset) (v : Word) : (s.writeAperture off v).pending = s.pending := by
  unfold State.writeAperture
  split <;> rfl

/-- A word written to `CMD`, executed or ignored, leaves the host's events as they are (`execWord_host`). -/
theorem issue_pending {w : Word} {polls : Nat} (h : issue w polls s = .next t) : t.pending = s.pending := by
  obtain ⟨-, u, hu, hissue⟩ | ⟨-, hissue⟩ := issue_cases w polls s <;> cases hissue.symm.trans h
  · exact (execWord_host hu).1
  · rfl

theorem perform_pending (h : perform e s = .next t) : t.pending = s.pending := by
  obtain ⟨off, -, -, rfl⟩ | ⟨off, v, -, -, -, rfl⟩ | ⟨w, polls, -, hissue⟩ | ⟨-, rfl⟩ := perform_cases h
  · rfl
  · exact s.writeAperture_pending off v
  · exact issue_pending hissue
  · rfl

/-! ### Legal events (R71, R73, R86) -/

/-- A legal event gives a next state: only an access that is not legal faults, and only a second master's access is refused. -/
theorem perform_next_of_legalEvent (he : LegalEvent e) (s : State) : ∃ t, perform e s = .next t := by
  cases h : perform e s with
  | next t => exact ⟨t, rfl⟩
  | fault r =>
    obtain ⟨off, width, hr, hoff⟩ := perform_fault h
    have hlegal : LegalAccess off width := by obtain rfl | ⟨v, rfl⟩ := hoff <;> exact he
    cases (busError?_eq_none_iff_legalAccess.2 hlegal).symm.trans hr
  | refused r =>
    obtain ⟨rfl, -⟩ := perform_refused h
    exact he.elim

/-- A step with a legal event first performs it, and leaves pending what stands behind it. -/
theorem step_next_of_legalEvent (he : LegalEvent e) (hp : s.pending = e :: rest) : ∃ t, step s = .next t ∧ t.pending = rest := by
  obtain ⟨t, ht⟩ := perform_next_of_legalEvent he { s with pending := rest }
  exact ⟨t, (step_cons s e rest hp).trans ht, perform_pending ht⟩

/-! ### Runs (70_reset_and_hazards.md R293) -/

theorem runAll_nil (hp : s.pending = []) : runAll s = .next s := by
  rw [runAll, hp]
  rfl

theorem core_run_succ (hs : step s = .next t) (n : Nat) : core.run (n + 1) s = core.run n t := by
  have hcore : core.step s = .next t := hs
  simp only [Host.Core.run, hcore]

/-- A run is its first step, then the run of what that step left pending. -/
theorem runAll_cons (hp : s.pending = e :: rest) (hs : step s = .next t) (ht : t.pending = rest) : runAll s = runAll t := by
  rw [runAll, runAll, hp, ht, List.length_cons, core_run_succ hs]

/-- Settles O23, by induction on the pending events: each step performs one of them (`step_next_of_legalEvent`). -/
theorem runsComplete : Obligations.RunsComplete := by
  intro s hlegal
  generalize hp : s.pending = events at hlegal
  induction events generalizing s with
  | nil => exact ⟨s, runAll_nil hp, hp⟩
  | cons e rest ih =>
    obtain ⟨he, hrest⟩ := List.forall_mem_cons.1 hlegal
    obtain ⟨t, hs, ht⟩ := step_next_of_legalEvent he hp
    rw [runAll_cons hp hs ht]
    exact ih t ht hrest

end Sys2Proof.Machine
end
